-- ==== Sys2Proof/Word.lean ====
section
/-! DEFINITION. The word types of MiCon-W9 AsyncFIFO: a byte of data and a 16-bit operation word. -/

namespace Sys2Proof

/-- A byte, an element of `[0x00, 0xFF]` the block never interprets (R93). -/
abbrev Byte := BitVec 8

/-- A 16-bit operation word, bit 0 the least significant (R11, R91). -/
abbrev Opw := BitVec 16

end Sys2Proof
end

