-- ==== Sys2Proof/Config.lean ====
section
/-! DEFINITION. The implementation parameters of R6: the open ones as a record of plain data, with the reference values, and the fixed texts. -/

namespace Sys2Proof

/-- Index synchronisation mode (R6, R7): `atomic` is the source's model, `gray` the spec's extension with view registers. -/
inductive SyncMode where
  | atomic
  | gray
  deriving DecidableEq, Repr

namespace Config

/-- The open parameters of R6. A run never changes them (R46); `State.cfg` holds them, so a statement over all states holds
for every value. `PRIO` is not here: the schedule chooses the order it leaves free (R247). -/
structure Params where
  /-- `C`, slots per ring, both rings (R6, R22). -/
  c : Nat
  /-- `RETRY_CEILING`, attempts per byte in all (R181). -/
  retryCeiling : Nat
  /-- `IDLE_WINDOW_TICKS` (R152). -/
  idleWindowTicks : Nat
  /-- `HB_PERIOD_TICKS` (R166). -/
  hbPeriodTicks : Nat
  /-- `TICK_MS`, the duration of one TICK; no operation reads it (R223, R290). DESIGN CHOICE: a natural number of
  milliseconds; the spec does not say that it is whole (log 17). -/
  tickMs : Nat
  /-- `SYNC` (R7). -/
  sync : SyncMode
  deriving DecidableEq, Repr

/-- `HB_PERIOD_TICKS = periodSeconds * 1000 / TICK_MS` (R201, which requires a whole number; else rounded down, log 17). DESIGN CHOICE: a
whole number of seconds, of which R201 says nothing (log 17). -/
def hbPeriodTicksOf (periodSeconds tickMs : Nat) : Nat := periodSeconds * 1000 / tickMs

/-- `IDLE_WINDOW_TICKS = windowMs / TICK_MS` (R201, which requires a whole number; else rounded down, log 17). DESIGN CHOICE: a whole
number of milliseconds, of which R201 says nothing (log 17). -/
def idleWindowTicksOf (windowMs tickMs : Nat) : Nat := windowMs / tickMs

/-- The reference values of R6. -/
def Params.reference : Params where
  c := 256
  retryCeiling := 250
  idleWindowTicks := 16
  hbPeriodTicks := 1000
  tickMs := 1
  sync := .atomic

/-- `W = log2(C)`, the index width (R6). -/
def Params.w (p : Params) : Nat := Nat.log2 p.c

/-- `BAUD`: the source gives no value and no rule reads it (R6, R201). -/
opaque baud : Nat

/-- `HB_TEXT`, the 26 bytes of R187. -/
def hbText : List Byte :=
  [0x41, 0x54, 0x6D, 0x65, 0x67, 0x61, 0x33, 0x32, 0x38, 0x50, 0x3A, 0x20, 0x48,
   0x65, 0x6C, 0x6C, 0x6F, 0x20, 0x57, 0x6F, 0x72, 0x6C, 0x64, 0x21, 0x0D, 0x0A]

/-- `REPORT_PREFIX`, the 11 bytes of R179. -/
def reportPrefix : List Byte :=
  [0x0D, 0x0A, 0x52, 0x65, 0x63, 0x65, 0x69, 0x76, 0x65, 0x64, 0x20]

/-- `REPORT_SUFFIX`, the 8 bytes of R179. -/
def reportSuffix : List Byte :=
  [0x20, 0x62, 0x79, 0x74, 0x65, 0x73, 0x0D, 0x0A]

/-- The number of slots of `MSG` (R41, R60 (c)). -/
def msgSlots : Nat := 32

/-- The constraints R6 states for `C`, `RETRY_CEILING`, `IDLE_WINDOW_TICKS` and `HB_PERIOD_TICKS`, and two that R6 does not
state: `C <= 10^13`, so that a report of any count below `C` fits the 32 slots of `MSG` (DEDUCED, log 4), and `TICK_MS >= 1`
(DESIGN CHOICE, log 17). -/
abbrev Params.ok (p : Params) : Prop :=
  2 ≤ p.c ∧ p.c = 2 ^ Nat.log2 p.c ∧ p.c ≤ 10 ^ 13 ∧ 1 ≤ p.retryCeiling ∧ 1 ≤ p.idleWindowTicks ∧
    1 ≤ p.hbPeriodTicks ∧ 1 ≤ p.tickMs

end Config
end Sys2Proof
end

