-- ==== Sys2Proof/Syntax.lean ====
section
/-! DEFINITION. The 27 operations of R96, one constructor per row of spec/opcode_table.json, with their operand types and the agents that perform them (R10). -/

namespace Sys2Proof

/-- Ring select, the field `X` (R92, R94). -/
inductive RingSel where
  | tx
  | rx
  deriving DecidableEq, Repr

/-- The role whose view OCC uses (R93, R115). -/
inductive Role where
  | consumer
  | producer
  deriving DecidableEq, Repr

/-- The operations of R96, in the table's order. -/
inductive Instr where
  | tryPush (x : RingSel) (b : Byte)
  | tryPop (x : RingSel)
  | occ (x : RingSel) (role : Role)
  | consumeAll (x : RingSel)
  | evRx
  | evTxRdy
  | evIdle
  | evHb
  | dspPollIdle
  | dspEnq
  | dspRxClr
  | dspIdlfClr
  | dspTxEn
  | dspPollHb
  | lineInit
  | lineWrdy
  | lineWr (b : Byte)
  | lineRd
  | hbtInit
  | idltInit
  | idlRearm
  | idlDisarm
  | envRxByte (b : Byte)
  | envTxDone
  | tick
  | sync (x : RingSel) (m : BitVec 2)
  | reset
  deriving DecidableEq, Repr

/-- The agents of R10. -/
inductive Agent where
  | main
  | isrRx
  | isrTx
  | isrIdle
  | isrHb
  | env
  | client
  deriving DecidableEq, Repr

/-- The agents that perform an operation, on its own or as a sub-operation (R10, the agent column of R96). -/
def Instr.agents : Instr → List Agent
  | .tryPush _ _ => [.client, .isrRx, .main]
  | .tryPop _ => [.client, .isrTx]
  | .occ _ _ => [.client, .main]
  | .consumeAll _ => [.client, .main]
  | .evRx => [.isrRx]
  | .evTxRdy => [.isrTx]
  | .evIdle => [.isrIdle]
  | .evHb => [.isrHb]
  | .dspPollIdle => [.main]
  | .dspEnq => [.main]
  | .dspRxClr => [.main]
  | .dspIdlfClr => [.main]
  | .dspTxEn => [.main]
  | .dspPollHb => [.main]
  | .lineInit => [.main]
  | .lineWrdy => [.isrTx]
  | .lineWr _ => [.isrTx]
  | .lineRd => [.isrRx]
  | .hbtInit => [.main]
  | .idltInit => [.main]
  | .idlRearm => [.isrRx]
  | .idlDisarm => [.isrIdle]
  | .envRxByte _ => [.env]
  | .envTxDone => [.env]
  | .tick => [.env]
  | .sync _ _ => [.env]
  | .reset => [.env]

end Sys2Proof
end

