-- ==== Sys2Proof/WellFormed.lean ====
section
/-! DEFINITION. Which operations are well formed: the operand types admit every operand but one, SYNC's mask 0 (R93). -/

namespace Sys2Proof

/-- Every operand value of the syntax has an encoding, but SYNC's mask `m = 0`, which is reserved (R93, R98). -/
def Instr.wf : Instr → Bool
  | .tryPush _ _ => true
  | .tryPop _ => true
  | .occ _ _ => true
  | .consumeAll _ => true
  | .evRx => true
  | .evTxRdy => true
  | .evIdle => true
  | .evHb => true
  | .dspPollIdle => true
  | .dspEnq => true
  | .dspRxClr => true
  | .dspIdlfClr => true
  | .dspTxEn => true
  | .dspPollHb => true
  | .lineInit => true
  | .lineWrdy => true
  | .lineWr _ => true
  | .lineRd => true
  | .hbtInit => true
  | .idltInit => true
  | .idlRearm => true
  | .idlDisarm => true
  | .envRxByte _ => true
  | .envTxDone => true
  | .tick => true
  | .sync _ m => m != 0
  | .reset => true

end Sys2Proof
end

