-- ==== Sys2Proof/Decode.lean ====
section
/-! DEFINITION. Decoding an operation word (R92, R93, R96 to R98), total and rejecting by name, the encoder, and the match and mask of each row of R96. -/

namespace Sys2Proof

/-- Why a word is reserved (R98). -/
inductive Reserved where
  /-- `cls` in 5 to 15. -/
  | opClass
  /-- a function number with no row in its class. -/
  | function
  /-- `X = 1` where the row takes no ring. -/
  | ringBit
  /-- nonzero `imm8` bits the row requires to be 0. -/
  | operandBits
  /-- SYNC with `imm8[1:0] = 00`. -/
  | syncMaskZero
  deriving DecidableEq, Repr

/-- `cls`, bits 15:12 (R92). -/
def clsOf (w : Opw) : BitVec 4 := w.extractLsb' 12 4

/-- `X`, bit 11 (R92). -/
def ringBitOf (w : Opw) : Bool := w.getLsbD 11

/-- `fn`, bits 10:8 (R92). -/
def fnOf (w : Opw) : BitVec 3 := w.extractLsb' 8 3

/-- `imm8`, bits 7:0 (R92). -/
def imm8Of (w : Opw) : Byte := w.extractLsb' 0 8

/-- `X`: 0 = TX, 1 = RX (R92). -/
def ringOfBit : Bool → RingSel
  | false => .tx
  | true => .rx

/-- OCC's `imm8[0]`: 0 = consumer view, 1 = producer view (R93). -/
def roleOfBit : Bool → Role
  | false => .consumer
  | true => .producer

/-- A row whose `imm8` must be 0. -/
def requireNoOperand (imm : Byte) (i : Instr) : Except Reserved Instr :=
  if imm = 0 then .ok i else .error .operandBits

/-- A row that takes no ring: `X` must be 0. -/
def requireNoRing (x : Bool) (r : Except Reserved Instr) : Except Reserved Instr :=
  if x then .error .ringBit else r

/-- Class 0, the ring operations (rows 1 to 4). -/
def decodeRing (x : Bool) (fn : BitVec 3) (imm : Byte) : Except Reserved Instr :=
  match fn.toNat with
  | 0 => .ok (.tryPush (ringOfBit x) imm)
  | 1 => requireNoOperand imm (.tryPop (ringOfBit x))
  | 2 => if imm.extractLsb' 1 7 = 0 then .ok (.occ (ringOfBit x) (roleOfBit (imm.getLsbD 0)))
         else .error .operandBits
  | 3 => requireNoOperand imm (.consumeAll (ringOfBit x))
  | _ => .error .function

/-- Class 1, the events (rows 5 to 8). -/
def decodeEvent (fn : BitVec 3) (imm : Byte) : Except Reserved Instr :=
  match fn.toNat with
  | 0 => requireNoOperand imm .evRx
  | 1 => requireNoOperand imm .evTxRdy
  | 2 => requireNoOperand imm .evIdle
  | 3 => requireNoOperand imm .evHb
  | _ => .error .function

/-- Class 2, the dispatch operations (rows 9 to 14). -/
def decodeDispatch (fn : BitVec 3) (imm : Byte) : Except Reserved Instr :=
  match fn.toNat with
  | 0 => requireNoOperand imm .dspPollIdle
  | 1 => requireNoOperand imm .dspEnq
  | 2 => requireNoOperand imm .dspRxClr
  | 3 => requireNoOperand imm .dspIdlfClr
  | 4 => requireNoOperand imm .dspTxEn
  | 5 => requireNoOperand imm .dspPollHb
  | _ => .error .function

/-- Class 3, line and timer interface (rows 15 to 22). -/
def decodeLine (fn : BitVec 3) (imm : Byte) : Except Reserved Instr :=
  match fn.toNat with
  | 0 => requireNoOperand imm .lineInit
  | 1 => requireNoOperand imm .lineWrdy
  | 2 => .ok (.lineWr imm)
  | 3 => requireNoOperand imm .lineRd
  | 4 => requireNoOperand imm .hbtInit
  | 5 => requireNoOperand imm .idltInit
  | 6 => requireNoOperand imm .idlRearm
  | 7 => requireNoOperand imm .idlDisarm
  | _ => .error .function

/-- SYNC's operand (row 26): `imm8[7:2] = 0` and `imm8[1:0] != 0`. -/
def decodeSync (x : Bool) (imm : Byte) : Except Reserved Instr :=
  if imm.extractLsb' 2 6 = 0 then
    if imm.extractLsb' 0 2 = 0 then .error .syncMaskZero
    else .ok (.sync (ringOfBit x) (imm.extractLsb' 0 2))
  else .error .operandBits

/-- Class 4, the environment (rows 23 to 27); SYNC alone takes a ring. -/
def decodeEnv (x : Bool) (fn : BitVec 3) (imm : Byte) : Except Reserved Instr :=
  match fn.toNat with
  | 0 => requireNoRing x (.ok (.envRxByte imm))
  | 1 => requireNoRing x (requireNoOperand imm .envTxDone)
  | 2 => requireNoRing x (requireNoOperand imm .tick)
  | 3 => decodeSync x imm
  | 4 => requireNoRing x (requireNoOperand imm .reset)
  | _ => .error .function

/-- Decoding by fields (R97). -/
def decodeFields (cls : BitVec 4) (x : Bool) (fn : BitVec 3) (imm : Byte) : Except Reserved Instr :=
  match cls.toNat with
  | 0 => decodeRing x fn imm
  | 1 => requireNoRing x (decodeEvent fn imm)
  | 2 => requireNoRing x (decodeDispatch fn imm)
  | 3 => requireNoRing x (decodeLine fn imm)
  | 4 => decodeEnv x fn imm
  | _ => .error .opClass

/-- Decoding (R97): every word is one operation with its operands, or reserved. SYNC words decode here in both modes; that they
are reserved where `SYNC = ATOMIC` (R98) is said by SYNC's meaning, which knows the mode. -/
def decode (w : Opw) : Except Reserved Instr :=
  decodeFields (clsOf w) (ringBitOf w) (fnOf w) (imm8Of w)

/-- The word with the given fields (R92). -/
def pack (cls : BitVec 4) (x : Bool) (fn : BitVec 3) (imm : Byte) : Opw :=
  cls ++ BitVec.ofBool x ++ fn ++ imm

/-- The field `X` of a ring operand. -/
def ringBit : RingSel → Bool
  | .tx => false
  | .rx => true

/-- The operand byte of OCC's role. -/
def roleByte : Role → Byte
  | .consumer => 0
  | .producer => 1

/-- The word of an operation (R96). -/
def encode : Instr → Opw
  | .tryPush x b => pack 0 (ringBit x) 0 b
  | .tryPop x => pack 0 (ringBit x) 1 0
  | .occ x role => pack 0 (ringBit x) 2 (roleByte role)
  | .consumeAll x => pack 0 (ringBit x) 3 0
  | .evRx => pack 1 false 0 0
  | .evTxRdy => pack 1 false 1 0
  | .evIdle => pack 1 false 2 0
  | .evHb => pack 1 false 3 0
  | .dspPollIdle => pack 2 false 0 0
  | .dspEnq => pack 2 false 1 0
  | .dspRxClr => pack 2 false 2 0
  | .dspIdlfClr => pack 2 false 3 0
  | .dspTxEn => pack 2 false 4 0
  | .dspPollHb => pack 2 false 5 0
  | .lineInit => pack 3 false 0 0
  | .lineWrdy => pack 3 false 1 0
  | .lineWr b => pack 3 false 2 b
  | .lineRd => pack 3 false 3 0
  | .hbtInit => pack 3 false 4 0
  | .idltInit => pack 3 false 5 0
  | .idlRearm => pack 3 false 6 0
  | .idlDisarm => pack 3 false 7 0
  | .envRxByte b => pack 4 false 0 b
  | .envTxDone => pack 4 false 1 0
  | .tick => pack 4 false 2 0
  | .sync x m => pack 4 (ringBit x) 3 (m.setWidth 8)
  | .reset => pack 4 false 4 0

/-- The match column of R96, written out from the table (not from `encode`). -/
def rowMatch : Instr → Opw
  | .tryPush _ _ => 0x0000
  | .tryPop _ => 0x0100
  | .occ _ _ => 0x0200
  | .consumeAll _ => 0x0300
  | .evRx => 0x1000
  | .evTxRdy => 0x1100
  | .evIdle => 0x1200
  | .evHb => 0x1300
  | .dspPollIdle => 0x2000
  | .dspEnq => 0x2100
  | .dspRxClr => 0x2200
  | .dspIdlfClr => 0x2300
  | .dspTxEn => 0x2400
  | .dspPollHb => 0x2500
  | .lineInit => 0x3000
  | .lineWrdy => 0x3100
  | .lineWr _ => 0x3200
  | .lineRd => 0x3300
  | .hbtInit => 0x3400
  | .idltInit => 0x3500
  | .idlRearm => 0x3600
  | .idlDisarm => 0x3700
  | .envRxByte _ => 0x4000
  | .envTxDone => 0x4100
  | .tick => 0x4200
  | .sync _ _ => 0x4300
  | .reset => 0x4400

/-- The mask column of R96. -/
def rowMask : Instr → Opw
  | .tryPush _ _ => 0xF700
  | .tryPop _ => 0xF7FF
  | .occ _ _ => 0xF7FE
  | .consumeAll _ => 0xF7FF
  | .evRx => 0xFFFF
  | .evTxRdy => 0xFFFF
  | .evIdle => 0xFFFF
  | .evHb => 0xFFFF
  | .dspPollIdle => 0xFFFF
  | .dspEnq => 0xFFFF
  | .dspRxClr => 0xFFFF
  | .dspIdlfClr => 0xFFFF
  | .dspTxEn => 0xFFFF
  | .dspPollHb => 0xFFFF
  | .lineInit => 0xFFFF
  | .lineWrdy => 0xFFFF
  | .lineWr _ => 0xFF00
  | .lineRd => 0xFFFF
  | .hbtInit => 0xFFFF
  | .idltInit => 0xFFFF
  | .idlRearm => 0xFFFF
  | .idlDisarm => 0xFFFF
  | .envRxByte _ => 0xFF00
  | .envTxDone => 0xFFFF
  | .tick => 0xFFFF
  | .sync _ _ => 0xF7FC
  | .reset => 0xFFFF

/-- A word selects a row iff `(w and mask) = match` (R96). -/
def selectsRow (w : Opw) (i : Instr) : Bool := (w &&& rowMask i) == rowMatch i

/-- The operation this decoder reads from a word numbered as spec/opcode_table.json numbers it. Every row has 16 bits (R91);
`nbits` beyond 16, or a value that does not fit the word, is no operation word. -/
def decodeTableWord (nbits w : Nat) : Option Instr :=
  if nbits ≤ 16 ∧ w < 2 ^ 16 then
    match decode (BitVec.ofNat 16 w) with
    | .ok i => some i
    | .error _ => none
  else none

end Sys2Proof
end

