-- ==== Sys2Proof/Machine/Memory.lean ====
section
/-! DEFINITION. A storage space (R60): the slots that hold a byte, as address and byte pairs in one canonical form, and its operations. An unlisted slot holds NONE (R26). -/

namespace Sys2Proof.Machine

/-- A storage space: the written slots, addresses strictly rising. An unlisted slot holds `NONE`, so no entry can equal what an
unlisted slot reads as. -/
abbrev Mem := List (Nat × BitVec 8)

/-- What slot `a` holds: a byte, or `none` for the spec's `NONE` (R26). -/
def Mem.read : Mem → Nat → Option Byte
  | [], _ => none
  | (k, v) :: m, a => if k = a then some v else Mem.read m a

/-- Writes one byte to slot `a`, keeping the entries sorted. -/
def Mem.write : Mem → Nat → Byte → Mem
  | [], a, b => [(a, b)]
  | (k, v) :: m, a, b =>
    if a < k then (a, b) :: (k, v) :: m
    else if a = k then (a, b) :: m
    else (k, v) :: Mem.write m a b

/-- Writes bytes to the slots from `a` on, first byte first. -/
def Mem.writeFrom : Mem → Nat → List Byte → Mem
  | m, _, [] => m
  | m, a, b :: bs => Mem.writeFrom (Mem.write m a b) (a + 1) bs

/-- The canonical form: addresses strictly rising. -/
abbrev Mem.wf (m : Mem) : Prop := List.Pairwise (fun x y => x.1 < y.1) m

/-- Every listed slot is one of the space's `n` slots. -/
abbrev Mem.below (m : Mem) (n : Nat) : Prop := ∀ x ∈ m, x.1 < n

end Sys2Proof.Machine
end

