-- ==== Sys2Proof/Machine/State.lean ====
section
/-! DEFINITION. The device state (R20), its reset values (R47), and the reasons a step can stop. -/

namespace Sys2Proof.Machine

open Sys2Proof.Config

/-- A BoundedByteRing (R21), with the view registers of `SYNC = GRAY` (R27). -/
structure Ring where
  /-- `X.buf`, `C` byte slots. -/
  buf : Mem
  /-- `X.head`, the next write position. -/
  head : Nat
  /-- `X.tail`, the next read position. -/
  tail : Nat
  /-- `X.tail_p`, the producer side's view of `tail`; exists in `SYNC = GRAY` only, not read or written in `ATOMIC`. -/
  tailP : Nat
  /-- `X.head_c`, the consumer side's view of `head`; exists in `SYNC = GRAY` only, not read or written in `ATOMIC`. -/
  headC : Nat
  deriving DecidableEq, Repr

/-- A ring after RESET (R47). -/
def Ring.empty : Ring where
  buf := []
  head := 0
  tail := 0
  tailP := 0
  headC := 0

/-- CR6 `MPC`, the position of the dispatch loop in its pass (R40). -/
inductive Mpc where
  /-- 0 `MP_POLLIDLE` -/
  | pollIdle
  /-- 1 `MP_REP_ENQ` -/
  | repEnq
  /-- 2 `MP_REP_RXCLR` -/
  | repRxClr
  /-- 3 `MP_REP_FCLR` -/
  | repFClr
  /-- 4 `MP_REP_TXEN` -/
  | repTxEn
  /-- 5 `MP_POLLHB` -/
  | pollHb
  /-- 6 `MP_HB_ENQ` -/
  | hbEnq
  /-- 7 `MP_HB_TXEN` -/
  | hbTxEn
  deriving DecidableEq, Repr

/-- The result value of an operation (R14). -/
inductive Result where
  /-- the operation returns nothing. -/
  | none
  /-- TRYPUSH: 1 success, 0 ring full. -/
  | ok (b : Bool)
  /-- TRYPOP: `Some(b)` or `None`. -/
  | popped (b : Option Byte)
  /-- OCC: an unsigned integer. -/
  | count (n : Nat)
  /-- LINEWRDY: 1 bit. -/
  | ready (b : Bool)
  /-- LINERD: a byte. -/
  | byte (b : Byte)
  deriving DecidableEq, Repr

/-- Why the machine stops with no next state. Each is safe: the model stops where the spec gives no step. -/
inductive Fault where
  /-- The operation's guard is false: it has no step (R13 (b), R104, U4). Raised by every guarded operation. Safe. -/
  | notEnabled
  /-- EV_RX taken while EV_IDLE is enabled (R247 (a)): the schedule is invalid. Raised by the schedule's admission. Safe. -/
  | priorityViolated
  /-- `UnwrittenSlot(X, index)` (R64). Raised by TRYPOP; no state with `State.Inv` raises it. Safe. -/
  | unwrittenSlot (x : RingSel) (index : Nat)
  /-- `RX_DATA` is `NONE` while `RX_PEND = 1` (log 6). Raised by LINERD; no state with `State.Inv` raises it. Safe. -/
  | unwrittenRxData
  /-- `MSG[index]` is `NONE` where DSP_ENQ reads it (log 6). No state with `State.Inv` raises it. Safe. -/
  | unwrittenMsg (index : Nat)
  /-- A message longer than the 32 slots of `MSG` (log 4). Raised by the polls; impossible for parameters that are ok. Safe. -/
  | messageTooLong
  /-- `HB_CNT = 0` while `HB_RUN = 1` at a TICK (R34 excludes it, log 7). No state with `State.Inv` raises it. Safe. -/
  | heartbeatCountZero
  deriving DecidableEq, Repr

/-- Why an input is not an input of the model. Each is safe: a refusal has no step. -/
inductive Refusal where
  /-- An instruction without a meaning yet; raised by a dispatch arm only. Safe. -/
  | notModelled (mnemonic : String)
  /-- A reserved operation word (R98). Raised by the step and by runSchedule. Safe. -/
  | reservedWord (why : Reserved)
  /-- SYNC in a machine with `SYNC = ATOMIC`, where its word is reserved (R98, U2). Raised by SYNC and by runSchedule. Safe. -/
  | syncInAtomic
  /-- SYNC with mask 0, which no word decodes to (R93, R98). Raised by SYNC. Safe. -/
  | syncMaskZero
  /-- A sub-operation as a step of its own (R99, U3). Raised by the schedule's admission and by runSchedule. Safe. -/
  | subOperation
  /-- A schedule in which clients and the block's own agents use one ring (R13 (c), R99, R273, U5; log 5). Raised by runSchedule,
  which sees the whole schedule; no step raises it. Safe. -/
  | outsideContract
  /-- LINEWR without `LINE_EN = 1` and `TX_RDY = 1` (R204). Raised by LINEWR. Safe. -/
  | lineNotReady
  /-- LINERD with `RX_PEND = 0` (R205). Raised by LINERD. Safe. -/
  | noReceivedByte
  /-- IDLREARM with `IDLE_CFG = 0` (R154). Raised by IDLREARM. Safe. -/
  | idleTimerNotConfigured
  /-- The schedule has no further word (R104, log 1). Raised by the step. Safe. -/
  | scheduleEnd
  deriving DecidableEq, Repr

/-- The device state (R20), and three fields of the model's own: `cfg`, `sched`, `result`. -/
structure State where
  /-- TransmitRing (R22). -/
  tx : Ring
  /-- ReceiveRing (R22). -/
  rx : Ring
  /-- CR0.0 `LINE_EN` (R31). -/
  lineEn : Bool
  /-- CR0.1 `RXIE`. -/
  rxie : Bool
  /-- CR0.2 `TXIE`, the pump state: idle = 0, draining = 1 (R32). -/
  txie : Bool
  /-- CR0.3 `IDLE_ARMED` (R33). -/
  idleArmed : Bool
  /-- CR0.4 `HB_RUN` (R34). -/
  hbRun : Bool
  /-- CR0.5 `IDLE_CFG`. -/
  idleCfg : Bool
  /-- CR1.0 `HBF` (R28). -/
  hbf : Bool
  /-- CR1.1 `IDLF` (R29). -/
  idlf : Bool
  /-- CR2.0 `RX_PEND` (R35). -/
  rxPend : Bool
  /-- CR2.1 `TX_RDY`. -/
  txRdy : Bool
  /-- CR2.2 `IDLE_PEND`. -/
  idlePend : Bool
  /-- CR2.3 `HB_PEND`. -/
  hbPend : Bool
  /-- CR3 `RX_DATA` (R36), `none` for the spec's `NONE`. -/
  rxData : Option Byte
  /-- CR4 `IDLE_CNT` (R33). -/
  idleCnt : Nat
  /-- CR5 `HB_CNT` (R34). -/
  hbCnt : Nat
  /-- CR6 `MPC` (R40). -/
  mpc : Mpc
  /-- CR7 `MI` (R41). -/
  mi : Nat
  /-- CR8 `MLEN`. -/
  mlen : Nat
  /-- CR9 `ATT`. -/
  att : Nat
  /-- CR10 `NLATCH`. -/
  nlatch : Nat
  /-- `MSG[0 .. 31]`. -/
  msg : Mem
  /-- `WIRE_TX` (R45), oldest first. -/
  wireTx : List Byte
  /-- `WIRE_RX` (R45), oldest first. -/
  wireRx : List Byte
  /-- The parameters of R6, constant over a run (R46, log 3). The model's own field. -/
  cfg : Params
  /-- The operation words still to be performed, oldest first (R104, log 1). The model's own field. -/
  sched : List Opw
  /-- The result of the last operation (R14, log 2). The model's own field. -/
  result : Result
  deriving DecidableEq, Repr

/-- The state after RESET (R47) of a machine with parameters `p` and `w` still to be performed. -/
def State.resetWith (p : Params) (w : List Opw) : State where
  tx := Ring.empty
  rx := Ring.empty
  lineEn := false
  rxie := false
  txie := false
  idleArmed := false
  hbRun := false
  idleCfg := false
  hbf := false
  idlf := false
  rxPend := false
  txRdy := false
  idlePend := false
  hbPend := false
  rxData := none
  idleCnt := 0
  hbCnt := 0
  mpc := .pollIdle
  mi := 0
  mlen := 0
  att := 0
  nlatch := 0
  msg := []
  wireTx := []
  wireRx := []
  cfg := p
  sched := w
  result := .none

/-- The machine right after reset: reference parameters (R6), every piece of state at its value of R47, no schedule yet. -/
def State.reset : State := State.resetWith Params.reference []

end Sys2Proof.Machine
end

