-- ==== Sys2Proof/Machine/Flags.lean ====
section
/-! DEFINITION. Index arithmetic (R117), views (R27), the predicates that stand where condition flags would (R30, R111), the register views of R23 and R31, and the Gray code (R67). -/

namespace Sys2Proof.Machine

open Sys2Proof.Config

/-- `(i + 1) mod C` (R117). -/
def idxInc (c i : Nat) : Nat := (i + 1) % c

/-- `(a - b) mod C`, the mathematical remainder in `[0, C-1]` (R11, R117). -/
def idxSub (c a b : Nat) : Nat := (((a : Int) - (b : Int)) % (c : Int)).toNat

/-- `view_tail(X)`: `X.tail` in `ATOMIC`, `X.tail_p` in `GRAY` (R27). -/
def Ring.viewTail (m : SyncMode) (r : Ring) : Nat :=
  match m with
  | .atomic => r.tail
  | .gray => r.tailP

/-- `view_head(X)`: `X.head` in `ATOMIC`, `X.head_c` in `GRAY` (R27). -/
def Ring.viewHead (m : SyncMode) (r : Ring) : Nat :=
  match m with
  | .atomic => r.head
  | .gray => r.headC

/-- `FULL_p(X)`, the producer's full test (R111). -/
def Ring.fullP (p : Params) (r : Ring) : Bool := idxInc p.c r.head == r.viewTail p.sync

/-- `EMPTY_c(X)`, the consumer's empty test (R111). -/
def Ring.emptyC (p : Params) (r : Ring) : Bool := r.viewHead p.sync == r.tail

/-- `occupied(X)`, the true occupancy (R24, R111). -/
def Ring.occupied (p : Params) (r : Ring) : Nat := idxSub p.c r.head r.tail

/-- The slot `X.buf[(X.tail + k) mod C]` (R24). -/
def Ring.slot (p : Params) (r : Ring) (k : Nat) : Option Byte := r.buf.read ((r.tail + k) % p.c)

/-- The not-yet-consumed slots in push order, oldest first (R24). -/
def Ring.queue (p : Params) (r : Ring) : List (Option Byte) := (List.range (r.occupied p)).map (r.slot p)

/-- The ring a ring operand selects (R12, R94). -/
def State.ring (s : State) : RingSel → Ring
  | .tx => s.tx
  | .rx => s.rx

/-- The state with one ring replaced. -/
def State.setRing (s : State) (x : RingSel) (r : Ring) : State :=
  match x with
  | .tx => { s with tx := r }
  | .rx => { s with rx := r }

/-- Boot complete: `LINE_EN = 1`, `HB_RUN = 1`, `IDLE_CFG = 1` (R177, R271). -/
def State.bootComplete (s : State) : Bool := s.lineEn && s.hbRun && s.idleCfg

/-- EV_RX may be taken (R141, R243). -/
def State.evRxEnabled (s : State) : Bool := s.lineEn && s.rxie && s.rxPend

/-- EV_TXRDY may be taken (R133, R243). -/
def State.evTxRdyEnabled (s : State) : Bool := s.lineEn && s.txie && s.txRdy

/-- EV_IDLE may be taken (R153, R243). -/
def State.evIdleEnabled (s : State) : Bool := s.idlePend

/-- EV_HB may be taken (R167, R243). -/
def State.evHbEnabled (s : State) : Bool := s.hbPend

/-- Some event handler is enabled, so TICK is not (R223, R248). -/
def State.handlerEnabled (s : State) : Bool :=
  s.evRxEnabled || s.evTxRdyEnabled || s.evIdleEnabled || s.evHbEnabled

/-- The general registers `x[0]` to `x[3]` of R23. -/
def State.x (s : State) : Fin 4 → Nat
  | 0 => s.tx.head
  | 1 => s.tx.tail
  | 2 => s.rx.head
  | 3 => s.rx.tail

/-- The number of an `MPC` position (R40). -/
def Mpc.bits : Mpc → BitVec 3
  | .pollIdle => 0
  | .repEnq => 1
  | .repRxClr => 2
  | .repFClr => 3
  | .repTxEn => 4
  | .pollHb => 5
  | .hbEnq => 6
  | .hbTxEn => 7

/-- CR0 `CTRL` as a byte, bits 7:6 read as 0 (R31). -/
def State.cr0 (s : State) : Byte :=
  0#2 ++ BitVec.ofBool s.idleCfg ++ BitVec.ofBool s.hbRun ++ BitVec.ofBool s.idleArmed ++ BitVec.ofBool s.txie ++
    BitVec.ofBool s.rxie ++ BitVec.ofBool s.lineEn

/-- CR1 `FLAGS` as a byte, bits 7:2 read as 0 (R31). -/
def State.cr1 (s : State) : Byte :=
  0#6 ++ BitVec.ofBool s.idlf ++ BitVec.ofBool s.hbf

/-- CR2 `PEND` as a byte, bits 7:4 read as 0 (R31). -/
def State.cr2 (s : State) : Byte :=
  0#4 ++ BitVec.ofBool s.hbPend ++ BitVec.ofBool s.idlePend ++ BitVec.ofBool s.txRdy ++ BitVec.ofBool s.rxPend

/-- `gray(v) = v xor (v >> 1)` (R67). No state of the model is Gray-coded. -/
def gray {w : Nat} (v : BitVec w) : BitVec w := v ^^^ (v >>> 1)

/-- The top bits first: bit `i` of the value is the sum modulo 2 of the bits `i` and above of its Gray code (R67 unrolled). -/
def ungrayFrom {w : Nat} (g : BitVec w) : Nat → BitVec w
  | 0 => g
  | n + 1 => ungrayFrom g n ^^^ (g >>> (n + 1))

/-- The inverse of `gray`: `v[W-1] = g[W-1]`, `v[i] = v[i+1] xor g[i]` (R67). -/
def ungray {w : Nat} (g : BitVec w) : BitVec w := ungrayFrom g (w - 1)

end Sys2Proof.Machine
end

