-- ==== Sys2Proof/Machine/Operands.lean ====
section
/-! DEFINITION. Operand forms: the slot an access names (R61), OCC's role (R93, R115), SYNC's mask bits (R93), and the texts the dispatch loop builds (R179, R180). -/

namespace Sys2Proof.Machine

open Sys2Proof.Config

/-- `MemRead(X, i, 1)` (R12, R61). -/
def memRead (x : RingSel) (i : Nat) (s : State) : Option Byte := (s.ring x).buf.read i

/-- The count OCC returns in a role's view (R115). -/
def Ring.countFor (p : Params) (role : Role) (r : Ring) : Nat :=
  match role with
  | .consumer => idxSub p.c (r.viewHead p.sync) r.tail
  | .producer => idxSub p.c r.head (r.viewTail p.sync)

/-- SYNC's `m[0]`: refresh `X.tail_p` (R93, R227). -/
def maskTail (m : BitVec 2) : Bool := m.getLsbD 0

/-- SYNC's `m[1]`: refresh `X.head_c` (R93, R227). -/
def maskHead (m : BitVec 2) : Bool := m.getLsbD 1

/-- The decimal digits of `n`, least significant first: `n mod 10`, then those of `n div 10`, until 0 (R180). The fuel `n` suffices. -/
def digitsRev : Nat → Nat → List Nat
  | 0, _ => []
  | fuel + 1, n => if n = 0 then [] else (n % 10) :: digitsRev fuel (n / 10)

/-- The ASCII code of a digit, `0x30 + d` (R180). -/
def digitByte (d : Nat) : Byte := BitVec.ofNat 8 (0x30 + d)

/-- `DEC(n)`: decimal, most significant digit first, no leading zeros, `DEC(0) = 30` (R180). -/
def dec (n : Nat) : List Byte :=
  if n = 0 then [0x30] else ((digitsRev n n).reverse).map digitByte

/-- `REPORT(n) = REPORT_PREFIX ++ DEC(n) ++ REPORT_SUFFIX` (R179). -/
def report (n : Nat) : List Byte := reportPrefix ++ dec n ++ reportSuffix

end Sys2Proof.Machine
end

