-- ==== Sys2Proof/Machine/Ops.lean ====
section
/-! DEFINITION. The shared operations: outcomes, guards, the ring accesses, the line and timer sub-operations (R15) and the parts of TICK. There is no exception to take and no return from one: an event handler saves nothing and is one operation (R240, R249, R251). -/

namespace Sys2Proof.Machine

open Sys2Proof.Config

/-- The outcome of an operation. -/
abbrev Out := Host.Outcome State Fault Refusal

/-- The outcome of a sub-operation: its result value and the next state (R15). -/
abbrev OutWith (α : Type) := Host.Outcome (α × State) Fault Refusal

/-- Goes on with what a sub-operation answers; a stop inside it stops the invoking operation, whose step is atomic (R15, R70). -/
def andThen {α β : Type} (o : Host.Outcome α Fault Refusal) (k : α → Host.Outcome β Fault Refusal) :
    Host.Outcome β Fault Refusal :=
  match o with
  | .next a => k a
  | .fault f => .fault f
  | .refused r => .refused r

/-- An operation whose guard is false has no step (R13 (b), R104). -/
def guarded (g : Bool) (o : Out) : Out := if g then o else .fault .notEnabled

/-- The operation ends and returns `r` (R14). -/
def finish (r : Result) (s : State) : Out := .next { s with result := r }

/-! ### Ring operations (R113 to R116) -/

/-- `MemWrite(X, i, 1, b)` on the ring's own record (R12, R61). -/
def Ring.store (r : Ring) (i : Nat) (b : Byte) : Ring := { r with buf := r.buf.write i b }

/-- `TXIE <- 1` if the ring is TX: the arming of the pump by a successful push (R113, R131). -/
def State.arm (s : State) (x : RingSel) : State :=
  match x with
  | .tx => { s with txie := true }
  | .rx => s

/-- TRYPUSH as a sub-operation (R113): `ok`, and the state after. -/
def pushOp (x : RingSel) (b : Byte) (s : State) : Bool × State :=
  let r := s.ring x
  if r.fullP s.cfg then (false, s)
  else (true, (s.setRing x { r.store r.head b with head := idxInc s.cfg.c r.head }).arm x)

/-- TRYPOP as a sub-operation (R114): `Some(b)` or `None`, and the state after; a `NONE` slot faults (R64). -/
def popOp (x : RingSel) (s : State) : OutWith (Option Byte) :=
  let r := s.ring x
  if r.emptyC s.cfg then .next (none, s)
  else
    match r.buf.read r.tail with
    | none => .fault (.unwrittenSlot x r.tail)
    | some b => .next (some b, s.setRing x { r with tail := idxInc s.cfg.c r.tail })

/-- CONSUMEALL as a sub-operation (R116). -/
def consumeOp (x : RingSel) (s : State) : State :=
  let r := s.ring x
  s.setRing x { r with tail := r.viewHead s.cfg.sync }

/-- SYNC's effect on a ring's views (R227). -/
def Ring.refresh (r : Ring) (m : BitVec 2) : Ring :=
  { r with
    tailP := if maskTail m then r.tail else r.tailP
    headC := if maskHead m then r.head else r.headC }

/-! ### Line and timer sub-operations (R154, R155, R203 to R205) -/

/-- LINEWR as a sub-operation (R204). -/
def lineWrOp (b : Byte) (s : State) : Out :=
  if s.lineEn && s.txRdy then .next { s with wireTx := s.wireTx ++ [b], txRdy := false }
  else .refused .lineNotReady

/-- LINERD as a sub-operation (R205). -/
def lineRdOp (s : State) : OutWith Byte :=
  if s.rxPend then
    match s.rxData with
    | some b => .next (b, { s with rxPend := false })
    | none => .fault .unwrittenRxData
  else .refused .noReceivedByte

/-- IDLREARM as a sub-operation (R154). -/
def idlRearmOp (s : State) : Out :=
  if s.idleCfg then
    .next { s with idleArmed := true, idleCnt := s.cfg.idleWindowTicks, idlePend := false }
  else .refused .idleTimerNotConfigured

/-- IDLDISARM as a sub-operation (R155): `IDLE_CNT` is left as it is. -/
def idlDisarmOp (s : State) : State := { s with idleArmed := false }

/-! ### Dispatch parts (R178, R181, R186) -/

/-- Loads a message for enqueueing: `MSG[0 .. MLEN-1]`, `MLEN`, `MI <- 0`, `ATT <- 0`, and the position that enqueues it. -/
def loadMessage (bs : List Byte) (pos : Mpc) (s : State) : Out :=
  if bs.length ≤ msgSlots then
    .next { s with
      msg := s.msg.writeFrom 0 bs
      mlen := bs.length
      mi := 0
      att := 0
      mpc := pos }
  else .fault .messageTooLong

/-- The position after a message's last byte, `MPC + 1` at 1 and 6 (R40, R181). -/
def Mpc.afterMessage : Mpc → Mpc
  | .repEnq => .repRxClr
  | .hbEnq => .hbTxEn
  | p => p

/-- What DSP_ENQ does with `MI` and `ATT` once the attempt's result is known (R181). -/
def countAttempt (ok : Bool) (s : State) : State :=
  if ok then { s with mi := s.mi + 1, att := 0 }
  else if s.att + 1 = s.cfg.retryCeiling then { s with mi := s.mi + 1, att := 0 }
  else { s with att := s.att + 1 }

/-- DSP_ENQ's last line: `if MI == MLEN then MPC <- MPC + 1` (R181). -/
def leaveMessage (s : State) : State :=
  if s.mi = s.mlen then { s with mpc := s.mpc.afterMessage } else s

/-! ### TICK's parts (R152, R166) -/

/-- The idle-timer part of TICK (R152). -/
def tickIdle (s : State) : State :=
  if s.idleArmed && decide (0 < s.idleCnt) then
    { s with idleCnt := s.idleCnt - 1, idlePend := if s.idleCnt - 1 = 0 then true else s.idlePend }
  else s

/-- The heartbeat-timer part of TICK (R166). `HB_CNT = 0` with the timer running is outside R34's range and stops (log 7). -/
def tickHeartbeat (s : State) : Out :=
  if s.hbRun then
    if s.hbCnt = 0 then .fault .heartbeatCountZero
    else if s.hbCnt - 1 = 0 then .next { s with hbPend := true, hbCnt := s.cfg.hbPeriodTicks }
    else .next { s with hbCnt := s.hbCnt - 1 }
  else .next s

end Sys2Proof.Machine
end

