-- ==== Sys2Proof/Machine/Environment.lean ====
section
/-! DEFINITION. The environment's transitions: ENV_RXBYTE, ENV_TXDONE, TICK, SYNC, RESET (R220 to R229). -/

namespace Sys2Proof.Machine

/-- ENV_RXBYTE `b` (R221). -/
def execEnvRxByte (b : Byte) (s : State) : Out :=
  guarded (s.lineEn && !s.rxPend) <|
    finish .none { s with rxData := some b, rxPend := true, wireRx := s.wireRx ++ [b] }

/-- ENV_TXDONE (R222). -/
def execEnvTxDone (s : State) : Out :=
  guarded (s.lineEn && !s.txRdy) <|
    finish .none { s with txRdy := true }

/-- TICK (R223): both timers see the same tick. -/
def execTick (s : State) : Out :=
  guarded (!s.handlerEnabled) <|
    andThen (tickHeartbeat (tickIdle s)) (finish .none)

/-- SYNC `X, m` (R227): `SYNC = GRAY` only; in `ATOMIC` its word is reserved (R98). -/
def execSync (x : RingSel) (m : BitVec 2) (s : State) : Out :=
  match s.cfg.sync with
  | .atomic => .refused .syncInAtomic
  | .gray =>
    if m = 0 then .refused .syncMaskZero
    else finish .none (s.setRing x ((s.ring x).refresh m))

/-- RESET (R228): every piece of state takes its reset value of R47; the parameters and the schedule are not state (R46). -/
def execReset (s : State) : Out := .next (State.resetWith s.cfg s.sched)

end Sys2Proof.Machine
end

