-- ==== Sys2Proof/Machine/Events.lean ====
section
/-! DEFINITION. The event handlers: EV_RX (R141), EV_TXRDY (R132), EV_IDLE (R153), EV_HB (R167). Nothing is saved on entry and nothing restored on return (R249, R251). -/

namespace Sys2Proof.Machine

/-- EV_RX (R141): read the byte, push it to RX, echo it to TX, rearm the idle timer; both push results are discarded (R142). -/
def execEvRx (s : State) : Out :=
  guarded s.evRxEnabled <|
    andThen (lineRdOp s) fun p =>
      andThen (idlRearmOp (pushOp .tx p.1 (pushOp .rx p.1 p.2).2).2) (finish .none)

/-- EV_TXRDY (R132): pop one byte and write it to the line, or go idle on an empty ring. -/
def execEvTxRdy (s : State) : Out :=
  guarded s.evTxRdyEnabled <|
    andThen (popOp .tx s) fun p =>
      match p.1 with
      | some b => andThen (lineWrOp b p.2) (finish .none)
      | none => finish .none { p.2 with txie := false }

/-- EV_IDLE (R153). -/
def execEvIdle (s : State) : Out :=
  guarded s.evIdleEnabled <|
    finish .none (idlDisarmOp { s with idlePend := false, idlf := true })

/-- EV_HB (R167). -/
def execEvHb (s : State) : Out :=
  guarded s.evHbEnabled <|
    finish .none { s with hbPend := false, hbf := true }

end Sys2Proof.Machine
end

