-- ==== Sys2Proof/Machine/Line.lean ====
section
/-! DEFINITION. The capability interface: LINEINIT, LINEWRDY, LINEWR, LINERD, HBTINIT, IDLTINIT (R200 to R209), IDLREARM, IDLDISARM (R154, R155). These meanings are the operations' effects; that a schedule may not list the sub-operations as steps (R99) is said where the schedule is admitted. -/

namespace Sys2Proof.Machine

/-- LINEINIT (R202): `TXIE` is not written. -/
def execLineInit (s : State) : Out :=
  guarded (!s.lineEn && s.idleCfg) <|
    finish .none { s with lineEn := true, rxie := true, txRdy := true }

/-- LINEWRDY (R203). -/
def execLineWrdy (s : State) : Out := finish (.ready s.txRdy) s

/-- LINEWR `b` (R204). -/
def execLineWr (b : Byte) (s : State) : Out := andThen (lineWrOp b s) (finish .none)

/-- LINERD (R205). -/
def execLineRd (s : State) : Out := andThen (lineRdOp s) fun p => finish (.byte p.1) p.2

/-- HBTINIT (R206). -/
def execHbtInit (s : State) : Out :=
  guarded (!s.hbRun) <|
    finish .none { s with hbRun := true, hbCnt := s.cfg.hbPeriodTicks, hbPend := false }

/-- IDLTINIT (R207): configured, not armed. -/
def execIdltInit (s : State) : Out :=
  guarded (!s.idleCfg) <|
    finish .none { s with idleCfg := true, idleArmed := false, idleCnt := 0, idlePend := false }

/-- IDLREARM (R154). -/
def execIdlRearm (s : State) : Out := andThen (idlRearmOp s) (finish .none)

/-- IDLDISARM (R155). -/
def execIdlDisarm (s : State) : Out := finish .none (idlDisarmOp s)

end Sys2Proof.Machine
end

