-- ==== Sys2Proof/Machine/Rings.lean ====
section
/-! DEFINITION. The ring operations: TRYPUSH, TRYPOP, OCC, CONSUMEALL (R110 to R122). None has a guard (R110). -/

namespace Sys2Proof.Machine

/-- TRYPUSH `X, b` (R113). -/
def execTryPush (x : RingSel) (b : Byte) (s : State) : Out :=
  finish (.ok (pushOp x b s).1) (pushOp x b s).2

/-- TRYPOP `X` (R114). -/
def execTryPop (x : RingSel) (s : State) : Out :=
  andThen (popOp x s) fun p => finish (.popped p.1) p.2

/-- OCC `X, role` (R115). -/
def execOcc (x : RingSel) (role : Role) (s : State) : Out :=
  finish (.count ((s.ring x).countFor s.cfg role)) s

/-- CONSUMEALL `X` (R116). -/
def execConsumeAll (x : RingSel) (s : State) : Out :=
  finish .none (consumeOp x s)

end Sys2Proof.Machine
end

