-- ==== Sys2Proof/Machine/Sequencer.lean ====
section
/-! DEFINITION. The dispatch operations: DSP_POLLIDLE, DSP_ENQ, DSP_RXCLR, DSP_IDLFCLR, DSP_TXEN, DSP_POLLHB (R175 to R192). -/

namespace Sys2Proof.Machine

open Sys2Proof.Config

/-- The guard of a dispatch operation: boot complete and `MPC` at one of its positions (R177). -/
def dispatchGuard (here : Bool) (s : State) : Bool := s.bootComplete && here

/-- DSP_POLLIDLE (R178). -/
def execDspPollIdle (s : State) : Out :=
  guarded (dispatchGuard (decide (s.mpc = .pollIdle)) s) <|
    if s.idlf && !(s.rx.emptyC s.cfg) then
      andThen (loadMessage (report (s.rx.countFor s.cfg .consumer)) .repEnq
        { s with nlatch := s.rx.countFor s.cfg .consumer }) (finish .none)
    else finish .none { s with mpc := .pollHb }

/-- DSP_ENQ (R181): one attempt of the bounded spin-retry. -/
def execDspEnq (s : State) : Out :=
  guarded (dispatchGuard (decide (s.mpc = .repEnq ∨ s.mpc = .hbEnq)) s) <|
    match s.msg.read s.mi with
    | none => .fault (.unwrittenMsg s.mi)
    | some b => finish .none (leaveMessage (countAttempt (pushOp .tx b s).1 (pushOp .tx b s).2))

/-- DSP_RXCLR (R183): the head used is the one at this step. -/
def execDspRxClr (s : State) : Out :=
  guarded (dispatchGuard (decide (s.mpc = .repRxClr)) s) <|
    finish .none { consumeOp .rx s with mpc := .repFClr }

/-- DSP_IDLFCLR (R184). -/
def execDspIdlfClr (s : State) : Out :=
  guarded (dispatchGuard (decide (s.mpc = .repFClr)) s) <|
    finish .none { s with idlf := false, mpc := .repTxEn }

/-- DSP_TXEN (R185). -/
def execDspTxEn (s : State) : Out :=
  guarded (dispatchGuard (decide (s.mpc = .repTxEn ∨ s.mpc = .hbTxEn)) s) <|
    finish .none { s with txie := true, mpc := if s.mpc = .repTxEn then .pollHb else .pollIdle }

/-- DSP_POLLHB (R186): the flag is cleared before the enqueue. -/
def execDspPollHb (s : State) : Out :=
  guarded (dispatchGuard (decide (s.mpc = .pollHb)) s) <|
    if s.hbf then andThen (loadMessage hbText .hbEnq { s with hbf := false }) (finish .none)
    else finish .none { s with mpc := .pollIdle }

end Sys2Proof.Machine
end

