-- ==== Sys2Proof/Machine/Dispatch.lean ====
section
/-! DEFINITION. One arm per operation of R96, in the table's order. -/

namespace Sys2Proof.Machine

def exec (i : Instr) (s : State) : Host.Outcome State Fault Refusal :=
  match i with
  | .tryPush x b => Sys2Proof.Machine.execTryPush x b s
  | .tryPop x => Sys2Proof.Machine.execTryPop x s
  | .occ x role => Sys2Proof.Machine.execOcc x role s
  | .consumeAll x => Sys2Proof.Machine.execConsumeAll x s
  | .evRx => Sys2Proof.Machine.execEvRx s
  | .evTxRdy => Sys2Proof.Machine.execEvTxRdy s
  | .evIdle => Sys2Proof.Machine.execEvIdle s
  | .evHb => Sys2Proof.Machine.execEvHb s
  | .dspPollIdle => Sys2Proof.Machine.execDspPollIdle s
  | .dspEnq => Sys2Proof.Machine.execDspEnq s
  | .dspRxClr => Sys2Proof.Machine.execDspRxClr s
  | .dspIdlfClr => Sys2Proof.Machine.execDspIdlfClr s
  | .dspTxEn => Sys2Proof.Machine.execDspTxEn s
  | .dspPollHb => Sys2Proof.Machine.execDspPollHb s
  | .lineInit => Sys2Proof.Machine.execLineInit s
  | .lineWrdy => Sys2Proof.Machine.execLineWrdy s
  | .lineWr b => Sys2Proof.Machine.execLineWr b s
  | .lineRd => Sys2Proof.Machine.execLineRd s
  | .hbtInit => Sys2Proof.Machine.execHbtInit s
  | .idltInit => Sys2Proof.Machine.execIdltInit s
  | .idlRearm => Sys2Proof.Machine.execIdlRearm s
  | .idlDisarm => Sys2Proof.Machine.execIdlDisarm s
  | .envRxByte b => Sys2Proof.Machine.execEnvRxByte b s
  | .envTxDone => Sys2Proof.Machine.execEnvTxDone s
  | .tick => Sys2Proof.Machine.execTick s
  | .sync x m => Sys2Proof.Machine.execSync x m s
  | .reset => Sys2Proof.Machine.execReset s

end Sys2Proof.Machine
end

