-- ==== Sys2Proof/Machine/Schedule.lean ====
section
/-! DEFINITION. A step of a schedule (R104): fetching its next word, the usage contract (R99), the priority rule (R247), and the pseudo-operations (R103). -/

namespace Sys2Proof.Machine

open Sys2Proof.Config

/-- The operations that exist only inside another operation (R99). -/
def isSubOperation : Instr → Bool
  | .tryPush _ _ => false
  | .tryPop _ => false
  | .occ _ _ => false
  | .consumeAll _ => false
  | .evRx => false
  | .evTxRdy => false
  | .evIdle => false
  | .evHb => false
  | .dspPollIdle => false
  | .dspEnq => false
  | .dspRxClr => false
  | .dspIdlfClr => false
  | .dspTxEn => false
  | .dspPollHb => false
  | .lineInit => false
  | .lineWrdy => true
  | .lineWr _ => true
  | .lineRd => true
  | .hbtInit => false
  | .idltInit => false
  | .idlRearm => true
  | .idlDisarm => true
  | .envRxByte _ => false
  | .envTxDone => false
  | .tick => false
  | .sync _ _ => false
  | .reset => false

/-- EV_RX and EV_IDLE both enabled and EV_RX taken: the order R247 (a) forbids. -/
def violatesPriority (i : Instr) (s : State) : Bool :=
  decide (i = .evRx) && s.evRxEnabled && s.evIdleEnabled

/-- An operation as a step of a schedule (R104): admitted by R99 and R247 (a), then performed. -/
def perform (i : Instr) (s : State) : Out :=
  if isSubOperation i then .refused .subOperation
  else if violatesPriority i s then .fault .priorityViolated
  else exec i s

/-- An operation word as a step (R97, R98). -/
def performWord (w : Opw) (s : State) : Out :=
  match decode w with
  | .error why => .refused (.reservedWord why)
  | .ok i => perform i s

/-- Takes the schedule's oldest word and performs it; the words behind it remain (R104, log 1). -/
def nextStep (s : State) : Out :=
  match s.sched with
  | [] => .refused .scheduleEnd
  | w :: rest => performWord w { s with sched := rest }

/-- The word of an operation as the schedule's next (one 16-bit word, R91). -/
def placeWord (s : State) (w : Nat) : State := { s with sched := BitVec.ofNat 16 w :: s.sched }

/-- Performs operations one after the other, stopping where one stops. -/
def performAll : List Instr → State → Out
  | [], s => .next s
  | i :: is, s => andThen (perform i s) (performAll is)

/-! ### Pseudo-operations (R103), each the operations it expands to from a given state -/

/-- `BOOT` (R103, R271). -/
def boot : List Instr := [.reset, .idltInit, .hbtInit, .lineInit]

/-- `RXBYTE b`. -/
def rxByte (b : Byte) : List Instr := [.envRxByte b, .evRx]

/-- `TXOUT`, to be used only when TX is not empty. -/
def txOut : List Instr := [.evTxRdy, .envTxDone]

/-- `DSP_STEP`: the one dispatch operation R40 enables at a position. -/
def dspStep : Mpc → Instr
  | .pollIdle => .dspPollIdle
  | .repEnq => .dspEnq
  | .repRxClr => .dspRxClr
  | .repFClr => .dspIdlfClr
  | .repTxEn => .dspTxEn
  | .pollHb => .dspPollHb
  | .hbEnq => .dspEnq
  | .hbTxEn => .dspTxEn

/-- The state an operation leads to, where it leads to one. -/
def nextOf : Out → Option State
  | .next s => some s
  | .fault _ => none
  | .refused _ => none

/-- `DSP_STEP` again while `MPC != 0`, at most `fuel` times. -/
def passRest : Nat → State → List Instr
  | 0, _ => []
  | fuel + 1, s =>
    if s.mpc = .pollIdle then []
    else
      match nextOf (perform (dspStep s.mpc) s) with
      | some t => dspStep s.mpc :: passRest fuel t
      | none => [dspStep s.mpc]

/-- The most operations of one pass (R182, R291), for messages of up to 32 bytes. -/
def passBound (p : Params) : Nat := 2 + 3 + msgSlots * p.retryCeiling + 1 + msgSlots * p.retryCeiling

/-- `PASS`: `DSP_STEP`, then `DSP_STEP` again while `MPC != 0`. -/
def pass (s : State) : List Instr :=
  dspStep s.mpc ::
    match nextOf (perform (dspStep s.mpc) s) with
    | some t => passRest (passBound s.cfg) t
    | none => []

/-- `DRAIN`: `TXOUT` for every byte TX holds, then `EV_TXRDY` once more. -/
def drain (s : State) : List Instr :=
  (List.replicate (s.tx.occupied s.cfg) txOut).flatten ++ [.evTxRdy]

/-- A handler is enabled (R243). -/
def handlerReady (i : Instr) (s : State) : Bool :=
  (decide (i = .evRx) && s.evRxEnabled && !s.evIdleEnabled) || (decide (i = .evTxRdy) && s.evTxRdyEnabled) ||
    (decide (i = .evIdle) && s.evIdleEnabled) || (decide (i = .evHb) && s.evHbEnabled)

/-- The enabled handlers, each the first enabled one in the order `prio` (R247, `PRIO`), until none is; at most `fuel`. -/
def serve (prio : List Instr) : Nat → State → List Instr
  | 0, _ => []
  | fuel + 1, s =>
    match prio.find? (handlerReady · s) with
    | none => []
    | some i =>
      match nextOf (perform i s) with
      | some t => i :: serve prio fuel t
      | none => [i]

/-- `TICKS n`: `n` times TICK and then every enabled handler in the order `prio`; after one TICK at most five handlers run (R248). -/
def ticks (prio : List Instr) : Nat → State → List Instr
  | 0, _ => []
  | n + 1, s =>
    match nextOf (perform .tick s) with
    | none => [.tick]
    | some t =>
      match nextOf (performAll (serve prio 5 t) t) with
      | none => .tick :: serve prio 5 t
      | some u => .tick :: (serve prio 5 t ++ ticks prio n u)

end Sys2Proof.Machine
end

