-- ==== Sys2Proof/Machine/Step.lean ====
section
/-! DEFINITION. One step of the machine: the schedule's next operation (R104), and placing a word where the step takes its next. -/

namespace Sys2Proof.Machine

/-- One step: the schedule's oldest word is taken and its operation performed. -/
def step (s : State) : Host.Outcome State Fault Refusal := nextStep s

/-- `s` with the operation word `w` as the next word of its schedule; every row has 16 bits (R91), so `nbits` adds nothing. -/
def State.withFetchWord (s : State) (_nbits w : Nat) : State := placeWord s w

end Sys2Proof.Machine
end

