-- ==== Sys2Proof/Machine/Assembler.lean ====
section
/-! DEFINITION. The text of a schedule (R102): reading a line, reading a text, and writing an operation as its line. -/

namespace Sys2Proof.Machine

/-- Space, tab and carriage return separate the parts of a line. -/
def isBlank (ch : Char) : Bool := ch == ' ' || ch == '\t' || ch == '\r'

/-- Drops blanks at both ends. -/
def trimBlanks (l : List Char) : List Char := ((l.dropWhile isBlank).reverse.dropWhile isBlank).reverse

/-- A semicolon starts a comment to the end of the line; one quoted as a character is an operand. -/
def stripComment : List Char → List Char
  | [] => []
  | '\'' :: ch :: '\'' :: rest => '\'' :: ch :: '\'' :: stripComment rest
  | ch :: rest => if ch = ';' then [] else ch :: stripComment rest

/-- Splits operands at commas; `cur` holds the current operand reversed. A quoted comma is an operand. -/
def splitOperands : List Char → List Char → List (List Char)
  | cur, [] => [trimBlanks cur.reverse]
  | cur, '\'' :: ch :: '\'' :: rest => splitOperands ('\'' :: ch :: '\'' :: cur) rest
  | cur, ch :: rest =>
    if ch = ',' then trimBlanks cur.reverse :: splitOperands [] rest else splitOperands (ch :: cur) rest

/-- The value of a hexadecimal digit, of either case. -/
def hexValue (ch : Char) : Option Nat :=
  if 48 ≤ ch.toNat ∧ ch.toNat ≤ 57 then some (ch.toNat - 48)
  else if 65 ≤ ch.toNat ∧ ch.toNat ≤ 70 then some (ch.toNat - 55)
  else if 97 ≤ ch.toNat ∧ ch.toNat ≤ 102 then some (ch.toNat - 87)
  else none

/-- The value of a string of decimal digits after the digits read into `acc`. -/
def decimalValue : Nat → List Char → Option Nat
  | acc, [] => some acc
  | acc, ch :: rest =>
    if 48 ≤ ch.toNat ∧ ch.toNat ≤ 57 then decimalValue (acc * 10 + (ch.toNat - 48)) rest else none

/-- A byte operand: `0x` and two hex digits, a decimal number 0 to 255, or a printable character in single quotes (R102). -/
def readByte (l : List Char) : Option Byte :=
  match l with
  | ['0', 'x', hi, lo] =>
    match hexValue hi, hexValue lo with
    | some a, some b => some (BitVec.ofNat 8 (16 * a + b))
    | _, _ => none
  | ['\'', ch, '\''] => if 32 ≤ ch.toNat ∧ ch.toNat ≤ 126 then some (BitVec.ofNat 8 ch.toNat) else none
  | [] => none
  | ch :: rest =>
    match decimalValue 0 (ch :: rest) with
    | some n => if n ≤ 255 then some (BitVec.ofNat 8 n) else none
    | none => none

/-- A ring operand: `TX` or `RX`. -/
def readRing (l : List Char) : Option RingSel :=
  if l = "TX".toList then some .tx else if l = "RX".toList then some .rx else none

/-- OCC's role: `C` or `P`. -/
def readRole (l : List Char) : Option Role :=
  if l = "C".toList then some .consumer else if l = "P".toList then some .producer else none

/-- SYNC's mask: 1, 2 or 3. -/
def readMask (l : List Char) : Option (BitVec 2) :=
  if l = "1".toList then some 1 else if l = "2".toList then some 2 else if l = "3".toList then some 3 else none

/-- The operations without operands, by mnemonic (R96). -/
def plainMnemonics : List (String × Instr) :=
  [("EV_RX", .evRx), ("EV_TXRDY", .evTxRdy), ("EV_IDLE", .evIdle), ("EV_HB", .evHb),
   ("DSP_POLLIDLE", .dspPollIdle), ("DSP_ENQ", .dspEnq), ("DSP_RXCLR", .dspRxClr),
   ("DSP_IDLFCLR", .dspIdlfClr), ("DSP_TXEN", .dspTxEn), ("DSP_POLLHB", .dspPollHb)] ++
  [("LINEINIT", .lineInit), ("LINEWRDY", .lineWrdy), ("LINERD", .lineRd), ("HBTINIT", .hbtInit),
   ("IDLTINIT", .idltInit), ("IDLREARM", .idlRearm), ("IDLDISARM", .idlDisarm),
   ("ENV_TXDONE", .envTxDone), ("TICK", .tick), ("RESET", .reset)]

/-- An operation without operands. -/
def readPlain (mn : List Char) : Option Instr :=
  (plainMnemonics.find? fun p => p.1.toList == mn).map (·.2)

/-- An operation with operands (R102). -/
def readOperation (mn : List Char) (ops : List (List Char)) : Option Instr :=
  match ops with
  | [[]] => readPlain mn
  | [a] =>
    if mn = "TRYPOP".toList then (readRing a).map .tryPop
    else if mn = "CONSUMEALL".toList then (readRing a).map .consumeAll
    else if mn = "OCC".toList then (readRing a).map (.occ · .consumer)
    else if mn = "LINEWR".toList then (readByte a).map .lineWr
    else if mn = "ENV_RXBYTE".toList then (readByte a).map .envRxByte
    else none
  | [a, b] =>
    if mn = "TRYPUSH".toList then (readRing a).bind fun x => (readByte b).map (.tryPush x)
    else if mn = "OCC".toList then (readRing a).bind fun x => (readRole b).map (.occ x)
    else if mn = "SYNC".toList then (readRing a).bind fun x => (readMask b).map (.sync x)
    else none
  | _ => none

/-- A line without its comment and outer blanks: the mnemonic, then the operands. -/
def readTrimmed (l : List Char) : Option Instr :=
  readOperation (l.takeWhile (!isBlank ·)) (splitOperands [] (l.dropWhile (!isBlank ·)))

/-- One line of a schedule text that holds an operation. -/
def readLine (l : List Char) : Option Instr := readTrimmed (trimBlanks (stripComment l))

/-- The lines of a text; `cur` holds the current line reversed. -/
def splitLines : List Char → List Char → List (List Char)
  | cur, [] => [cur.reverse]
  | cur, ch :: rest => if ch = '\n' then cur.reverse :: splitLines [] rest else splitLines (ch :: cur) rest

/-- A schedule text as operation words; lines that are blank or hold a comment alone are skipped, any other unread line refuses it. -/
def assembleLines : List (List Char) → Option (List Opw)
  | [] => some []
  | l :: ls =>
    if trimBlanks (stripComment l) = [] then assembleLines ls
    else (readLine l).bind fun i => (assembleLines ls).map (encode i :: ·)

/-- A schedule text as operation words (R102). -/
def assemble (text : String) : Option (List Opw) := assembleLines (splitLines [] text.toList)

/-- A hexadecimal digit. -/
def hexDigit (n : Nat) : Char := if n < 10 then Char.ofNat (48 + n) else Char.ofNat (55 + n)

/-- A byte as `0x` and two hex digits. -/
def writeByte (b : Byte) : List Char := ['0', 'x', hexDigit (b.toNat / 16), hexDigit (b.toNat % 16)]

/-- A ring operand. -/
def writeRing : RingSel → List Char
  | .tx => "TX".toList
  | .rx => "RX".toList

/-- OCC's role operand. -/
def writeRole : Role → List Char
  | .consumer => "C".toList
  | .producer => "P".toList

/-- SYNC's mask operand. -/
def writeMask (m : BitVec 2) : List Char := [Char.ofNat (48 + m.toNat)]

/-- The line of an operation (R102). -/
def writeLine : Instr → List Char
  | .tryPush x b => "TRYPUSH ".toList ++ writeRing x ++ ", ".toList ++ writeByte b
  | .tryPop x => "TRYPOP ".toList ++ writeRing x
  | .occ x role => "OCC ".toList ++ writeRing x ++ ", ".toList ++ writeRole role
  | .consumeAll x => "CONSUMEALL ".toList ++ writeRing x
  | .evRx => "EV_RX".toList
  | .evTxRdy => "EV_TXRDY".toList
  | .evIdle => "EV_IDLE".toList
  | .evHb => "EV_HB".toList
  | .dspPollIdle => "DSP_POLLIDLE".toList
  | .dspEnq => "DSP_ENQ".toList
  | .dspRxClr => "DSP_RXCLR".toList
  | .dspIdlfClr => "DSP_IDLFCLR".toList
  | .dspTxEn => "DSP_TXEN".toList
  | .dspPollHb => "DSP_POLLHB".toList
  | .lineInit => "LINEINIT".toList
  | .lineWrdy => "LINEWRDY".toList
  | .lineWr b => "LINEWR ".toList ++ writeByte b
  | .lineRd => "LINERD".toList
  | .hbtInit => "HBTINIT".toList
  | .idltInit => "IDLTINIT".toList
  | .idlRearm => "IDLREARM".toList
  | .idlDisarm => "IDLDISARM".toList
  | .envRxByte b => "ENV_RXBYTE ".toList ++ writeByte b
  | .envTxDone => "ENV_TXDONE".toList
  | .tick => "TICK".toList
  | .sync x m => "SYNC ".toList ++ writeRing x ++ ", ".toList ++ writeMask m
  | .reset => "RESET".toList

end Sys2Proof.Machine
end

