-- ==== Sys2Proof/Machine/Validity.lean ====
section
/-! DEFINITION. Which schedules are valid (R104): no reserved word (R98), the usage contract (R99, R273), each operation enabled where it stands (R13 (b)), and the priority rule (R247). -/

namespace Sys2Proof.Machine

open Sys2Proof.Config

/-- The operation a word stands for in a machine with this `SYNC` mode, or why it is reserved there (R97, R98). -/
def operationOf (mode : SyncMode) (w : Opw) : Except Refusal Instr :=
  match decode w with
  | .error why => .error (.reservedWord why)
  | .ok (.sync x m) =>
    match mode with
    | .atomic => .error .syncInAtomic
    | .gray => .ok (.sync x m)
  | .ok i => .ok i

/-- The operations of a schedule's words, or why the first reserved one is refused: a sequence with a reserved word is no
schedule of the block (R98). -/
def operationsOf (mode : SyncMode) : List Opw → Except Refusal (List Instr)
  | [] => .ok []
  | w :: ws =>
    match operationOf mode w with
    | .error r => .error r
    | .ok i =>
      match operationsOf mode ws with
      | .error r => .error r
      | .ok is => .ok (i :: is)

/-- The ring operation a client of a free-standing ring performs (R10). -/
def clientRing : Instr → Option RingSel
  | .tryPush x _ => some x
  | .tryPop x => some x
  | .occ x _ => some x
  | .consumeAll x => some x
  | _ => none

/-- The block's own operations that use a ring (R273). -/
def usesRing (x : RingSel) : Instr → Bool
  | .evRx => true
  | .evTxRdy => x == .tx
  | .dspEnq => x == .tx
  | .dspPollIdle => x == .rx
  | .dspRxClr => x == .rx
  | _ => false

/-- Each ring is used by clients or by the block's own agents, not by both (R99, R273; log 5). -/
def ringsUsedOneWay (is : List Instr) : Bool :=
  [RingSel.tx, RingSel.rx].all fun x =>
    !(is.any fun i => clientRing i == some x) || !(is.any fun i => usesRing x i)

/-- A schedule keeps the usage contract of R99: no sub-operation as a step of its own, and each ring used one way. -/
def keepsContract (is : List Instr) : Bool := !(is.any isSubOperation) && ringsUsedOneWay is

/-- An operation's guard, as the `Guard` line of its rule states it; `true` where that line says `none`, and for the five
sub-operations, whose rules state none. -/
def enabled : Instr → State → Bool
  | .tryPush _ _, _ => true
  | .tryPop _, _ => true
  | .occ _ _, _ => true
  | .consumeAll _, _ => true
  | .evRx, s => s.evRxEnabled
  | .evTxRdy, s => s.evTxRdyEnabled
  | .evIdle, s => s.evIdleEnabled
  | .evHb, s => s.evHbEnabled
  | .dspPollIdle, s => dispatchGuard (decide (s.mpc = .pollIdle)) s
  | .dspEnq, s => dispatchGuard (decide (s.mpc = .repEnq ∨ s.mpc = .hbEnq)) s
  | .dspRxClr, s => dispatchGuard (decide (s.mpc = .repRxClr)) s
  | .dspIdlfClr, s => dispatchGuard (decide (s.mpc = .repFClr)) s
  | .dspTxEn, s => dispatchGuard (decide (s.mpc = .repTxEn ∨ s.mpc = .hbTxEn)) s
  | .dspPollHb, s => dispatchGuard (decide (s.mpc = .pollHb)) s
  | .lineInit, s => !s.lineEn && s.idleCfg
  | .lineWrdy, _ => true
  | .lineWr _, _ => true
  | .lineRd, _ => true
  | .hbtInit, s => !s.hbRun
  | .idltInit, s => !s.idleCfg
  | .idlRearm, _ => true
  | .idlDisarm, _ => true
  | .envRxByte _, s => s.lineEn && !s.rxPend
  | .envTxDone, s => s.lineEn && !s.txRdy
  | .tick, s => !s.handlerEnabled
  | .sync _ _, _ => true
  | .reset, _ => true

/-- Each operation is enabled, and keeps the priority rule, in the state reached by those before it (R104, R247). Behind an
operation that reaches no state nothing is enabled (log 14). -/
def enabledThrough : List Instr → State → Bool
  | [], _ => true
  | i :: is, s =>
    enabled i s && !violatesPriority i s &&
      match nextOf (exec i s) with
      | some t => enabledThrough is t
      | none => is.isEmpty

/-- A schedule, words and start state, is valid (R104). -/
def validSchedule (s : State) (ws : List Opw) : Bool :=
  match operationsOf s.cfg.sync ws with
  | .error _ => false
  | .ok is => keepsContract is && enabledThrough is s

/-- Performs a whole schedule from a start state: refused at once where a word is reserved (R98) or the usage contract is broken
(R13 (c), R99, U5), else its operations one after the other. -/
def runSchedule (ws : List Opw) (s : State) : Out :=
  match operationsOf s.cfg.sync ws with
  | .error r => .refused r
  | .ok is =>
    if is.any isSubOperation then .refused .subOperation
    else if ringsUsedOneWay is then performAll is s
    else .refused .outsideContract

end Sys2Proof.Machine
end

