-- ==== Sys2Proof/Machine/Output.lean ====
section
/-! DEFINITION. Quiescent states, and the output of a schedule: `WIRE_TX` at the first quiescent state after its last word (R283, R19). -/

namespace Sys2Proof.Machine

open Sys2Proof.Config

/-- A quiescent state (R283). -/
abbrev State.quiescent (s : State) : Prop :=
  s.bootComplete = true ∧ s.rxPend = false ∧ s.idlePend = false ∧ s.hbPend = false ∧
    s.tx.occupied s.cfg = 0 ∧ s.txie = false ∧ s.txRdy = true ∧ s.hbf = false ∧
    (s.idlf = false ∨ s.rx.occupied s.cfg = 0) ∧ (s.mpc = .pollIdle ∨ s.mpc = .pollHb) ∧
    (s.cfg.sync = .gray → s.tx.tailP = s.tx.tail ∧ s.tx.headC = s.tx.head ∧ s.rx.tailP = s.rx.tail ∧ s.rx.headC = s.rx.head)

/-- What may be added behind a schedule to reach its output (R283): `PASS`, `DRAIN` and handler steps, and the two steps of ENV
that bring neither a byte nor a tick (log 18). -/
inductive ClosingStep where
  /-- `PASS` (R103). -/
  | pass
  /-- `DRAIN` (R103). -/
  | drain
  /-- EV_RX. -/
  | evRx
  /-- EV_TXRDY. -/
  | evTxRdy
  /-- EV_IDLE. -/
  | evIdle
  /-- EV_HB. -/
  | evHb
  /-- ENV_TXDONE, which R283 has ENV supply after each LINEWR. -/
  | txDone
  /-- SYNC of both views of a ring, in `SYNC = GRAY` (DEDUCED, log 18). -/
  | sync (x : RingSel)
  deriving DecidableEq, Repr

/-- The operations of a closing step, from the state it is taken in. -/
def ClosingStep.operations : ClosingStep → State → List Instr
  | .pass, s => Sys2Proof.Machine.pass s
  | .drain, s => Sys2Proof.Machine.drain s
  | .evRx, _ => [.evRx]
  | .evTxRdy, _ => [.evTxRdy]
  | .evIdle, _ => [.evIdle]
  | .evHb, _ => [.evHb]
  | .txDone, _ => [.envTxDone]
  | .sync x, _ => [.sync x 3]

/-- Performs operations one after the other, up to the first quiescent state. -/
def runToQuiescent : List Instr → State → Out
  | [], s => .next s
  | i :: is, s => if s.quiescent then .next s else andThen (perform i s) (runToQuiescent is)

/-- The first quiescent state that a list of closing steps reaches, the state it starts from included. DESIGN CHOICE: the steps are
not held to the usage contract (R99, R273), so DRAIN may run EV_TXRDY on a ring that clients used (log 18). -/
def closeBy : List ClosingStep → State → Option State
  | [], s => if s.quiescent then some s else none
  | u :: us, s =>
    if s.quiescent then some s
    else (nextOf (runToQuiescent (u.operations s) s)).bind (closeBy us)

/-- `out` is an output of the schedule `ws` from `s`: `WIRE_TX` at the first quiescent state after its last word (R283). The rule
fixes no order of the steps added, so a schedule may have more than one output (log 18). DESIGN CHOICE: the usage contract (R99,
R273) is asked of the schedule's words alone and not of the steps added behind them, of which R283 says nothing (log 18). -/
def IsOutput (s : State) (ws : List Opw) (out : List Byte) : Prop :=
  ∃ t us u, runSchedule ws s = .next t ∧ closeBy us t = some u ∧ out = u.wireTx

/-- Where a closing step has something to do. -/
def ClosingStep.due : ClosingStep → State → Bool
  | .pass, s => s.bootComplete
  | .drain, s => s.evTxRdyEnabled
  | .evRx, s => s.evRxEnabled && !s.evIdleEnabled
  | .evTxRdy, s => s.evTxRdyEnabled
  | .evIdle, s => s.evIdleEnabled
  | .evHb, s => s.evHbEnabled
  | .txDone, s => s.lineEn && !s.txRdy
  | .sync x, s =>
    decide (s.cfg.sync = .gray) &&
      !(decide ((s.ring x).tailP = (s.ring x).tail) && decide ((s.ring x).headC = (s.ring x).head))

/-- Handlers before the pump, the pump before the dispatch loop (DESIGN CHOICE, log 18). -/
def closingOrder : List ClosingStep := [.evIdle, .evRx, .evHb, .txDone, .sync .tx, .sync .rx, .drain, .pass]

/-- Closing steps taken by an order: again and again the first that is due, until the state is quiescent; at most `fuel`. -/
def closingSteps (order : List ClosingStep) : Nat → State → List ClosingStep
  | 0, _ => []
  | fuel + 1, s =>
    if s.quiescent then []
    else
      match order.find? (·.due s) with
      | none => []
      | some u =>
        match nextOf (runToQuiescent (u.operations s) s) with
        | some t => u :: closingSteps order fuel t
        | none => [u]

/-- More closing steps than `closingOrder` takes where it reaches a quiescent state (DEDUCED, log 18). -/
def closingFuel : Nat := 32

/-- The output of a schedule by a given order of closing steps; `none` where the schedule or its closing does not run through. -/
def outputBy (order : List ClosingStep) (s : State) (ws : List Opw) : Option (List Byte) :=
  match nextOf (runSchedule ws s) with
  | some t => (closeBy (closingSteps order closingFuel t) t).map (·.wireTx)
  | none => none

/-- The output of a schedule (R283), its closing steps in `closingOrder`. -/
def output (s : State) (ws : List Opw) : Option (List Byte) := outputBy closingOrder s ws

end Sys2Proof.Machine
end

