-- ==== Sys2Proof/Safety.lean ====
section
/-! DEFINITION. What claims speak of: the machine's invariant (R24, R27, R33, R34, R41, R118, R151), the pump invariant (R135), and reserved words (R98). -/

namespace Sys2Proof.Machine

open Sys2Proof.Config

/-- A ring's indices, storage and views are in range, its views are in cyclic order (R27), and its occupied slots are written (R24, R118). -/
abbrev Ring.ok (p : Params) (r : Ring) : Prop :=
  r.head < p.c ∧ r.tail < p.c ∧ r.tailP < p.c ∧ r.headC < p.c ∧ r.buf.wf ∧ r.buf.below p.c ∧
    (p.sync = .gray →
      idxSub p.c r.tail r.tailP ≤ idxSub p.c r.head r.tailP ∧ idxSub p.c r.headC r.tail ≤ idxSub p.c r.head r.tail) ∧
    ∀ k < r.occupied p, (r.slot p k).isSome = true

/-- The idle timer is disarmed, counting or expired (the table of R151), is armed only when configured, and its count is in range (R33). -/
abbrev State.idleOk (s : State) : Prop :=
  s.idleCnt ≤ s.cfg.idleWindowTicks ∧
    (s.idleArmed = false → s.idlePend = false) ∧
    (s.idleArmed = true → s.idleCfg = true) ∧
    (s.idleArmed = true → s.idlePend = false → 1 ≤ s.idleCnt) ∧
    (s.idleArmed = true → s.idlePend = true → s.idleCnt = 0)

/-- The heartbeat counter is in `[1, HB_PERIOD_TICKS]` while the timer runs (R34), and only a running timer has a pending period. -/
abbrev State.hbOk (s : State) : Prop :=
  (s.hbRun = true → 1 ≤ s.hbCnt ∧ s.hbCnt ≤ s.cfg.hbPeriodTicks) ∧ (s.hbPend = true → s.hbRun = true)

/-- `LINE_EN` and `RXIE` are set together, after IDLTINIT (R221, R271); a pending byte is there to read (R36); only an enabled line is ready. -/
abbrev State.lineOk (s : State) : Prop :=
  s.rxie = s.lineEn ∧ (s.lineEn = true → s.idleCfg = true) ∧ (s.rxPend = true → s.lineEn = true) ∧
    (s.rxPend = true → s.rxData.isSome = true) ∧ (s.txRdy = true → s.lineEn = true)

/-- The sequencer's locals are in range, and the bytes of the message are written (R41, R181, U6). -/
abbrev State.seqOk (s : State) : Prop :=
  s.msg.wf ∧ s.msg.below msgSlots ∧ s.mi ≤ s.mlen ∧ s.mlen ≤ msgSlots ∧ s.att < s.cfg.retryCeiling ∧ s.nlatch < s.cfg.c ∧
    (s.mpc = .repEnq ∨ s.mpc = .hbEnq → s.mi < s.mlen) ∧
    (s.mpc ≠ .pollIdle → s.bootComplete = true) ∧
    ∀ k < s.mlen, (s.msg.read k).isSome = true

/-- The invariant of the machine. -/
abbrev State.Inv (s : State) : Prop :=
  s.cfg.ok ∧ s.tx.ok s.cfg ∧ s.rx.ok s.cfg ∧ s.idleOk ∧ s.hbOk ∧ s.lineOk ∧ s.seqOk

/-- The pump invariant: in `SYNC = ATOMIC`, bytes queued in TX mean a draining pump (R135). -/
abbrev State.pumpOk (s : State) : Prop :=
  s.cfg.sync = .atomic → 0 < s.tx.occupied s.cfg → s.txie = true

/-- The bytes a ring holds, in push order (R118). -/
def Ring.bytes (p : Params) (r : Ring) : List Byte := (r.queue p).reduceOption

/-- The reserved words of R98 as it lists them, by field values of the word read as a number. -/
abbrev reservedBy (mode : SyncMode) (w : Opw) : Prop :=
  let cls := w.toNat / 4096
  let x := w.toNat / 2048 % 2
  let fn := w.toNat / 256 % 8
  let imm := w.toNat % 256
  5 ≤ cls ∨
  (cls = 0 ∧ 4 ≤ fn) ∨ (cls = 1 ∧ 4 ≤ fn) ∨ (cls = 2 ∧ 6 ≤ fn) ∨ (cls = 4 ∧ 5 ≤ fn) ∨
  (x = 1 ∧ (cls = 1 ∨ cls = 2 ∨ cls = 3 ∨ (cls = 4 ∧ fn ≠ 3))) ∨
  (imm ≠ 0 ∧ ((cls = 0 ∧ (fn = 1 ∨ fn = 3)) ∨ cls = 1 ∨ cls = 2 ∨ (cls = 3 ∧ fn ≠ 2) ∨
    (cls = 4 ∧ (fn = 1 ∨ fn = 2 ∨ fn = 4)))) ∨
  (2 ≤ imm ∧ cls = 0 ∧ fn = 2) ∨ (4 ≤ imm ∧ cls = 4 ∧ fn = 3) ∨
  (imm % 4 = 0 ∧ cls = 4 ∧ fn = 3) ∨
  (mode = .atomic ∧ cls = 4 ∧ fn = 3)

/-- The words of LINEWRDY, LINEWR, LINERD, IDLREARM and IDLDISARM (R96), the sub-operations of R99. -/
abbrev subOperationWord (w : Opw) : Prop :=
  w = 0x3100 ∨ (0x3200 ≤ w.toNat ∧ w.toNat ≤ 0x32FF) ∨ w = 0x3300 ∨ w = 0x3600 ∨ w = 0x3700

/-- The operations that can store a byte into a slot of `TX.buf`, `RX.buf` or `MSG` (R60); RESET empties all three (R47). -/
def storesSlots : Instr → Bool
  | .tryPush _ _ => true
  | .evRx => true
  | .dspEnq => true
  | .dspPollIdle => true
  | .dspPollHb => true
  | .reset => true
  | _ => false

/-- The four event handlers (R243). -/
def isHandler : Instr → Bool
  | .evRx => true
  | .evTxRdy => true
  | .evIdle => true
  | .evHb => true
  | _ => false

/-- The six dispatch operations (R176). -/
def isDispatch : Instr → Bool
  | .dspPollIdle => true
  | .dspEnq => true
  | .dspRxClr => true
  | .dspIdlfClr => true
  | .dspTxEn => true
  | .dspPollHb => true
  | _ => false

/-- A state with its sequencer position and locals replaced (R40, R41). -/
def State.withSequencer (s q : State) : State :=
  { s with mpc := q.mpc, mi := q.mi, mlen := q.mlen, att := q.att, nlatch := q.nlatch, msg := q.msg }

/-- An outcome with the sequencer position and locals of its next state replaced. -/
def outWithSequencer (q : State) : Out → Out
  | .next t => .next (t.withSequencer q)
  | .fault f => .fault f
  | .refused r => .refused r

/-- The number a text of decimal digit bytes stands for, most significant first (R180). -/
def decimalOf (bs : List Byte) : Nat := bs.foldl (fun acc b => 10 * acc + (b.toNat - 0x30)) 0

/-- The byte an operation pushes to TX where its push succeeds: TRYPUSH's operand, the received byte (R141), the message's
current byte (R181). -/
def byteForTx (s : State) : Instr → Option Byte
  | .tryPush .tx b => some b
  | .evRx => s.rxData
  | .dspEnq => s.msg.read s.mi
  | _ => none

end Sys2Proof.Machine
end

