-- ==== Sys2Proof/Certificates/Slice0/Obligations.lean ====
section
/-! DEFINITION. The statements for the provers. A text `exec i s = .next t` with `t` written out as `s` with some fields replaced
says the result, the frame and the completion at once: every field not named is unchanged. The field `result` is where the model
keeps the result value of R14 (log 2); a rule that returns nothing leaves `.none` there. -/

open Sys2Proof Sys2Proof.Machine Sys2Proof.Config

/-! ### Encoding and the step -/

/-- Decoding the word of a well-formed operation gives it back (R92, R93, R96, R97). -/
def Obligations.DecodeOfEncodeIsTheOperation : Prop :=
  ∀ i : Instr, i.wf = true → decode (encode i) = .ok i

/-- A word that decodes is the word of its operation, which is well formed: no two words share an operation (R97). -/
def Obligations.DecodedWordIsTheOperationsWord : Prop :=
  ∀ (w : Opw) (i : Instr), decode w = .ok i → encode i = w ∧ i.wf = true

/-- Words written out from R96 and the V-DEC table decode to the operations they stand for. -/
def Obligations.TableWordsDecode : Prop :=
  decode 0x0041 = .ok (.tryPush .tx 0x41) ∧ decode 0x0841 = .ok (.tryPush .rx 0x41) ∧
  decode 0x0900 = .ok (.tryPop .rx) ∧ decode 0x0A00 = .ok (.occ .rx .consumer) ∧
  decode 0x0A01 = .ok (.occ .rx .producer) ∧ decode 0x0B00 = .ok (.consumeAll .rx) ∧
  decode 0x1200 = .ok .evIdle ∧ decode 0x2500 = .ok .dspPollHb ∧ decode 0x3241 = .ok (.lineWr 0x41) ∧
  decode 0x40FF = .ok (.envRxByte 0xFF) ∧ decode 0x4B03 = .ok (.sync .rx 3) ∧ decode 0x4400 = .ok .reset

/-- R98: a schedule's reserved word is refused, every word that is not reserved decodes to an operation, and words that hold a
reserved one are no schedule of the block. -/
def Obligations.ReservedWordsAreRefused : Prop :=
  (∀ (s : State) (w : Opw) (rest : List Opw), s.sched = w :: rest → reservedBy s.cfg.sync w → ∃ r, step s = .refused r) ∧
  (∀ (mode : SyncMode) (w : Opw), ¬ reservedBy mode w → ∃ i, decode w = .ok i) ∧
  (∀ (s : State) (ws : List Opw), (∃ w ∈ ws, reservedBy s.cfg.sync w) →
    validSchedule s ws = false ∧ ∃ r, runSchedule ws s = .refused r)

/-- R97: the operation a word decodes to is of the one row the word selects. -/
def Obligations.DecodingPicksTheOneRow : Prop :=
  ∀ (w : Opw) (i : Instr), decode w = .ok i →
    selectsRow w i = true ∧ ∀ j, selectsRow w j = true → rowMatch j = rowMatch i ∧ rowMask j = rowMask i

/-- A step takes the schedule's oldest word, and performs its operation on the state with the word taken (R104; the schedule in
the state is the model's choice, log 1). -/
def Obligations.StepPerformsTheNextOperation : Prop :=
  ∀ (s : State) (w : Opw) (rest : List Opw) (i : Instr), s.sched = w :: rest → decode w = .ok i →
    isSubOperation i = false → violatesPriority i s = false → step s = exec i { s with sched := rest }

/-- The usage contract (R99, U3): LINEWRDY, LINEWR, LINERD, IDLREARM and IDLDISARM are refused as steps of a schedule, and a
schedule is not valid, and refused as a whole, that lists one of them or has a client's operation and an operation of the block's
own agents on one ring (R273; that the contract is read ring by ring is log 5). -/
def Obligations.SubOperationsAreRefusedAsSteps : Prop :=
  (∀ (s : State) (w : Opw) (rest : List Opw), s.sched = w :: rest → subOperationWord w → step s = .refused .subOperation) ∧
  (∀ (s : State) (ws : List Opw), (∃ w ∈ ws, subOperationWord w) →
    validSchedule s ws = false ∧ ∃ r, runSchedule ws s = .refused r) ∧
  (∀ (s : State) (ws : List Opw) (x : RingSel) (v w : Opw) (i j : Instr), v ∈ ws → w ∈ ws → decode v = .ok i →
    decode w = .ok j → clientRing i = some x → usesRing x j = true →
    validSchedule s ws = false ∧ ∃ r, runSchedule ws s = .refused r)

/-- The tie-break (R158, R247 (a)): with EV_IDLE and EV_RX both enabled, EV_RX has no step, and EV_IDLE then EV_RX leave the
flag set, the byte in the receive ring and the timer counting a full window. -/
def Obligations.IdleTimeoutIsTakenBeforeReceive : Prop :=
  ∀ (s : State) (b : Byte) (rest : List Opw), s.lineEn = true → s.rxie = true → s.rxPend = true → s.rxData = some b →
    s.idleCfg = true → s.idlePend = true → (s.rx.head + 1) % s.cfg.c ≠ s.rx.viewTail s.cfg.sync →
    (s.sched = 0x1000 :: rest → step s = .fault .priorityViolated) ∧
    (s.sched = 0x1200 :: 0x1000 :: rest → ∃ t, core.run 2 s = .next t ∧ t.idlf = true ∧ t.idleArmed = true ∧
      t.idleCnt = s.cfg.idleWindowTicks ∧ t.idlePend = false ∧ t.rxPend = false ∧ t.rx.buf.read s.rx.head = some b ∧
      t.rx.head = (s.rx.head + 1) % s.cfg.c ∧ t.sched = rest)

/-! ### Reset and boot -/

/-- R228: RESET gives every piece of state its reset value of R47. -/
def Obligations.ResetGivesTheResetValues : Prop :=
  ∀ s : State, ∃ t, exec .reset s = .next t ∧
    t.tx.head = 0 ∧ t.tx.tail = 0 ∧ t.rx.head = 0 ∧ t.rx.tail = 0 ∧
    (∀ x i, memRead x i t = none) ∧
    t.tx.tailP = 0 ∧ t.tx.headC = 0 ∧ t.rx.tailP = 0 ∧ t.rx.headC = 0 ∧
    t.hbf = false ∧ t.idlf = false ∧ t.txie = false ∧ t.rxie = false ∧ t.lineEn = false ∧ t.hbRun = false ∧
    t.idleCfg = false ∧ t.idleArmed = false ∧ t.idleCnt = 0 ∧ t.hbCnt = 0 ∧
    t.rxPend = false ∧ t.txRdy = false ∧ t.idlePend = false ∧ t.hbPend = false ∧ t.rxData = none ∧
    t.mpc = .pollIdle ∧ t.mi = 0 ∧ t.mlen = 0 ∧ t.att = 0 ∧ t.nlatch = 0 ∧ (∀ i, t.msg.read i = none) ∧
    t.wireTx = [] ∧ t.wireRx = []

/-- After RESET, of the operations of the block's own agents only IDLTINIT and HBTINIT are enabled (R47, R270, R271). -/
def Obligations.OnlyTimerInitsAreEnabledAfterReset : Prop :=
  ∀ (p : Params) (w : List Opw) (i : Instr),
    (isHandler i = true ∨ isDispatch i = true ∨ i = .lineInit → exec i (State.resetWith p w) = .fault .notEnabled) ∧
    (i = .idltInit ∨ i = .hbtInit → ∃ t, exec i (State.resetWith p w) = .next t)

/-- R272: the state after the canonical boot, and what is and is not enabled in it. -/
def Obligations.BootReachesTheStartState : Prop :=
  ∀ s : State, s.cfg.ok →
    ∃ t, performAll [.reset, .idltInit, .hbtInit, .lineInit] s = .next t ∧
      t = { State.resetWith s.cfg s.sched with
        idleCfg := true, hbRun := true, hbCnt := s.cfg.hbPeriodTicks, lineEn := true, rxie := true, txRdy := true } ∧
      (∀ i, i = .dspPollIdle ∨ i = .tick ∨ i = .reset ∨ (∃ b, i = .envRxByte b) → ∃ u, exec i t = .next u) ∧
      (∀ i, isHandler i = true ∨ i = .envTxDone → exec i t = .fault .notEnabled)

/-- The three valid boot orders of R271 reach one state, and LINEINIT before IDLTINIT, or any init operation twice, has no step. -/
def Obligations.BootOrdersAgree : Prop :=
  ∀ s : State,
    performAll [.reset, .hbtInit, .idltInit, .lineInit] s = performAll [.reset, .idltInit, .hbtInit, .lineInit] s ∧
    performAll [.reset, .idltInit, .lineInit, .hbtInit] s = performAll [.reset, .idltInit, .hbtInit, .lineInit] s ∧
    performAll [.reset, .lineInit] s = .fault .notEnabled ∧ performAll [.reset, .hbtInit, .lineInit] s = .fault .notEnabled ∧
    ∀ i t u, i = .idltInit ∨ i = .hbtInit ∨ i = .lineInit → exec i s = .next t → exec i t ≠ .next u

/-! ### The ring operations -/

/-- R113, both outcomes of TRYPUSH on each ring. -/
def Obligations.TryPushStoresAtTheHeadOrFails : Prop :=
  ∀ (s : State) (b : Byte),
    (∀ x, ((s.ring x).head + 1) % s.cfg.c = (s.ring x).viewTail s.cfg.sync →
      exec (.tryPush x b) s = .next { s with result := .ok false }) ∧
    ((s.tx.head + 1) % s.cfg.c ≠ s.tx.viewTail s.cfg.sync →
      exec (.tryPush .tx b) s = .next { s with
        tx := { s.tx with buf := s.tx.buf.write s.tx.head b, head := (s.tx.head + 1) % s.cfg.c }
        txie := true
        result := .ok true }) ∧
    ((s.rx.head + 1) % s.cfg.c ≠ s.rx.viewTail s.cfg.sync →
      exec (.tryPush .rx b) s = .next { s with
        rx := { s.rx with buf := s.rx.buf.write s.rx.head b, head := (s.rx.head + 1) % s.cfg.c }
        result := .ok true })

/-- R114, TRYPOP: nothing on an empty ring, the byte at the tail otherwise, and the fault of R64 on an unwritten slot. -/
def Obligations.TryPopTakesTheByteAtTheTail : Prop :=
  ∀ (s : State) (x : RingSel),
    ((s.ring x).viewHead s.cfg.sync = (s.ring x).tail → exec (.tryPop x) s = .next { s with result := .popped none }) ∧
    ((s.ring x).viewHead s.cfg.sync ≠ (s.ring x).tail →
      (∀ b, memRead x (s.ring x).tail s = some b →
        exec (.tryPop x) s = .next
          { s.setRing x { s.ring x with tail := ((s.ring x).tail + 1) % s.cfg.c } with result := .popped (some b) }) ∧
      (memRead x (s.ring x).tail s = none → exec (.tryPop x) s = .fault (.unwrittenSlot x (s.ring x).tail)))

/-- R115, OCC in each role's view, and how its counts lie around the true occupancy. -/
def Obligations.OccCountsInTheRolesView : Prop :=
  ∀ (s : State) (x : RingSel),
    exec (.occ x .consumer) s = .next { s with
      result := .count ((((s.ring x).viewHead s.cfg.sync : Int) - ((s.ring x).tail : Int)) % (s.cfg.c : Int)).toNat } ∧
    exec (.occ x .producer) s = .next { s with
      result := .count ((((s.ring x).head : Int) - ((s.ring x).viewTail s.cfg.sync : Int)) % (s.cfg.c : Int)).toNat } ∧
    (s.cfg.sync = .atomic → ∀ role, (s.ring x).countFor s.cfg role = (s.ring x).occupied s.cfg) ∧
    (s.cfg.ok → (s.ring x).ok s.cfg →
      (s.ring x).countFor s.cfg .consumer ≤ (s.ring x).occupied s.cfg ∧
      (s.ring x).occupied s.cfg ≤ (s.ring x).countFor s.cfg .producer ∧
      (s.ring x).countFor s.cfg .producer ≤ s.cfg.c - 1)

/-- CONSUMEALL writes the tail with the head as its consumer sees it now, and keeps the slots' bytes (R116). -/
def Obligations.ConsumeAllEmptiesTheRing : Prop :=
  ∀ (s : State) (x : RingSel), ∃ t, exec (.consumeAll x) s = .next t ∧
    t = { s.setRing x { s.ring x with tail := (s.ring x).viewHead s.cfg.sync } with result := .none } ∧
    (t.ring x).emptyC t.cfg = true ∧ (s.cfg.sync = .atomic → (t.ring x).occupied t.cfg = 0) ∧
    ∀ y a, memRead y a t = memRead y a s

/-- CONSUMEALL does in one step what as many TRYPOPs as the consumer counts do, their results discarded (R116). -/
def Obligations.ConsumeAllEqualsRepeatedPops : Prop :=
  ∀ (s : State) (x : RingSel), s.cfg.ok → (s.ring x).ok s.cfg →
    ∃ t r, exec (.consumeAll x) s = .next t ∧
      performAll (List.replicate ((s.ring x).countFor s.cfg .consumer) (.tryPop x)) s = .next { t with result := r }

/-- R111: full and empty as the roles see them, against the true occupancy. -/
def Obligations.FullAndEmptyAgainstOccupancy : Prop :=
  (∀ (p : Params) (r : Ring), p.ok → r.ok p →
    (p.sync = .atomic → (r.fullP p = true ↔ r.occupied p = p.c - 1) ∧ (r.emptyC p = true ↔ r.occupied p = 0)) ∧
    (p.sync = .gray → (r.occupied p = p.c - 1 → r.fullP p = true) ∧ (r.occupied p = 0 → r.emptyC p = true))) ∧
  (∃ (p : Params) (r : Ring), p.ok ∧ r.ok p ∧ p.sync = .gray ∧ r.fullP p = true ∧ r.occupied p < p.c - 1) ∧
  (∃ (p : Params) (r : Ring), p.ok ∧ r.ok p ∧ p.sync = .gray ∧ r.emptyC p = true ∧ 0 < r.occupied p)

/-- A ring is a FIFO queue: a push that succeeds appends its byte, a pop that succeeds takes the oldest, and neither touches
what else is stored (R24, R118). -/
def Obligations.RingIsAFifoQueue : Prop :=
  ∀ (s : State) (x : RingSel) (b : Byte), s.cfg.ok → (s.ring x).ok s.cfg →
    (∃ t, exec (.tryPush x b) s = .next t ∧
      ((t.result = .ok true ∧ (t.ring x).bytes t.cfg = (s.ring x).bytes s.cfg ++ [b]) ∨
       (t.result = .ok false ∧ (t.ring x).bytes t.cfg = (s.ring x).bytes s.cfg))) ∧
    (∃ t, exec (.tryPop x) s = .next t ∧
      ((∃ c, t.result = .popped (some c) ∧ (s.ring x).bytes s.cfg = c :: (t.ring x).bytes t.cfg) ∨
       (t.result = .popped none ∧ (t.ring x).bytes t.cfg = (s.ring x).bytes s.cfg))) ∧
    ((s.ring x).bytes s.cfg).length = (s.ring x).occupied s.cfg

/-- The round trip of R120: from a ring that is full in `ATOMIC`, a push fails, a pop takes the oldest byte, and a push then
fills it again with its byte last. -/
def Obligations.FullRingRoundTrip : Prop :=
  ∀ (s : State) (x : RingSel) (b d : Byte), s.cfg.ok → (s.ring x).ok s.cfg → s.cfg.sync = .atomic →
    (s.ring x).occupied s.cfg = s.cfg.c - 1 →
    exec (.tryPush x b) s = .next { s with result := .ok false } ∧
    ∃ t u c, exec (.tryPop x) s = .next t ∧ t.result = .popped (some c) ∧ (t.ring x).occupied t.cfg = s.cfg.c - 2 ∧
      exec (.tryPush x d) t = .next u ∧ u.result = .ok true ∧ (u.ring x).occupied u.cfg = s.cfg.c - 1 ∧
      c :: (u.ring x).bytes u.cfg = (s.ring x).bytes s.cfg ++ [d]

/-! ### Frames -/

/-- The frame of the storing operations: every slot outside the stored ones reads as before. The stored slots are the head of
the ring pushed to (R61, R113), for a report the first `MLEN` slots of `MSG`, for the heartbeat text the first 26 (R178, R186). -/
def Obligations.StoringOperationsKeepOtherSlots : Prop :=
  ∀ s t : State,
    (∀ x b, exec (.tryPush x b) s = .next t →
      (∀ y a, ¬ (y = x ∧ a = (s.ring x).head) → memRead y a t = memRead y a s) ∧ (∀ a, t.msg.read a = s.msg.read a)) ∧
    (exec .evRx s = .next t →
      (∀ y a, a ≠ (s.ring y).head → memRead y a t = memRead y a s) ∧ (∀ a, t.msg.read a = s.msg.read a)) ∧
    (exec .dspEnq s = .next t →
      (∀ y a, ¬ (y = .tx ∧ a = s.tx.head) → memRead y a t = memRead y a s) ∧ (∀ a, t.msg.read a = s.msg.read a)) ∧
    (exec .dspPollIdle s = .next t →
      (∀ y a, memRead y a t = memRead y a s) ∧
      (∀ a, (report (s.rx.countFor s.cfg .consumer)).length ≤ a → t.msg.read a = s.msg.read a)) ∧
    (exec .dspPollHb s = .next t →
      (∀ y a, memRead y a t = memRead y a s) ∧ (∀ a, 26 ≤ a → t.msg.read a = s.msg.read a))

/-- The frame of every operation but TRYPUSH, EV_RX, DSP_ENQ, the two polls and RESET: every slot reads as before. -/
def Obligations.OtherOperationsStoreNothing : Prop :=
  ∀ (i : Instr) (s t : State), storesSlots i = false → exec i s = .next t →
    (∀ x a, memRead x a t = memRead x a s) ∧ ∀ a, t.msg.read a = s.msg.read a

/-- Who may write an index register (R23, R25; CONSUMEALL TX and RESET besides the table's entries, R116, R228). -/
def Obligations.OnlyNamedOperationsMoveAnIndex : Prop :=
  ∀ (i : Instr) (s t : State), exec i s = .next t → i ≠ .reset →
    (t.x 0 ≠ s.x 0 → (∃ b, i = .tryPush .tx b) ∨ i = .evRx ∨ i = .dspEnq) ∧
    (t.x 1 ≠ s.x 1 → i = .tryPop .tx ∨ i = .consumeAll .tx ∨ i = .evTxRdy) ∧
    (t.x 2 ≠ s.x 2 → (∃ b, i = .tryPush .rx b) ∨ i = .evRx) ∧
    (t.x 3 ≠ s.x 3 → i = .tryPop .rx ∨ i = .consumeAll .rx ∨ i = .dspRxClr)

/-- Who may change a flag (R28, R29, R30): HBF is set by EV_HB and cleared by DSP_POLLHB, IDLF set by EV_IDLE and cleared by
DSP_IDLFCLR, and RESET clears both. -/
def Obligations.OnlyNamedOperationsChangeAFlag : Prop :=
  ∀ (i : Instr) (s t : State), exec i s = .next t →
    (s.hbf = false → t.hbf = true → i = .evHb) ∧ (s.hbf = true → t.hbf = false → i = .dspPollHb ∨ i = .reset) ∧
    (s.idlf = false → t.idlf = true → i = .evIdle) ∧ (s.idlf = true → t.idlf = false → i = .dspIdlfClr ∨ i = .reset)

/-- R249: no handler reads or writes MPC or the sequencer's locals: on a state with other values of them it does the same, and
leaves those values. -/
def Obligations.HandlersDoNotSeeTheSequencer : Prop :=
  ∀ (i : Instr) (s q : State), isHandler i = true → exec i (s.withSequencer q) = outWithSequencer q (exec i s)

/-- R192: what a dispatch operation leaves alone. -/
def Obligations.DispatchOperationsFrame : Prop :=
  ∀ (i : Instr) (s t : State), isDispatch i = true → exec i s = .next t →
    t.tx.tail = s.tx.tail ∧ t.tx.tailP = s.tx.tailP ∧ t.tx.headC = s.tx.headC ∧
    t.rx.head = s.rx.head ∧ t.rx.buf = s.rx.buf ∧ t.rx.tailP = s.rx.tailP ∧ t.rx.headC = s.rx.headC ∧
    t.lineEn = s.lineEn ∧ t.rxie = s.rxie ∧ t.rxPend = s.rxPend ∧ t.txRdy = s.txRdy ∧ t.rxData = s.rxData ∧
    t.wireTx = s.wireTx ∧ t.wireRx = s.wireRx ∧
    t.idleArmed = s.idleArmed ∧ t.idleCnt = s.idleCnt ∧ t.idlePend = s.idlePend ∧ t.idleCfg = s.idleCfg ∧
    t.hbRun = s.hbRun ∧ t.hbCnt = s.hbCnt ∧ t.hbPend = s.hbPend ∧
    (s.txie = true → t.txie = true) ∧ (s.idlf = false → t.idlf = false) ∧ (s.hbf = false → t.hbf = false)

/-! ### The event handlers -/

/-- R141: EV_RX reads the byte, pushes it to RX, echoes it to TX and rearms, whatever the two pushes answered. -/
def Obligations.EvRxStoresEchoesAndRearms : Prop :=
  ∀ (s : State),
    (¬ (s.lineEn = true ∧ s.rxie = true ∧ s.rxPend = true) → exec .evRx s = .fault .notEnabled) ∧
    ∀ b, s.lineEn = true → s.rxie = true → s.rxPend = true → s.rxData = some b → s.idleCfg = true →
      exec .evRx s = .next { s with
        rxPend := false
        rx := if (s.rx.head + 1) % s.cfg.c = s.rx.viewTail s.cfg.sync then s.rx
              else { s.rx with buf := s.rx.buf.write s.rx.head b, head := (s.rx.head + 1) % s.cfg.c }
        tx := if (s.tx.head + 1) % s.cfg.c = s.tx.viewTail s.cfg.sync then s.tx
              else { s.tx with buf := s.tx.buf.write s.tx.head b, head := (s.tx.head + 1) % s.cfg.c }
        txie := if (s.tx.head + 1) % s.cfg.c = s.tx.viewTail s.cfg.sync then s.txie else true
        idleArmed := true
        idleCnt := s.cfg.idleWindowTicks
        idlePend := false
        result := .none }

/-- R132: EV_TXRDY sends one byte or idles the pump. -/
def Obligations.EvTxRdySendsOneByteOrIdles : Prop :=
  ∀ (s : State),
    (¬ (s.lineEn = true ∧ s.txie = true ∧ s.txRdy = true) → exec .evTxRdy s = .fault .notEnabled) ∧
    (s.lineEn = true → s.txie = true → s.txRdy = true →
      (s.tx.viewHead s.cfg.sync = s.tx.tail → exec .evTxRdy s = .next { s with txie := false, result := .none }) ∧
      (∀ b, s.tx.viewHead s.cfg.sync ≠ s.tx.tail → s.tx.buf.read s.tx.tail = some b →
        exec .evTxRdy s = .next { s with
          tx := { s.tx with tail := (s.tx.tail + 1) % s.cfg.c }
          wireTx := s.wireTx ++ [b]
          txRdy := false
          result := .none }))

/-- R153, R167: the two timers' handlers set their flags, and EV_IDLE disarms its timer. -/
def Obligations.TimerHandlersSetTheirFlags : Prop :=
  ∀ s : State,
    (s.idlePend = false → exec .evIdle s = .fault .notEnabled) ∧
    (s.idlePend = true →
      exec .evIdle s = .next { s with idlePend := false, idlf := true, idleArmed := false, result := .none }) ∧
    (s.hbPend = false → exec .evHb s = .fault .notEnabled) ∧
    (s.hbPend = true → exec .evHb s = .next { s with hbPend := false, hbf := true, result := .none })

/-- A handler falsifies its own guard and enables no other, but EV_RX may enable EV_TXRDY (R248). -/
def Obligations.HandlersFalsifyTheirGuards : Prop :=
  ∀ (i : Instr) (s t : State), isHandler i = true → exec i s = .next t →
    (i = .evRx → t.evRxEnabled = false) ∧ (i = .evTxRdy → t.evTxRdyEnabled = false) ∧
    (i = .evIdle → t.evIdleEnabled = false) ∧ (i = .evHb → t.evHbEnabled = false) ∧
    (t.evRxEnabled = true → s.evRxEnabled = true) ∧ (t.evIdleEnabled = true → s.evIdleEnabled = true) ∧
    (t.evHbEnabled = true → s.evHbEnabled = true) ∧
    (t.evTxRdyEnabled = true → s.evTxRdyEnabled = true ∨ i = .evRx)

/-- The handlers are the sequences of their sub-operations (R15, R132, R141, R153). -/
def Obligations.HandlersAreTheirSubOperations : Prop :=
  ∀ (s : State) (b : Byte),
    (s.evRxEnabled = true → s.rxData = some b →
      exec .evRx s = andThen (exec .lineRd s) fun s1 => andThen (exec (.tryPush .rx b) s1) fun s2 =>
        andThen (exec (.tryPush .tx b) s2) fun s3 => exec .idlRearm s3) ∧
    (s.evTxRdyEnabled = true → s.tx.emptyC s.cfg = false → s.tx.buf.read s.tx.tail = some b →
      exec .evTxRdy s = andThen (exec (.tryPop .tx) s) fun s1 => exec (.lineWr b) s1) ∧
    (s.evIdleEnabled = true → exec .evIdle s = exec .idlDisarm { s with idlePend := false, idlf := true })

/-! ### The dispatch operations -/

/-- R178: DSP_POLLIDLE latches the count and builds the report, or goes on to the heartbeat poll. The premise on the report's
length is R41's range of `MLEN`; it holds for every count below 10^13 (`ReportHasItsForm`). -/
def Obligations.DspPollIdleBuildsTheReport : Prop :=
  ∀ s : State,
    (¬ (s.bootComplete = true ∧ s.mpc = .pollIdle) → exec .dspPollIdle s = .fault .notEnabled) ∧
    (s.bootComplete = true → s.mpc = .pollIdle →
      (∀ n, n = (((s.rx.viewHead s.cfg.sync : Int) - (s.rx.tail : Int)) % (s.cfg.c : Int)).toNat →
        s.idlf = true → s.rx.viewHead s.cfg.sync ≠ s.rx.tail → (report n).length ≤ 32 →
        ∃ m, exec .dspPollIdle s = .next { s with
            nlatch := n, msg := m, mlen := (report n).length, mi := 0, att := 0, mpc := .repEnq, result := .none } ∧
          (∀ k, k < (report n).length → m.read k = (report n)[k]?) ∧
          (∀ k, (report n).length ≤ k → m.read k = s.msg.read k)) ∧
      (¬ (s.idlf = true ∧ s.rx.viewHead s.cfg.sync ≠ s.rx.tail) →
        exec .dspPollIdle s = .next { s with mpc := .pollHb, result := .none }))

/-- R181: one attempt of the bounded spin-retry. -/
def Obligations.DspEnqTriesOnce : Prop :=
  ∀ s : State,
    (¬ (s.bootComplete = true ∧ (s.mpc = .repEnq ∨ s.mpc = .hbEnq)) → exec .dspEnq s = .fault .notEnabled) ∧
    (∀ b, s.bootComplete = true → s.mpc = .repEnq ∨ s.mpc = .hbEnq → s.msg.read s.mi = some b →
      ((s.tx.head + 1) % s.cfg.c ≠ s.tx.viewTail s.cfg.sync →
        exec .dspEnq s = .next { s with
          tx := { s.tx with buf := s.tx.buf.write s.tx.head b, head := (s.tx.head + 1) % s.cfg.c }
          txie := true
          mi := s.mi + 1
          att := 0
          mpc := if s.mi + 1 = s.mlen then (if s.mpc = .repEnq then .repRxClr else .hbTxEn) else s.mpc
          result := .none }) ∧
      ((s.tx.head + 1) % s.cfg.c = s.tx.viewTail s.cfg.sync → s.att + 1 = s.cfg.retryCeiling →
        exec .dspEnq s = .next { s with
          mi := s.mi + 1
          att := 0
          mpc := if s.mi + 1 = s.mlen then (if s.mpc = .repEnq then .repRxClr else .hbTxEn) else s.mpc
          result := .none }) ∧
      ((s.tx.head + 1) % s.cfg.c = s.tx.viewTail s.cfg.sync → s.att + 1 ≠ s.cfg.retryCeiling →
        exec .dspEnq s = .next { s with
          att := s.att + 1
          mpc := if s.mi = s.mlen then (if s.mpc = .repEnq then .repRxClr else .hbTxEn) else s.mpc
          result := .none }))

/-- R183: DSP_RXCLR consumes the receive ring up to the head of this step. -/
def Obligations.DspRxClrConsumesTheFrame : Prop :=
  ∀ s : State,
    (¬ (s.bootComplete = true ∧ s.mpc = .repRxClr) → exec .dspRxClr s = .fault .notEnabled) ∧
    (s.bootComplete = true → s.mpc = .repRxClr →
      exec .dspRxClr s = .next { s with
        rx := { s.rx with tail := s.rx.viewHead s.cfg.sync }, mpc := .repFClr, result := .none })

/-- R184: DSP_IDLFCLR clears the idle flag. -/
def Obligations.DspIdlfClrClearsTheFlag : Prop :=
  ∀ s : State,
    (¬ (s.bootComplete = true ∧ s.mpc = .repFClr) → exec .dspIdlfClr s = .fault .notEnabled) ∧
    (s.bootComplete = true → s.mpc = .repFClr →
      exec .dspIdlfClr s = .next { s with idlf := false, mpc := .repTxEn, result := .none })

/-- R185: DSP_TXEN arms the pump, unconditionally. -/
def Obligations.DspTxEnArmsThePump : Prop :=
  ∀ s : State,
    (¬ (s.bootComplete = true ∧ (s.mpc = .repTxEn ∨ s.mpc = .hbTxEn)) → exec .dspTxEn s = .fault .notEnabled) ∧
    (s.bootComplete = true → s.mpc = .repTxEn →
      exec .dspTxEn s = .next { s with txie := true, mpc := .pollHb, result := .none }) ∧
    (s.bootComplete = true → s.mpc = .hbTxEn →
      exec .dspTxEn s = .next { s with txie := true, mpc := .pollIdle, result := .none })

/-- R186: DSP_POLLHB clears a set heartbeat flag and loads the 26 bytes of the text, or ends the pass. -/
def Obligations.DspPollHbLoadsTheText : Prop :=
  ∀ s : State,
    (¬ (s.bootComplete = true ∧ s.mpc = .pollHb) → exec .dspPollHb s = .fault .notEnabled) ∧
    (s.bootComplete = true → s.mpc = .pollHb →
      (s.hbf = true → ∃ m, exec .dspPollHb s = .next { s with
          hbf := false, msg := m, mlen := 26, mi := 0, att := 0, mpc := .hbEnq, result := .none } ∧
        (∀ k, k < 26 → m.read k = ([0x41, 0x54, 0x6D, 0x65, 0x67, 0x61, 0x33, 0x32, 0x38, 0x50, 0x3A, 0x20, 0x48, 0x65, 0x6C,
          0x6C, 0x6F, 0x20, 0x57, 0x6F, 0x72, 0x6C, 0x64, 0x21, 0x0D, 0x0A] : List Byte)[k]?) ∧
        (∀ k, 26 ≤ k → m.read k = s.msg.read k)) ∧
      (s.hbf = false → exec .dspPollHb s = .next { s with mpc := .pollIdle, result := .none }))

/-- One dispatch operation is enabled at each position of a booted machine, and it leads where R40's table says. -/
def Obligations.OneDispatchOperationPerPosition : Prop :=
  ∀ (s : State) (i : Instr), s.bootComplete = true → isDispatch i = true →
    (exec i s ≠ .fault .notEnabled ↔
      match s.mpc with
      | .pollIdle => i = .dspPollIdle
      | .repEnq => i = .dspEnq
      | .repRxClr => i = .dspRxClr
      | .repFClr => i = .dspIdlfClr
      | .repTxEn => i = .dspTxEn
      | .pollHb => i = .dspPollHb
      | .hbEnq => i = .dspEnq
      | .hbTxEn => i = .dspTxEn) ∧
    ∀ t, exec i s = .next t →
      match s.mpc with
      | .pollIdle => t.mpc = .repEnq ∨ t.mpc = .pollHb
      | .repEnq => t.mpc = .repEnq ∨ t.mpc = .repRxClr
      | .repRxClr => t.mpc = .repFClr
      | .repFClr => t.mpc = .repTxEn
      | .repTxEn => t.mpc = .pollHb
      | .pollHb => t.mpc = .hbEnq ∨ t.mpc = .pollIdle
      | .hbEnq => t.mpc = .hbEnq ∨ t.mpc = .hbTxEn
      | .hbTxEn => t.mpc = .pollIdle

/-- R180: the decimal text of a count stands for it, holds digits only and has no leading zero. -/
def Obligations.DecimalTextIsTheCount : Prop :=
  (∀ n, decimalOf (dec n) = n) ∧ (∀ n, ∀ b ∈ dec n, 0x30 ≤ b.toNat ∧ b.toNat ≤ 0x39) ∧
  (∀ n, n ≠ 0 → ∃ d ds, dec n = d :: ds ∧ d ≠ 0x30) ∧ dec 0 = [0x30] ∧ dec 1 = [0x31] ∧ dec 10 = [0x31, 0x30] ∧
  dec 255 = [0x32, 0x35, 0x35]

/-- The report of a count in a frame is 20, 21 or 22 bytes at `C = 256`: prefix, digits, suffix (R179). -/
def Obligations.ReportHasItsForm : Prop :=
  (∀ n, report n = [0x0D, 0x0A, 0x52, 0x65, 0x63, 0x65, 0x69, 0x76, 0x65, 0x64, 0x20] ++ dec n ++
    [0x20, 0x62, 0x79, 0x74, 0x65, 0x73, 0x0D, 0x0A]) ∧
  (∀ n, n < 256 → (report n).length = 20 ∨ (report n).length = 21 ∨ (report n).length = 22) ∧
  (∀ n, n < 10 ^ 13 → (report n).length ≤ 32)

/-- R182's bound: each DSP_ENQ uses up at least one of the `MLEN * RETRY_CEILING` attempts a message has, and the message is left
exactly when every byte is disposed of. -/
def Obligations.EachAttemptUsesUpTheBound : Prop :=
  ∀ s t : State, s.mi < s.mlen → s.att < s.cfg.retryCeiling → exec .dspEnq s = .next t →
    t.mi ≤ t.mlen ∧ t.att < t.cfg.retryCeiling ∧ t.mlen = s.mlen ∧
    (t.mlen - t.mi) * t.cfg.retryCeiling - t.att < (s.mlen - s.mi) * s.cfg.retryCeiling - s.att ∧
    (t.mi = t.mlen ↔ t.mpc ≠ s.mpc)

/-- R189: with the transmit ring full throughout, a byte is abandoned after exactly `RETRY_CEILING` attempts, and the ring is
unchanged. -/
def Obligations.FullRingSkipsAByteAtTheCeiling : Prop :=
  ∀ (s : State) (b : Byte), s.bootComplete = true → s.mpc = .repEnq ∨ s.mpc = .hbEnq → s.mi < s.mlen → s.att = 0 →
    1 ≤ s.cfg.retryCeiling → s.msg.read s.mi = some b → (s.tx.head + 1) % s.cfg.c = s.tx.viewTail s.cfg.sync →
    (∀ k, 1 ≤ k → k < s.cfg.retryCeiling →
      performAll (List.replicate k .dspEnq) s = .next { s with att := k, result := .none }) ∧
    performAll (List.replicate s.cfg.retryCeiling .dspEnq) s = .next { s with
      mi := s.mi + 1
      mpc := if s.mi + 1 = s.mlen then (if s.mpc = .repEnq then .repRxClr else .hbTxEn) else s.mpc
      result := .none }

/-! ### Line, timers, environment -/

/-- R202, R206, R207: the three init operations. -/
def Obligations.InitOperationsEnableTheirSource : Prop :=
  ∀ s : State,
    (¬ (s.lineEn = false ∧ s.idleCfg = true) → exec .lineInit s = .fault .notEnabled) ∧
    (s.lineEn = false → s.idleCfg = true →
      exec .lineInit s = .next { s with lineEn := true, rxie := true, txRdy := true, result := .none }) ∧
    (s.hbRun = true → exec .hbtInit s = .fault .notEnabled) ∧
    (s.hbRun = false →
      exec .hbtInit s = .next { s with hbRun := true, hbCnt := s.cfg.hbPeriodTicks, hbPend := false, result := .none }) ∧
    (s.idleCfg = true → exec .idltInit s = .fault .notEnabled) ∧
    (s.idleCfg = false →
      exec .idltInit s = .next { s with
        idleCfg := true, idleArmed := false, idleCnt := 0, idlePend := false, result := .none })

/-- R203, R204, R205: the line's three calls as sub-operations. -/
def Obligations.LineCallsReadAndWriteOneUnit : Prop :=
  ∀ s : State,
    exec .lineWrdy s = .next { s with result := .ready s.txRdy } ∧
    (s.evTxRdyEnabled = true → s.txRdy = true) ∧
    (∀ b, (s.lineEn = true → s.txRdy = true →
        exec (.lineWr b) s = .next { s with wireTx := s.wireTx ++ [b], txRdy := false, result := .none }) ∧
      (¬ (s.lineEn = true ∧ s.txRdy = true) → exec (.lineWr b) s = .refused .lineNotReady)) ∧
    (∀ b, s.rxPend = true → s.rxData = some b →
      exec .lineRd s = .next { s with rxPend := false, result := .byte b }) ∧
    (s.rxPend = false → exec .lineRd s = .refused .noReceivedByte)

/-- R154, R155: rearming and disarming the idle timer. -/
def Obligations.RearmStartsAFullWindowAndDisarmStopsIt : Prop :=
  ∀ s : State,
    (s.idleCfg = true → exec .idlRearm s = .next { s with
      idleArmed := true, idleCnt := s.cfg.idleWindowTicks, idlePend := false, result := .none }) ∧
    (s.idleCfg = false → exec .idlRearm s = .refused .idleTimerNotConfigured) ∧
    exec .idlDisarm s = .next { s with idleArmed := false, result := .none }

/-- R221, R222: the line delivers a byte, and finishes one. -/
def Obligations.LineDeliversAndFinishes : Prop :=
  ∀ (s : State) (b : Byte),
    (¬ (s.lineEn = true ∧ s.rxPend = false) → exec (.envRxByte b) s = .fault .notEnabled) ∧
    (s.lineEn = true → s.rxPend = false → exec (.envRxByte b) s = .next { s with
      rxData := some b, rxPend := true, wireRx := s.wireRx ++ [b], result := .none }) ∧
    (¬ (s.lineEn = true ∧ s.txRdy = false) → exec .envTxDone s = .fault .notEnabled) ∧
    (s.lineEn = true → s.txRdy = false → exec .envTxDone s = .next { s with txRdy := true, result := .none })

/-- R223: one unit of time on both timers, not while a handler is enabled. The premise on `HB_CNT` is R34's range. -/
def Obligations.TickAdvancesBothTimers : Prop :=
  ∀ s : State,
    (s.evRxEnabled = true ∨ s.evTxRdyEnabled = true ∨ s.evIdleEnabled = true ∨ s.evHbEnabled = true →
      exec .tick s = .fault .notEnabled) ∧
    (s.evRxEnabled = false → s.evTxRdyEnabled = false → s.idlePend = false → s.hbPend = false →
      (s.hbRun = true → 1 ≤ s.hbCnt) →
      exec .tick s = .next { s with
        idleCnt := if s.idleArmed = true ∧ 0 < s.idleCnt then s.idleCnt - 1 else s.idleCnt
        idlePend := decide (s.idleArmed = true ∧ s.idleCnt = 1)
        hbPend := decide (s.hbRun = true ∧ s.hbCnt = 1)
        hbCnt := if s.hbRun = true then (if s.hbCnt = 1 then s.cfg.hbPeriodTicks else s.hbCnt - 1) else s.hbCnt
        result := .none })

/-- A counting idle timer expires after exactly `IDLE_CNT` ticks (R152), and one more TICK is not enabled, because EV_IDLE then is
(R223, R248). The premise that `IDLE_CNT` is below `HB_CNT` (R166) shuts out a heartbeat period that ends before the expiry or on
the same tick; that tick is `TickAdvancesBothTimers`'. -/
def Obligations.IdleWindowElapsesInTicks : Prop :=
  ∀ (s : State) (n : Nat), s.handlerEnabled = false → s.idleArmed = true → 1 ≤ s.idleCnt →
    (s.hbRun = true → s.idleCnt < s.hbCnt) →
    (n ≤ s.idleCnt → ∃ t, performAll (List.replicate n .tick) s = .next t ∧ t.idleCnt = s.idleCnt - n ∧
      t.idlePend = decide (n = s.idleCnt) ∧ t.idleArmed = true ∧ t.hbPend = false ∧
      t.hbCnt = if s.hbRun then s.hbCnt - n else s.hbCnt) ∧
    (s.idleCnt < n → performAll (List.replicate n .tick) s = .fault .notEnabled)

/-- R227: SYNC refreshes the views its mask names in `GRAY`, and is refused in `ATOMIC` (R98). -/
def Obligations.SyncRefreshesTheViews : Prop :=
  ∀ (s : State) (x : RingSel) (m : BitVec 2),
    (s.cfg.sync = .gray → m ≠ 0 →
      exec (.sync x m) s = .next { s.setRing x { s.ring x with
        tailP := if m.getLsbD 0 = true then (s.ring x).tail else (s.ring x).tailP
        headC := if m.getLsbD 1 = true then (s.ring x).head else (s.ring x).headC } with result := .none }) ∧
    (s.cfg.sync = .atomic → exec (.sync x m) s = .refused .syncInAtomic)

/-- R67: the Gray code's inverse, and that successive values, the wrap included, differ in exactly one bit. -/
def Obligations.GrayCodeChangesOneBit : Prop :=
  (∀ (w : Nat) (v : BitVec w), ungray (gray v) = v) ∧
  (∀ (w : Nat) (v : BitVec w), 0 < w → ∃ k, k < w ∧ gray v ^^^ gray (v + 1) = BitVec.twoPow w k) ∧
  gray (0x00 : Byte) = 0x00 ∧ gray (0x01 : Byte) = 0x01 ∧ gray (0x02 : Byte) = 0x03 ∧ gray (0x7F : Byte) = 0x40 ∧
  gray (0x80 : Byte) = 0xC0 ∧ gray (0xFF : Byte) = 0x80

/-! ### The machine as a whole -/

/-- The invariant holds after RESET, for every legal choice of the parameters, and at the reference values. -/
def Obligations.InvariantHoldsAtReset : Prop :=
  (∀ (p : Params) (w : List Opw), p.ok → (State.resetWith p w).Inv ∧ (State.resetWith p w).pumpOk) ∧ State.reset.Inv

/-- Every step keeps the invariant, from every state that has it (R24, R27, R33, R34, R41, R118, R151). -/
def Obligations.StepKeepsTheInvariant : Prop :=
  ∀ s t : State, s.Inv → step s = .next t → t.Inv

/-- Every step keeps the pump invariant of R135. -/
def Obligations.StepKeepsThePumpInvariant : Prop :=
  ∀ s t : State, s.Inv → s.pumpOk → step s = .next t → t.pumpOk

/-- No state with the invariant stops on its data: the only faults are an operation that is not enabled and a schedule that
breaks the priority rule, and the only refusals those of a word or of the schedule's end (R64, R98, R99, R104, R118). -/
def Obligations.DataNeverStopsTheMachine : Prop :=
  ∀ s : State, s.Inv →
    (∀ f, step s = .fault f → f = .notEnabled ∨ f = .priorityViolated) ∧
    (∀ r, step s = .refused r →
      (∃ why, r = .reservedWord why) ∨ r = .syncInAtomic ∨ r = .subOperation ∨ r = .scheduleEnd)

/-- Where an operation stops by name on a value that the invariant excludes: `NONE` read (R64, log 6), an unconfigured idle timer
(R154), a heartbeat count of 0 (R34, log 7), a message that does not fit `MSG` (log 4), and SYNC's mask 0, a term without a word,
whose refusal is the model's own (log 15). -/
def Obligations.ExcludedValuesStopByName : Prop :=
  ∀ s : State,
    (s.evRxEnabled = true → s.rxData = none → exec .evRx s = .fault .unwrittenRxData) ∧
    (∀ b, s.evRxEnabled = true → s.rxData = some b → s.idleCfg = false → exec .evRx s = .refused .idleTimerNotConfigured) ∧
    (s.rxPend = true → s.rxData = none → exec .lineRd s = .fault .unwrittenRxData) ∧
    (s.evTxRdyEnabled = true → s.tx.viewHead s.cfg.sync ≠ s.tx.tail → s.tx.buf.read s.tx.tail = none →
      exec .evTxRdy s = .fault (.unwrittenSlot .tx s.tx.tail)) ∧
    (s.bootComplete = true → s.mpc = .repEnq ∨ s.mpc = .hbEnq → s.msg.read s.mi = none →
      exec .dspEnq s = .fault (.unwrittenMsg s.mi)) ∧
    (s.bootComplete = true → s.mpc = .pollIdle → s.idlf = true → s.rx.viewHead s.cfg.sync ≠ s.rx.tail →
      32 < (report (s.rx.countFor s.cfg .consumer)).length → exec .dspPollIdle s = .fault .messageTooLong) ∧
    (s.handlerEnabled = false → s.hbRun = true → s.hbCnt = 0 → exec .tick s = .fault .heartbeatCountZero) ∧
    (∀ x, s.cfg.sync = .gray → exec (.sync x 0) s = .refused .syncMaskZero)

/-- A step uses up one word of the schedule and never changes the parameters (R46; logs 1 and 3). A valid schedule (R104) runs
through from every state with the invariant, as a whole and step by step, on constant parameters; and a schedule that runs through
is valid. -/
def Obligations.ParametersAreConstant : Prop :=
  (∀ s t : State, step s = .next t → t.cfg = s.cfg ∧ ∃ w, s.sched = w :: t.sched) ∧
  (∀ (s : State) (ws : List Opw), s.Inv → validSchedule s ws = true →
    ∃ t, runSchedule ws s = .next t ∧ core.run ws.length { s with sched := ws } = .next { t with sched := [] } ∧ t.cfg = s.cfg) ∧
  (∀ (s t : State) (ws : List Opw), runSchedule ws s = .next t → validSchedule s ws = true)

/-- What is on the wire and queued for it: an operation of the assembled block other than RESET appends at most the one byte it
pushes to TX, and loses, repeats or reorders none (R73, R134). -/
def Obligations.WireCarriesWhatWasPushed : Prop :=
  ∀ (i : Instr) (s t : State), s.Inv → perform i s = .next t → i ≠ .reset → i ≠ .tryPop .tx → i ≠ .consumeAll .tx →
    (t.wireTx ++ t.tx.bytes t.cfg = s.wireTx ++ s.tx.bytes s.cfg ∧ t.tx.head = s.tx.head) ∨
    (∃ b, byteForTx s i = some b ∧ s.tx.fullP s.cfg = false ∧
      t.wireTx ++ t.tx.bytes t.cfg = s.wireTx ++ s.tx.bytes s.cfg ++ [b])

/-- In a quiescent state the block's own agents have only the negative polls, which move MPC and change nothing else; what closes
a schedule reaches a quiescent state, brings no byte and no tick and only appends to the wire; and a schedule that ends quiescent
has one output, `WIRE_TX` as it is (R283; which steps may be added is log 18). -/
def Obligations.QuiescentStateOnlyPolls : Prop :=
  (∀ s : State, s.Inv → s.quiescent →
    (∀ i, isHandler i = true ∨ i = .lineInit ∨ i = .hbtInit ∨ i = .idltInit → exec i s = .fault .notEnabled) ∧
    (∀ i t, isDispatch i = true → exec i s = .next t →
      (i = .dspPollIdle ∧ t = { s with mpc := .pollHb, result := .none }) ∨
      (i = .dspPollHb ∧ t = { s with mpc := .pollIdle, result := .none })) ∧
    ∃ i t, isDispatch i = true ∧ exec i s = .next t ∧ t.quiescent) ∧
  (∀ (us : List ClosingStep) (s t : State), closeBy us s = some t →
    t.quiescent ∧ t.wireRx = s.wireRx ∧ t.hbCnt = s.hbCnt ∧ ∃ bs, t.wireTx = s.wireTx ++ bs) ∧
  (∀ (s t : State) (ws : List Opw), runSchedule ws s = .next t → t.quiescent → ∀ out, IsOutput s ws out ↔ out = t.wireTx)

/-- The text of an operation reads back as it (R102). -/
def Obligations.ScheduleTextReadsBack : Prop :=
  ∀ i : Instr, i.wf = true → readLine (writeLine i) = some i

/-- CR0, CR1 and CR2 read their fields at R31's bit positions, and their reserved bits as 0. -/
def Obligations.ControlRegistersReadTheirFields : Prop :=
  ∀ s : State,
    s.cr0.getLsbD 0 = s.lineEn ∧ s.cr0.getLsbD 1 = s.rxie ∧ s.cr0.getLsbD 2 = s.txie ∧ s.cr0.getLsbD 3 = s.idleArmed ∧
    s.cr0.getLsbD 4 = s.hbRun ∧ s.cr0.getLsbD 5 = s.idleCfg ∧ s.cr0.getLsbD 6 = false ∧ s.cr0.getLsbD 7 = false ∧
    s.cr1.getLsbD 0 = s.hbf ∧ s.cr1.getLsbD 1 = s.idlf ∧ (∀ k, 2 ≤ k → s.cr1.getLsbD k = false) ∧
    s.cr2.getLsbD 0 = s.rxPend ∧ s.cr2.getLsbD 1 = s.txRdy ∧ s.cr2.getLsbD 2 = s.idlePend ∧ s.cr2.getLsbD 3 = s.hbPend ∧
    (∀ k, 4 ≤ k → s.cr2.getLsbD k = false)
end

