-- ==== Sys2Proof/Laws/Index.lean ====
section
/-! SUPPORT. Index arithmetic modulo C without the remainder: for indices in range, increment and difference are one comparison (R117). -/

namespace Sys2Proof.Machine

theorem idxInc_eq {c i : Nat} (h : i < c) : idxInc c i = if i + 1 = c then 0 else i + 1 := by
  unfold idxInc
  split
  · next e => rw [e, Nat.mod_self]
  · exact Nat.mod_eq_of_lt (by omega)

theorem idxInc_lt {c i : Nat} (h : 0 < c) : idxInc c i < c := Nat.mod_lt _ h

theorem idxSub_eq {c a b : Nat} (ha : a < c) (hb : b < c) :
    idxSub c a b = if b ≤ a then a - b else a + c - b := by
  unfold idxSub
  split
  · rw [Int.emod_eq_of_lt (by omega) (by omega)]; omega
  · rw [← Int.add_emod_right, Int.emod_eq_of_lt (by omega) (by omega)]; omega

theorem idxSub_lt {c a b : Nat} (h : 0 < c) : idxSub c a b < c := by
  unfold idxSub
  have h1 := Int.emod_nonneg ((a : Int) - b) (b := (c : Int)) (by omega)
  have h2 := Int.emod_lt_of_pos ((a : Int) - b) (b := (c : Int)) (by omega)
  omega

@[simp] theorem idxSub_self (c a : Nat) : idxSub c a a = 0 := by simp [idxSub]

/-- The slot `k` places after the tail, without the remainder. -/
theorem idxAdd_eq {c t k : Nat} (ht : t < c) (hk : k < c) : (t + k) % c = if t + k < c then t + k else t + k - c := by
  split
  · next h => exact Nat.mod_eq_of_lt h
  · next h => rw [Nat.mod_eq_sub_mod (by omega), Nat.mod_eq_of_lt (by omega)]

end Sys2Proof.Machine
end

