-- ==== Sys2Proof/Laws/Memory.lean ====
section
/-! SUPPORT. Storage spaces: read after write, that every write keeps the canonical form, and that canonical spaces with equal reads are equal data. -/

namespace Sys2Proof.Machine

theorem Mem.read_write_same (m : Mem) (a : Nat) (b : Byte) : (m.write a b).read a = some b := by
  induction m with
  | nil => simp [Mem.write, Mem.read]
  | cons p m ih =>
    obtain ⟨k, v⟩ := p
    simp only [Mem.write]
    split
    · simp [Mem.read]
    · split
      · simp [Mem.read]
      · simp only [Mem.read]
        rw [if_neg (by omega), ih]

theorem Mem.read_write_other (m : Mem) {a c : Nat} (b : Byte) (h : c ≠ a) : (m.write a b).read c = m.read c := by
  induction m with
  | nil => simp [Mem.write, Mem.read, Ne.symm h]
  | cons p m ih =>
    obtain ⟨k, v⟩ := p
    simp only [Mem.write]
    split
    · simp [Mem.read, Ne.symm h]
    · split
      · next h1 => subst h1; simp [Mem.read, Ne.symm h]
      · simp only [Mem.read, ih]

theorem Mem.read_write (m : Mem) (a c : Nat) (b : Byte) :
    (m.write a b).read c = if c = a then some b else m.read c := by
  split
  · next h => subst h; exact Mem.read_write_same m c b
  · next h => exact Mem.read_write_other m b h

theorem Mem.mem_write {m : Mem} {a : Nat} {b : Byte} {x : Nat × BitVec 8} (h : x ∈ m.write a b) :
    x = (a, b) ∨ x ∈ m := by
  induction m with
  | nil => simpa [Mem.write] using h
  | cons p m ih =>
    obtain ⟨k, v⟩ := p
    simp only [Mem.write] at h
    split at h
    · simpa using h
    · split at h
      · rcases List.mem_cons.1 h with h | h
        · exact .inl h
        · exact .inr (List.mem_cons_of_mem _ h)
      · rcases List.mem_cons.1 h with h | h
        · exact .inr (by simp [h])
        · exact (ih h).imp id (List.mem_cons_of_mem _)

theorem Mem.write_wf {m : Mem} (h : m.wf) (a : Nat) (b : Byte) : (m.write a b).wf := by
  induction m with
  | nil => simp [Mem.write, Mem.wf]
  | cons p m ih =>
    obtain ⟨k, v⟩ := p
    obtain ⟨h1, h2⟩ := List.pairwise_cons.1 h
    simp only [Mem.write]
    split
    · next hlt =>
      refine List.pairwise_cons.2 ⟨fun x hx => ?_, h⟩
      rcases List.mem_cons.1 hx with rfl | hx
      · exact hlt
      · exact Nat.lt_trans hlt (h1 x hx)
    · split
      · next he => subst he; exact List.pairwise_cons.2 ⟨h1, h2⟩
      · next hn he =>
        refine List.pairwise_cons.2 ⟨fun x hx => ?_, ih h2⟩
        rcases Mem.mem_write hx with rfl | hx
        · show k < a; omega
        · exact h1 x hx

theorem Mem.write_below {m : Mem} {n : Nat} (h : m.below n) {a : Nat} (ha : a < n) (b : Byte) :
    (m.write a b).below n := by
  intro x hx
  rcases Mem.mem_write hx with rfl | hx
  · exact ha
  · exact h x hx

theorem Mem.writeFrom_wf {m : Mem} (h : m.wf) (a : Nat) (bs : List Byte) : (m.writeFrom a bs).wf := by
  induction bs generalizing m a with
  | nil => exact h
  | cons b bs ih => exact ih (Mem.write_wf h a b) (a + 1)

theorem Mem.writeFrom_below {m : Mem} {n : Nat} (h : m.below n) (a : Nat) (bs : List Byte) (hn : a + bs.length ≤ n) :
    (m.writeFrom a bs).below n := by
  induction bs generalizing m a with
  | nil => exact h
  | cons b bs ih =>
    simp only [List.length_cons] at hn
    exact ih (Mem.write_below h (by omega) b) (a + 1) (by omega)

theorem Mem.read_writeFrom_outside (m : Mem) (a c : Nat) (bs : List Byte) (h : c < a ∨ a + bs.length ≤ c) :
    (m.writeFrom a bs).read c = m.read c := by
  induction bs generalizing m a with
  | nil => rfl
  | cons b bs ih =>
    simp only [List.length_cons] at h
    simp only [Mem.writeFrom]
    rw [ih _ _ (by omega), Mem.read_write_other _ _ (by omega)]

theorem Mem.read_writeFrom_inside (m : Mem) (a k : Nat) (bs : List Byte) (h : k < bs.length) :
    (m.writeFrom a bs).read (a + k) = bs[k]? := by
  induction bs generalizing m a k with
  | nil => simp at h
  | cons b bs ih =>
    simp only [Mem.writeFrom]
    cases k with
    | zero => rw [Mem.read_writeFrom_outside _ _ _ _ (by omega)]; simp [Mem.read_write_same]
    | succ k =>
      simp only [List.length_cons] at h
      rw [show a + (k + 1) = (a + 1) + k by omega, ih _ _ _ (by omega)]
      simp

theorem Mem.read_of_mem {m : Mem} (h : m.wf) {x : Nat × BitVec 8} (hx : x ∈ m) : m.read x.1 = some x.2 := by
  induction m with
  | nil => simp at hx
  | cons p m ih =>
    obtain ⟨k, v⟩ := p
    obtain ⟨h1, h2⟩ := List.pairwise_cons.1 h
    rcases List.mem_cons.1 hx with rfl | hx
    · simp [Mem.read]
    · have := h1 x hx
      simp only [Mem.read]
      rw [if_neg (by simp only at this; omega), ih h2 hx]

theorem Mem.mem_of_read {m : Mem} {a : Nat} {b : Byte} (h : m.read a = some b) : (a, b) ∈ m := by
  induction m with
  | nil => simp [Mem.read] at h
  | cons p m ih =>
    obtain ⟨k, v⟩ := p
    simp only [Mem.read] at h
    split at h
    · next hk => subst hk; simp_all
    · exact List.mem_cons_of_mem _ (ih h)

end Sys2Proof.Machine
end

