-- ==== Sys2Proof/Laws/State.lean ====
section
/-! SUPPORT. The small lemmas of the state's named updates: what each field reads after `setRing`, `arm` and the sequencer's updates. -/

namespace Sys2Proof.Machine

/-! ### setRing -/

@[simp] theorem State.ring_tx (s : State) : s.ring .tx = s.tx := rfl
@[simp] theorem State.ring_rx (s : State) : s.ring .rx = s.rx := rfl
@[simp] theorem State.setRing_tx_tx (s : State) (r : Ring) : (s.setRing .tx r).tx = r := rfl
@[simp] theorem State.setRing_tx_rx (s : State) (r : Ring) : (s.setRing .tx r).rx = s.rx := rfl
@[simp] theorem State.setRing_rx_tx (s : State) (r : Ring) : (s.setRing .rx r).tx = s.tx := rfl
@[simp] theorem State.setRing_rx_rx (s : State) (r : Ring) : (s.setRing .rx r).rx = r := rfl
@[simp] theorem State.ring_setRing (s : State) (x : RingSel) (r : Ring) : (s.setRing x r).ring x = r := by
  cases x <;> rfl
theorem State.ring_setRing_ne (s : State) {x y : RingSel} (r : Ring) (h : y ≠ x) : (s.setRing x r).ring y = s.ring y := by
  cases x <;> cases y <;> first | rfl | exact absurd rfl h
@[simp] theorem State.setRing_lineEn (s : State) (x : RingSel) (r : Ring) : (s.setRing x r).lineEn = s.lineEn := by
  cases x <;> rfl
@[simp] theorem State.setRing_rxie (s : State) (x : RingSel) (r : Ring) : (s.setRing x r).rxie = s.rxie := by
  cases x <;> rfl
@[simp] theorem State.setRing_txie (s : State) (x : RingSel) (r : Ring) : (s.setRing x r).txie = s.txie := by
  cases x <;> rfl
@[simp] theorem State.setRing_idleArmed (s : State) (x : RingSel) (r : Ring) : (s.setRing x r).idleArmed = s.idleArmed := by
  cases x <;> rfl
@[simp] theorem State.setRing_hbRun (s : State) (x : RingSel) (r : Ring) : (s.setRing x r).hbRun = s.hbRun := by
  cases x <;> rfl
@[simp] theorem State.setRing_idleCfg (s : State) (x : RingSel) (r : Ring) : (s.setRing x r).idleCfg = s.idleCfg := by
  cases x <;> rfl
@[simp] theorem State.setRing_hbf (s : State) (x : RingSel) (r : Ring) : (s.setRing x r).hbf = s.hbf := by
  cases x <;> rfl
@[simp] theorem State.setRing_idlf (s : State) (x : RingSel) (r : Ring) : (s.setRing x r).idlf = s.idlf := by
  cases x <;> rfl
@[simp] theorem State.setRing_rxPend (s : State) (x : RingSel) (r : Ring) : (s.setRing x r).rxPend = s.rxPend := by
  cases x <;> rfl
@[simp] theorem State.setRing_txRdy (s : State) (x : RingSel) (r : Ring) : (s.setRing x r).txRdy = s.txRdy := by
  cases x <;> rfl
@[simp] theorem State.setRing_idlePend (s : State) (x : RingSel) (r : Ring) : (s.setRing x r).idlePend = s.idlePend := by
  cases x <;> rfl
@[simp] theorem State.setRing_hbPend (s : State) (x : RingSel) (r : Ring) : (s.setRing x r).hbPend = s.hbPend := by
  cases x <;> rfl
@[simp] theorem State.setRing_rxData (s : State) (x : RingSel) (r : Ring) : (s.setRing x r).rxData = s.rxData := by
  cases x <;> rfl
@[simp] theorem State.setRing_idleCnt (s : State) (x : RingSel) (r : Ring) : (s.setRing x r).idleCnt = s.idleCnt := by
  cases x <;> rfl
@[simp] theorem State.setRing_hbCnt (s : State) (x : RingSel) (r : Ring) : (s.setRing x r).hbCnt = s.hbCnt := by
  cases x <;> rfl
@[simp] theorem State.setRing_mpc (s : State) (x : RingSel) (r : Ring) : (s.setRing x r).mpc = s.mpc := by
  cases x <;> rfl
@[simp] theorem State.setRing_mi (s : State) (x : RingSel) (r : Ring) : (s.setRing x r).mi = s.mi := by
  cases x <;> rfl
@[simp] theorem State.setRing_mlen (s : State) (x : RingSel) (r : Ring) : (s.setRing x r).mlen = s.mlen := by
  cases x <;> rfl
@[simp] theorem State.setRing_att (s : State) (x : RingSel) (r : Ring) : (s.setRing x r).att = s.att := by
  cases x <;> rfl
@[simp] theorem State.setRing_nlatch (s : State) (x : RingSel) (r : Ring) : (s.setRing x r).nlatch = s.nlatch := by
  cases x <;> rfl
@[simp] theorem State.setRing_msg (s : State) (x : RingSel) (r : Ring) : (s.setRing x r).msg = s.msg := by
  cases x <;> rfl
@[simp] theorem State.setRing_wireTx (s : State) (x : RingSel) (r : Ring) : (s.setRing x r).wireTx = s.wireTx := by
  cases x <;> rfl
@[simp] theorem State.setRing_wireRx (s : State) (x : RingSel) (r : Ring) : (s.setRing x r).wireRx = s.wireRx := by
  cases x <;> rfl
@[simp] theorem State.setRing_cfg (s : State) (x : RingSel) (r : Ring) : (s.setRing x r).cfg = s.cfg := by
  cases x <;> rfl
@[simp] theorem State.setRing_sched (s : State) (x : RingSel) (r : Ring) : (s.setRing x r).sched = s.sched := by
  cases x <;> rfl
@[simp] theorem State.setRing_result (s : State) (x : RingSel) (r : Ring) : (s.setRing x r).result = s.result := by
  cases x <;> rfl

/-! ### arm -/

@[simp] theorem State.arm_tx_txie (s : State) : (s.arm .tx).txie = true := rfl
@[simp] theorem State.arm_rx_same (s : State) : s.arm .rx = s := rfl
@[simp] theorem State.arm_ring (s : State) (x y : RingSel) : (s.arm x).ring y = s.ring y := by
  cases x <;> cases y <;> rfl
@[simp] theorem State.arm_tx (s : State) (x : RingSel) : (s.arm x).tx = s.tx := by
  cases x <;> rfl
@[simp] theorem State.arm_rx (s : State) (x : RingSel) : (s.arm x).rx = s.rx := by
  cases x <;> rfl
@[simp] theorem State.arm_lineEn (s : State) (x : RingSel) : (s.arm x).lineEn = s.lineEn := by
  cases x <;> rfl
@[simp] theorem State.arm_rxie (s : State) (x : RingSel) : (s.arm x).rxie = s.rxie := by
  cases x <;> rfl
@[simp] theorem State.arm_idleArmed (s : State) (x : RingSel) : (s.arm x).idleArmed = s.idleArmed := by
  cases x <;> rfl
@[simp] theorem State.arm_hbRun (s : State) (x : RingSel) : (s.arm x).hbRun = s.hbRun := by
  cases x <;> rfl
@[simp] theorem State.arm_idleCfg (s : State) (x : RingSel) : (s.arm x).idleCfg = s.idleCfg := by
  cases x <;> rfl
@[simp] theorem State.arm_hbf (s : State) (x : RingSel) : (s.arm x).hbf = s.hbf := by
  cases x <;> rfl
@[simp] theorem State.arm_idlf (s : State) (x : RingSel) : (s.arm x).idlf = s.idlf := by
  cases x <;> rfl
@[simp] theorem State.arm_rxPend (s : State) (x : RingSel) : (s.arm x).rxPend = s.rxPend := by
  cases x <;> rfl
@[simp] theorem State.arm_txRdy (s : State) (x : RingSel) : (s.arm x).txRdy = s.txRdy := by
  cases x <;> rfl
@[simp] theorem State.arm_idlePend (s : State) (x : RingSel) : (s.arm x).idlePend = s.idlePend := by
  cases x <;> rfl
@[simp] theorem State.arm_hbPend (s : State) (x : RingSel) : (s.arm x).hbPend = s.hbPend := by
  cases x <;> rfl
@[simp] theorem State.arm_rxData (s : State) (x : RingSel) : (s.arm x).rxData = s.rxData := by
  cases x <;> rfl
@[simp] theorem State.arm_idleCnt (s : State) (x : RingSel) : (s.arm x).idleCnt = s.idleCnt := by
  cases x <;> rfl
@[simp] theorem State.arm_hbCnt (s : State) (x : RingSel) : (s.arm x).hbCnt = s.hbCnt := by
  cases x <;> rfl
@[simp] theorem State.arm_mpc (s : State) (x : RingSel) : (s.arm x).mpc = s.mpc := by
  cases x <;> rfl
@[simp] theorem State.arm_mi (s : State) (x : RingSel) : (s.arm x).mi = s.mi := by
  cases x <;> rfl
@[simp] theorem State.arm_mlen (s : State) (x : RingSel) : (s.arm x).mlen = s.mlen := by
  cases x <;> rfl
@[simp] theorem State.arm_att (s : State) (x : RingSel) : (s.arm x).att = s.att := by
  cases x <;> rfl
@[simp] theorem State.arm_nlatch (s : State) (x : RingSel) : (s.arm x).nlatch = s.nlatch := by
  cases x <;> rfl
@[simp] theorem State.arm_msg (s : State) (x : RingSel) : (s.arm x).msg = s.msg := by
  cases x <;> rfl
@[simp] theorem State.arm_wireTx (s : State) (x : RingSel) : (s.arm x).wireTx = s.wireTx := by
  cases x <;> rfl
@[simp] theorem State.arm_wireRx (s : State) (x : RingSel) : (s.arm x).wireRx = s.wireRx := by
  cases x <;> rfl
@[simp] theorem State.arm_cfg (s : State) (x : RingSel) : (s.arm x).cfg = s.cfg := by
  cases x <;> rfl
@[simp] theorem State.arm_sched (s : State) (x : RingSel) : (s.arm x).sched = s.sched := by
  cases x <;> rfl
@[simp] theorem State.arm_result (s : State) (x : RingSel) : (s.arm x).result = s.result := by
  cases x <;> rfl

/-! ### the sequencer's locals -/

@[simp] theorem countAttempt_tx (ok : Bool) (s : State) : (countAttempt ok s).tx = s.tx := by
  unfold countAttempt; split <;> [rfl; (split <;> rfl)]
@[simp] theorem countAttempt_rx (ok : Bool) (s : State) : (countAttempt ok s).rx = s.rx := by
  unfold countAttempt; split <;> [rfl; (split <;> rfl)]
@[simp] theorem countAttempt_lineEn (ok : Bool) (s : State) : (countAttempt ok s).lineEn = s.lineEn := by
  unfold countAttempt; split <;> [rfl; (split <;> rfl)]
@[simp] theorem countAttempt_rxie (ok : Bool) (s : State) : (countAttempt ok s).rxie = s.rxie := by
  unfold countAttempt; split <;> [rfl; (split <;> rfl)]
@[simp] theorem countAttempt_txie (ok : Bool) (s : State) : (countAttempt ok s).txie = s.txie := by
  unfold countAttempt; split <;> [rfl; (split <;> rfl)]
@[simp] theorem countAttempt_idleArmed (ok : Bool) (s : State) : (countAttempt ok s).idleArmed = s.idleArmed := by
  unfold countAttempt; split <;> [rfl; (split <;> rfl)]
@[simp] theorem countAttempt_hbRun (ok : Bool) (s : State) : (countAttempt ok s).hbRun = s.hbRun := by
  unfold countAttempt; split <;> [rfl; (split <;> rfl)]
@[simp] theorem countAttempt_idleCfg (ok : Bool) (s : State) : (countAttempt ok s).idleCfg = s.idleCfg := by
  unfold countAttempt; split <;> [rfl; (split <;> rfl)]
@[simp] theorem countAttempt_hbf (ok : Bool) (s : State) : (countAttempt ok s).hbf = s.hbf := by
  unfold countAttempt; split <;> [rfl; (split <;> rfl)]
@[simp] theorem countAttempt_idlf (ok : Bool) (s : State) : (countAttempt ok s).idlf = s.idlf := by
  unfold countAttempt; split <;> [rfl; (split <;> rfl)]
@[simp] theorem countAttempt_rxPend (ok : Bool) (s : State) : (countAttempt ok s).rxPend = s.rxPend := by
  unfold countAttempt; split <;> [rfl; (split <;> rfl)]
@[simp] theorem countAttempt_txRdy (ok : Bool) (s : State) : (countAttempt ok s).txRdy = s.txRdy := by
  unfold countAttempt; split <;> [rfl; (split <;> rfl)]
@[simp] theorem countAttempt_idlePend (ok : Bool) (s : State) : (countAttempt ok s).idlePend = s.idlePend := by
  unfold countAttempt; split <;> [rfl; (split <;> rfl)]
@[simp] theorem countAttempt_hbPend (ok : Bool) (s : State) : (countAttempt ok s).hbPend = s.hbPend := by
  unfold countAttempt; split <;> [rfl; (split <;> rfl)]
@[simp] theorem countAttempt_rxData (ok : Bool) (s : State) : (countAttempt ok s).rxData = s.rxData := by
  unfold countAttempt; split <;> [rfl; (split <;> rfl)]
@[simp] theorem countAttempt_idleCnt (ok : Bool) (s : State) : (countAttempt ok s).idleCnt = s.idleCnt := by
  unfold countAttempt; split <;> [rfl; (split <;> rfl)]
@[simp] theorem countAttempt_hbCnt (ok : Bool) (s : State) : (countAttempt ok s).hbCnt = s.hbCnt := by
  unfold countAttempt; split <;> [rfl; (split <;> rfl)]
@[simp] theorem countAttempt_mpc (ok : Bool) (s : State) : (countAttempt ok s).mpc = s.mpc := by
  unfold countAttempt; split <;> [rfl; (split <;> rfl)]
@[simp] theorem countAttempt_mlen (ok : Bool) (s : State) : (countAttempt ok s).mlen = s.mlen := by
  unfold countAttempt; split <;> [rfl; (split <;> rfl)]
@[simp] theorem countAttempt_nlatch (ok : Bool) (s : State) : (countAttempt ok s).nlatch = s.nlatch := by
  unfold countAttempt; split <;> [rfl; (split <;> rfl)]
@[simp] theorem countAttempt_msg (ok : Bool) (s : State) : (countAttempt ok s).msg = s.msg := by
  unfold countAttempt; split <;> [rfl; (split <;> rfl)]
@[simp] theorem countAttempt_wireTx (ok : Bool) (s : State) : (countAttempt ok s).wireTx = s.wireTx := by
  unfold countAttempt; split <;> [rfl; (split <;> rfl)]
@[simp] theorem countAttempt_wireRx (ok : Bool) (s : State) : (countAttempt ok s).wireRx = s.wireRx := by
  unfold countAttempt; split <;> [rfl; (split <;> rfl)]
@[simp] theorem countAttempt_cfg (ok : Bool) (s : State) : (countAttempt ok s).cfg = s.cfg := by
  unfold countAttempt; split <;> [rfl; (split <;> rfl)]
@[simp] theorem countAttempt_sched (ok : Bool) (s : State) : (countAttempt ok s).sched = s.sched := by
  unfold countAttempt; split <;> [rfl; (split <;> rfl)]
@[simp] theorem countAttempt_result (ok : Bool) (s : State) : (countAttempt ok s).result = s.result := by
  unfold countAttempt; split <;> [rfl; (split <;> rfl)]
@[simp] theorem leaveMessage_tx (s : State) : (leaveMessage s).tx = s.tx := by
  unfold leaveMessage; split <;> rfl
@[simp] theorem leaveMessage_rx (s : State) : (leaveMessage s).rx = s.rx := by
  unfold leaveMessage; split <;> rfl
@[simp] theorem leaveMessage_lineEn (s : State) : (leaveMessage s).lineEn = s.lineEn := by
  unfold leaveMessage; split <;> rfl
@[simp] theorem leaveMessage_rxie (s : State) : (leaveMessage s).rxie = s.rxie := by
  unfold leaveMessage; split <;> rfl
@[simp] theorem leaveMessage_txie (s : State) : (leaveMessage s).txie = s.txie := by
  unfold leaveMessage; split <;> rfl
@[simp] theorem leaveMessage_idleArmed (s : State) : (leaveMessage s).idleArmed = s.idleArmed := by
  unfold leaveMessage; split <;> rfl
@[simp] theorem leaveMessage_hbRun (s : State) : (leaveMessage s).hbRun = s.hbRun := by
  unfold leaveMessage; split <;> rfl
@[simp] theorem leaveMessage_idleCfg (s : State) : (leaveMessage s).idleCfg = s.idleCfg := by
  unfold leaveMessage; split <;> rfl
@[simp] theorem leaveMessage_hbf (s : State) : (leaveMessage s).hbf = s.hbf := by
  unfold leaveMessage; split <;> rfl
@[simp] theorem leaveMessage_idlf (s : State) : (leaveMessage s).idlf = s.idlf := by
  unfold leaveMessage; split <;> rfl
@[simp] theorem leaveMessage_rxPend (s : State) : (leaveMessage s).rxPend = s.rxPend := by
  unfold leaveMessage; split <;> rfl
@[simp] theorem leaveMessage_txRdy (s : State) : (leaveMessage s).txRdy = s.txRdy := by
  unfold leaveMessage; split <;> rfl
@[simp] theorem leaveMessage_idlePend (s : State) : (leaveMessage s).idlePend = s.idlePend := by
  unfold leaveMessage; split <;> rfl
@[simp] theorem leaveMessage_hbPend (s : State) : (leaveMessage s).hbPend = s.hbPend := by
  unfold leaveMessage; split <;> rfl
@[simp] theorem leaveMessage_rxData (s : State) : (leaveMessage s).rxData = s.rxData := by
  unfold leaveMessage; split <;> rfl
@[simp] theorem leaveMessage_idleCnt (s : State) : (leaveMessage s).idleCnt = s.idleCnt := by
  unfold leaveMessage; split <;> rfl
@[simp] theorem leaveMessage_hbCnt (s : State) : (leaveMessage s).hbCnt = s.hbCnt := by
  unfold leaveMessage; split <;> rfl
@[simp] theorem leaveMessage_mi (s : State) : (leaveMessage s).mi = s.mi := by
  unfold leaveMessage; split <;> rfl
@[simp] theorem leaveMessage_mlen (s : State) : (leaveMessage s).mlen = s.mlen := by
  unfold leaveMessage; split <;> rfl
@[simp] theorem leaveMessage_att (s : State) : (leaveMessage s).att = s.att := by
  unfold leaveMessage; split <;> rfl
@[simp] theorem leaveMessage_nlatch (s : State) : (leaveMessage s).nlatch = s.nlatch := by
  unfold leaveMessage; split <;> rfl
@[simp] theorem leaveMessage_msg (s : State) : (leaveMessage s).msg = s.msg := by
  unfold leaveMessage; split <;> rfl
@[simp] theorem leaveMessage_wireTx (s : State) : (leaveMessage s).wireTx = s.wireTx := by
  unfold leaveMessage; split <;> rfl
@[simp] theorem leaveMessage_wireRx (s : State) : (leaveMessage s).wireRx = s.wireRx := by
  unfold leaveMessage; split <;> rfl
@[simp] theorem leaveMessage_cfg (s : State) : (leaveMessage s).cfg = s.cfg := by
  unfold leaveMessage; split <;> rfl
@[simp] theorem leaveMessage_sched (s : State) : (leaveMessage s).sched = s.sched := by
  unfold leaveMessage; split <;> rfl
@[simp] theorem leaveMessage_result (s : State) : (leaveMessage s).result = s.result := by
  unfold leaveMessage; split <;> rfl

/-! ### the idle-timer part of TICK -/

@[simp] theorem tickIdle_tx (s : State) : (tickIdle s).tx = s.tx := by
  unfold tickIdle; split <;> rfl
@[simp] theorem tickIdle_rx (s : State) : (tickIdle s).rx = s.rx := by
  unfold tickIdle; split <;> rfl
@[simp] theorem tickIdle_lineEn (s : State) : (tickIdle s).lineEn = s.lineEn := by
  unfold tickIdle; split <;> rfl
@[simp] theorem tickIdle_rxie (s : State) : (tickIdle s).rxie = s.rxie := by
  unfold tickIdle; split <;> rfl
@[simp] theorem tickIdle_txie (s : State) : (tickIdle s).txie = s.txie := by
  unfold tickIdle; split <;> rfl
@[simp] theorem tickIdle_idleArmed (s : State) : (tickIdle s).idleArmed = s.idleArmed := by
  unfold tickIdle; split <;> rfl
@[simp] theorem tickIdle_hbRun (s : State) : (tickIdle s).hbRun = s.hbRun := by
  unfold tickIdle; split <;> rfl
@[simp] theorem tickIdle_idleCfg (s : State) : (tickIdle s).idleCfg = s.idleCfg := by
  unfold tickIdle; split <;> rfl
@[simp] theorem tickIdle_hbf (s : State) : (tickIdle s).hbf = s.hbf := by
  unfold tickIdle; split <;> rfl
@[simp] theorem tickIdle_idlf (s : State) : (tickIdle s).idlf = s.idlf := by
  unfold tickIdle; split <;> rfl
@[simp] theorem tickIdle_rxPend (s : State) : (tickIdle s).rxPend = s.rxPend := by
  unfold tickIdle; split <;> rfl
@[simp] theorem tickIdle_txRdy (s : State) : (tickIdle s).txRdy = s.txRdy := by
  unfold tickIdle; split <;> rfl
@[simp] theorem tickIdle_hbPend (s : State) : (tickIdle s).hbPend = s.hbPend := by
  unfold tickIdle; split <;> rfl
@[simp] theorem tickIdle_rxData (s : State) : (tickIdle s).rxData = s.rxData := by
  unfold tickIdle; split <;> rfl
@[simp] theorem tickIdle_hbCnt (s : State) : (tickIdle s).hbCnt = s.hbCnt := by
  unfold tickIdle; split <;> rfl
@[simp] theorem tickIdle_mpc (s : State) : (tickIdle s).mpc = s.mpc := by
  unfold tickIdle; split <;> rfl
@[simp] theorem tickIdle_mi (s : State) : (tickIdle s).mi = s.mi := by
  unfold tickIdle; split <;> rfl
@[simp] theorem tickIdle_mlen (s : State) : (tickIdle s).mlen = s.mlen := by
  unfold tickIdle; split <;> rfl
@[simp] theorem tickIdle_att (s : State) : (tickIdle s).att = s.att := by
  unfold tickIdle; split <;> rfl
@[simp] theorem tickIdle_nlatch (s : State) : (tickIdle s).nlatch = s.nlatch := by
  unfold tickIdle; split <;> rfl
@[simp] theorem tickIdle_msg (s : State) : (tickIdle s).msg = s.msg := by
  unfold tickIdle; split <;> rfl
@[simp] theorem tickIdle_wireTx (s : State) : (tickIdle s).wireTx = s.wireTx := by
  unfold tickIdle; split <;> rfl
@[simp] theorem tickIdle_wireRx (s : State) : (tickIdle s).wireRx = s.wireRx := by
  unfold tickIdle; split <;> rfl
@[simp] theorem tickIdle_cfg (s : State) : (tickIdle s).cfg = s.cfg := by
  unfold tickIdle; split <;> rfl
@[simp] theorem tickIdle_sched (s : State) : (tickIdle s).sched = s.sched := by
  unfold tickIdle; split <;> rfl
@[simp] theorem tickIdle_result (s : State) : (tickIdle s).result = s.result := by
  unfold tickIdle; split <;> rfl

end Sys2Proof.Machine
end

