-- ==== Sys2Proof/Laws/Ops.lean ====
section
/-! SUPPORT. What each shared operation can do, said once: the lemmas to cite instead of unfolding it. -/

namespace Sys2Proof.Machine

open Sys2Proof.Config

/-! ### Outcomes -/

@[simp] theorem andThen_next {α β : Type} (a : α) (k : α → Host.Outcome β Fault Refusal) :
    andThen (.next a) k = k a := rfl
@[simp] theorem andThen_fault {α β : Type} (f : Fault) (k : α → Host.Outcome β Fault Refusal) :
    andThen (.fault f) k = .fault f := rfl
@[simp] theorem andThen_refused {α β : Type} (r : Refusal) (k : α → Host.Outcome β Fault Refusal) :
    andThen (.refused r) k = .refused r := rfl

/-- If a sequence answers a next state, its first part did. -/
theorem andThen_eq_next {α β : Type} {o : Host.Outcome α Fault Refusal} {k : α → Host.Outcome β Fault Refusal} {b : β}
    (h : andThen o k = .next b) : ∃ a, o = .next a ∧ k a = .next b := by
  cases o with
  | next a => exact ⟨a, rfl, h⟩
  | fault f => cases h
  | refused r => cases h

@[simp] theorem guarded_true (o : Out) : guarded true o = o := rfl
@[simp] theorem guarded_false (o : Out) : guarded false o = .fault .notEnabled := rfl

/-- A guarded operation that answers a next state is enabled. -/
theorem guarded_eq_next {g : Bool} {o : Out} {t : State} (h : guarded g o = .next t) : g = true ∧ o = .next t := by
  cases g with
  | true => exact ⟨rfl, h⟩
  | false => cases h

theorem finish_eq_next {r : Result} {s t : State} (h : finish r s = .next t) : t = { s with result := r } := by
  cases h; rfl

/-! ### Rings -/

/-- TRYPUSH on a full ring changes nothing; otherwise it stores at the head, advances it, and arms the pump for TX (R113). -/
theorem pushOp_cases (x : RingSel) (b : Byte) (s : State) :
    ((s.ring x).fullP s.cfg = true ∧ pushOp x b s = (false, s)) ∨
    ((s.ring x).fullP s.cfg = false ∧
      pushOp x b s = (true, (s.setRing x { (s.ring x).store (s.ring x).head b with
        head := idxInc s.cfg.c (s.ring x).head }).arm x)) := by
  unfold pushOp
  cases h : (s.ring x).fullP s.cfg <;> simp [h]

/-- TRYPOP that answers: nothing changed on an empty ring, else the byte at the tail and the tail advanced (R114). -/
theorem popOp_cases {x : RingSel} {s : State} {p : Option Byte × State} (h : popOp x s = .next p) :
    ((s.ring x).emptyC s.cfg = true ∧ p = (none, s)) ∨
    ((s.ring x).emptyC s.cfg = false ∧ ∃ b, (s.ring x).buf.read (s.ring x).tail = some b ∧
      p = (some b, s.setRing x { s.ring x with tail := idxInc s.cfg.c (s.ring x).tail })) := by
  unfold popOp at h
  cases he : (s.ring x).emptyC s.cfg with
  | true => simp only [he, if_true] at h; cases h; exact .inl ⟨rfl, rfl⟩
  | false =>
    simp only [he, Bool.false_eq_true, if_false] at h
    cases hr : (s.ring x).buf.read (s.ring x).tail with
    | none => rw [hr] at h; cases h
    | some b => rw [hr] at h; cases h; exact .inr ⟨rfl, b, rfl, rfl⟩

/-- TRYPOP stops only where the ring is not empty and its oldest slot holds NONE (R64). -/
theorem popOp_stops (x : RingSel) (s : State) :
    (∃ p, popOp x s = .next p) ∨
    ((s.ring x).emptyC s.cfg = false ∧ (s.ring x).buf.read (s.ring x).tail = none ∧
      popOp x s = .fault (.unwrittenSlot x (s.ring x).tail)) := by
  unfold popOp
  cases he : (s.ring x).emptyC s.cfg with
  | true => exact .inl ⟨(none, s), by simp [he]⟩
  | false =>
    cases hr : (s.ring x).buf.read (s.ring x).tail with
    | none => exact .inr ⟨rfl, rfl, by simp [he, hr]⟩
    | some b =>
      exact .inl ⟨(some b, s.setRing x { s.ring x with tail := idxInc s.cfg.c (s.ring x).tail }), by simp [he, hr]⟩

@[simp] theorem Ring.store_head (r : Ring) (i : Nat) (b : Byte) : (r.store i b).head = r.head := rfl
@[simp] theorem Ring.store_tail (r : Ring) (i : Nat) (b : Byte) : (r.store i b).tail = r.tail := rfl
@[simp] theorem Ring.store_tailP (r : Ring) (i : Nat) (b : Byte) : (r.store i b).tailP = r.tailP := rfl
@[simp] theorem Ring.store_headC (r : Ring) (i : Nat) (b : Byte) : (r.store i b).headC = r.headC := rfl
@[simp] theorem Ring.store_buf (r : Ring) (i : Nat) (b : Byte) : (r.store i b).buf = r.buf.write i b := rfl

@[simp] theorem Ring.viewTail_atomic (r : Ring) : r.viewTail .atomic = r.tail := rfl
@[simp] theorem Ring.viewTail_gray (r : Ring) : r.viewTail .gray = r.tailP := rfl
@[simp] theorem Ring.viewHead_atomic (r : Ring) : r.viewHead .atomic = r.head := rfl
@[simp] theorem Ring.viewHead_gray (r : Ring) : r.viewHead .gray = r.headC := rfl

/-! ### Line and timers -/

theorem lineWrOp_eq_next {b : Byte} {s t : State} (h : lineWrOp b s = .next t) :
    s.lineEn = true ∧ s.txRdy = true ∧ t = { s with wireTx := s.wireTx ++ [b], txRdy := false } := by
  unfold lineWrOp at h
  split at h
  · next hg => simp only [Bool.and_eq_true] at hg; cases h; exact ⟨hg.1, hg.2, rfl⟩
  · cases h

theorem lineRdOp_eq_next {s : State} {p : Byte × State} (h : lineRdOp s = .next p) :
    s.rxPend = true ∧ s.rxData = some p.1 ∧ p.2 = { s with rxPend := false } := by
  unfold lineRdOp at h
  split at h
  · next hg =>
    split at h
    · next b hb => cases h; exact ⟨hg, hb, rfl⟩
    · cases h
  · cases h

theorem idlRearmOp_eq_next {s t : State} (h : idlRearmOp s = .next t) :
    s.idleCfg = true ∧
      t = { s with idleArmed := true, idleCnt := s.cfg.idleWindowTicks, idlePend := false } := by
  unfold idlRearmOp at h
  split at h
  · next hg => cases h; exact ⟨hg, rfl⟩
  · cases h

/-! ### Dispatch and TICK -/

theorem loadMessage_eq_next {bs : List Byte} {pos : Mpc} {s t : State} (h : loadMessage bs pos s = .next t) :
    bs.length ≤ msgSlots ∧
      t = { s with msg := s.msg.writeFrom 0 bs, mlen := bs.length, mi := 0, att := 0, mpc := pos } := by
  unfold loadMessage at h
  split at h
  · next hg => cases h; exact ⟨hg, rfl⟩
  · cases h

theorem tickHeartbeat_eq_next {s t : State} (h : tickHeartbeat s = .next t) :
    (s.hbRun = false ∧ t = s) ∨
    (s.hbRun = true ∧ s.hbCnt = 1 ∧ t = { s with hbPend := true, hbCnt := s.cfg.hbPeriodTicks }) ∨
    (s.hbRun = true ∧ 1 < s.hbCnt ∧ t = { s with hbCnt := s.hbCnt - 1 }) := by
  unfold tickHeartbeat at h
  split at h
  · next hr =>
    split at h
    · cases h
    · split at h
      · cases h; exact .inr (.inl ⟨hr, by omega, rfl⟩)
      · cases h; exact .inr (.inr ⟨hr, by omega, rfl⟩)
  · next hr => cases h; exact .inl ⟨by simpa using hr, rfl⟩

end Sys2Proof.Machine
end

