-- ==== Sys2Proof/Laws/Ring.lean ====
section
/-! SUPPORT. What a push, a pop, a consume and a refresh do to a ring that is ok: it stays ok, and how its occupancy and its bytes change. -/

namespace Sys2Proof.Machine

open Sys2Proof.Config

/-- A ring after a push that succeeds (R113). -/
abbrev Ring.pushed (p : Params) (r : Ring) (b : Byte) : Ring := { r.store r.head b with head := idxInc p.c r.head }

/-- A ring after a pop that succeeds (R114). -/
abbrev Ring.popped (p : Params) (r : Ring) : Ring := { r with tail := idxInc p.c r.tail }

/-- A ring after CONSUMEALL (R116). -/
abbrev Ring.consumed (p : Params) (r : Ring) : Ring := { r with tail := r.viewHead p.sync }

theorem Ring.empty_ok {p : Params} (hp : p.ok) : Ring.empty.ok p := by
  have := hp.1
  refine ⟨?_, ?_, ?_, ?_, List.Pairwise.nil, ?_, ?_, ?_⟩ <;> simp [Ring.empty, Ring.occupied] <;> omega

theorem Ring.occupied_lt {p : Params} (hp : p.ok) (r : Ring) : r.occupied p < p.c :=
  idxSub_lt (by have := hp.1; omega)

/-- A push that succeeds finds at most `C - 2` bytes (R111, R112). -/
theorem Ring.occupied_of_not_full {p : Params} {r : Ring} (h : r.ok p) (hf : r.fullP p = false) :
    r.occupied p + 1 < p.c := by
  obtain ⟨a1, a2, a3, a4, -, -, a5, -⟩ := h
  simp only [Ring.fullP, beq_eq_false_iff_ne, ne_eq] at hf
  simp only [Ring.occupied]
  rw [idxInc_eq a1] at hf
  cases hs : p.sync with
  | atomic =>
    simp only [hs, Ring.viewTail_atomic] at hf
    rw [idxSub_eq a1 a2]; split_ifs at * <;> omega
  | gray =>
    have h5 := a5 hs
    simp only [hs, Ring.viewTail_gray] at hf
    rw [idxSub_eq a2 a3, idxSub_eq a1 a3, idxSub_eq a4 a2, idxSub_eq a1 a2] at h5
    rw [idxSub_eq a1 a2]; split_ifs at * <;> omega

/-- A pop that succeeds finds a byte (R111). -/
theorem Ring.occupied_of_not_empty {p : Params} {r : Ring} (h : r.ok p) (he : r.emptyC p = false) :
    0 < r.occupied p := by
  obtain ⟨a1, a2, a3, a4, -, -, a5, -⟩ := h
  simp only [Ring.emptyC, beq_eq_false_iff_ne, ne_eq] at he
  simp only [Ring.occupied]
  cases hs : p.sync with
  | atomic =>
    simp only [hs, Ring.viewHead_atomic] at he
    rw [idxSub_eq a1 a2]; split_ifs at * <;> omega
  | gray =>
    have h5 := a5 hs
    simp only [hs, Ring.viewHead_gray] at he
    rw [idxSub_eq a2 a3, idxSub_eq a1 a3, idxSub_eq a4 a2, idxSub_eq a1 a2] at h5
    rw [idxSub_eq a1 a2]; split_ifs at * <;> omega

theorem Ring.occupied_pushed {p : Params} {r : Ring} (h : r.ok p) (hf : r.fullP p = false) (b : Byte) :
    (r.pushed p b).occupied p = r.occupied p + 1 := by
  have hocc := Ring.occupied_of_not_full h hf
  obtain ⟨a1, a2, -⟩ := h
  simp only [Ring.occupied, Ring.store_tail] at *
  rw [idxSub_eq (idxInc_lt (by omega)) a2, idxInc_eq a1]
  rw [idxSub_eq a1 a2] at *
  split_ifs at * <;> omega

theorem Ring.occupied_popped {p : Params} {r : Ring} (h : r.ok p) (he : r.emptyC p = false) :
    (r.popped p).occupied p + 1 = r.occupied p := by
  have hocc := Ring.occupied_of_not_empty h he
  obtain ⟨a1, a2, -⟩ := h
  simp only [Ring.occupied] at *
  rw [idxSub_eq a1 (idxInc_lt (by omega)), idxInc_eq a2]
  rw [idxSub_eq a1 a2] at *
  split_ifs at * <;> omega

/-- The slot at the head is the one after the occupied ones. -/
theorem Ring.head_slot {p : Params} {r : Ring} (h : r.ok p) : (r.tail + r.occupied p) % p.c = r.head := by
  obtain ⟨a1, a2, -⟩ := h
  have hlt : r.occupied p < p.c := idxSub_lt (by omega)
  rw [idxAdd_eq a2 hlt]
  simp only [Ring.occupied, idxSub_eq a1 a2] at *
  split_ifs at * <;> omega

/-- No occupied slot is the one at the head. -/
theorem Ring.slot_ne_head {p : Params} {r : Ring} (h : r.ok p) {k : Nat} (hk : k < r.occupied p) :
    (r.tail + k) % p.c ≠ r.head := by
  obtain ⟨a1, a2, -⟩ := h
  have hlt : r.occupied p < p.c := idxSub_lt (by omega)
  rw [idxAdd_eq a2 (by omega)]
  simp only [Ring.occupied, idxSub_eq a1 a2] at *
  split_ifs at * <;> omega

theorem Ring.slot_pushed {p : Params} {r : Ring} (b : Byte) (k : Nat) :
    (r.pushed p b).slot p k = if (r.tail + k) % p.c = r.head then some b else r.slot p k := by
  simp only [Ring.slot, Ring.store_buf, Ring.store_tail, Mem.read_write]

theorem Ring.slot_popped {p : Params} {r : Ring} (k : Nat) :
    (r.popped p).slot p k = r.slot p (k + 1) := by
  simp only [Ring.slot, idxInc]
  rw [Nat.mod_add_mod]; congr 2; omega

theorem Ring.queue_pushed {p : Params} {r : Ring} (h : r.ok p) (hf : r.fullP p = false) (b : Byte) :
    (r.pushed p b).queue p = r.queue p ++ [some b] := by
  simp only [Ring.queue, Ring.occupied_pushed h hf b, List.range_succ, List.map_append, List.map_cons, List.map_nil]
  rw [Ring.slot_pushed, if_pos (Ring.head_slot h)]
  congr 1
  refine List.map_congr_left fun k hk => ?_
  rw [Ring.slot_pushed, if_neg (Ring.slot_ne_head h (List.mem_range.1 hk))]

theorem Ring.queue_popped {p : Params} {r : Ring} (h : r.ok p) (he : r.emptyC p = false) :
    r.queue p = r.slot p 0 :: (r.popped p).queue p := by
  simp only [Ring.queue, ← Ring.occupied_popped h he, List.range_succ_eq_map, List.map_cons, List.map_map]
  congr 1
  exact List.map_congr_left fun k _ => (Ring.slot_popped k).symm

theorem Ring.slot_zero {p : Params} {r : Ring} (h : r.ok p) : r.slot p 0 = r.buf.read r.tail := by
  simp only [Ring.slot, Nat.add_zero, Nat.mod_eq_of_lt h.2.1]

/-- The oldest slot of a ring that is not empty in its consumer's view holds a byte (R64, R118). -/
theorem Ring.oldest_written {p : Params} {r : Ring} (h : r.ok p) (he : r.emptyC p = false) :
    ∃ b, r.buf.read r.tail = some b := by
  have := h.2.2.2.2.2.2.2 0 (Ring.occupied_of_not_empty h he)
  rw [Ring.slot_zero h] at this
  exact Option.isSome_iff_exists.1 this

theorem Ring.pushed_ok {p : Params} {r : Ring} (h : r.ok p) (hf : r.fullP p = false) (b : Byte) :
    (r.pushed p b).ok p := by
  have hocc := Ring.occupied_of_not_full h hf
  have hcase := Ring.occupied_pushed h hf b
  have hslot := h.2.2.2.2.2.2.2
  obtain ⟨a1, a2, a3, a4, a6, a7, a5, -⟩ := id h
  refine ⟨idxInc_lt (by omega), a2, a3, a4, Mem.write_wf a6 _ _, Mem.write_below a7 a1 _, fun hs => ?_, fun k hk => ?_⟩
  · have h5 := a5 hs
    simp only [Ring.fullP, beq_eq_false_iff_ne, ne_eq, hs, Ring.viewTail_gray] at hf
    simp only [Ring.store_tail, Ring.store_tailP, Ring.store_headC]
    have hi : idxInc p.c r.head < p.c := idxInc_lt (by omega)
    rw [idxSub_eq a2 a3, idxSub_eq a1 a3, idxSub_eq a4 a2, idxSub_eq a1 a2] at h5
    rw [idxSub_eq a2 a3, idxSub_eq hi a3, idxSub_eq a4 a2, idxSub_eq hi a2]
    simp only [Ring.occupied] at hocc
    rw [idxSub_eq a1 a2] at hocc
    rw [idxInc_eq a1] at *
    split_ifs at * <;> omega
  · rw [Ring.slot_pushed]
    split
    · rfl
    · next hne =>
      refine hslot k ?_
      rw [hcase] at hk
      rcases Nat.lt_succ_iff_lt_or_eq.1 hk with hk | hk
      · exact hk
      · exact absurd (hk ▸ Ring.head_slot h) hne

theorem Ring.popped_ok {p : Params} {r : Ring} (h : r.ok p) (he : r.emptyC p = false) : (r.popped p).ok p := by
  have hocc := Ring.occupied_of_not_empty h he
  have hcase := Ring.occupied_popped h he
  have hslot := h.2.2.2.2.2.2.2
  obtain ⟨a1, a2, a3, a4, a6, a7, a5, -⟩ := id h
  refine ⟨a1, idxInc_lt (by omega), a3, a4, a6, a7, fun hs => ?_, fun k hk => ?_⟩
  · have h5 := a5 hs
    simp only [Ring.emptyC, beq_eq_false_iff_ne, ne_eq, hs, Ring.viewHead_gray] at he
    have hi : idxInc p.c r.tail < p.c := idxInc_lt (by omega)
    rw [idxSub_eq a2 a3, idxSub_eq a1 a3, idxSub_eq a4 a2, idxSub_eq a1 a2] at h5
    rw [idxSub_eq hi a3, idxSub_eq a1 a3, idxSub_eq a4 hi, idxSub_eq a1 hi]
    simp only [Ring.occupied] at hocc
    rw [idxSub_eq a1 a2] at hocc
    rw [idxInc_eq a2] at *
    split_ifs at * <;> omega
  · rw [Ring.slot_popped]
    exact hslot (k + 1) (by omega)

theorem Ring.consumed_occupied_le {p : Params} {r : Ring} (h : r.ok p) :
    (r.consumed p).occupied p + idxSub p.c (r.viewHead p.sync) r.tail = r.occupied p := by
  obtain ⟨a1, a2, a3, a4, -, -, a5, -⟩ := h
  simp only [Ring.occupied]
  cases hs : p.sync with
  | atomic => simp
  | gray =>
    have h5 := a5 hs
    simp only [Ring.viewHead_gray]
    rw [idxSub_eq a2 a3, idxSub_eq a1 a3, idxSub_eq a4 a2, idxSub_eq a1 a2] at h5
    rw [idxSub_eq a1 a4, idxSub_eq a4 a2, idxSub_eq a1 a2]
    split_ifs at * <;> omega

theorem Ring.viewHead_lt {p : Params} {r : Ring} (h : r.ok p) : r.viewHead p.sync < p.c := by
  obtain ⟨a1, a2, a3, a4, -⟩ := h
  cases p.sync <;> assumption

theorem Ring.consumed_ok {p : Params} {r : Ring} (h : r.ok p) : (r.consumed p).ok p := by
  have hle := Ring.consumed_occupied_le h
  have hv := Ring.viewHead_lt h
  have hslot := h.2.2.2.2.2.2.2
  obtain ⟨a1, a2, a3, a4, a6, a7, a5, -⟩ := h
  refine ⟨a1, hv, a3, a4, a6, a7, fun hs => ?_, fun k hk => ?_⟩
  · have h5 := a5 hs
    simp only [hs, Ring.viewHead_gray]
    rw [idxSub_eq a2 a3, idxSub_eq a1 a3, idxSub_eq a4 a2, idxSub_eq a1 a2] at h5
    rw [idxSub_eq a4 a3, idxSub_eq a1 a3, idxSub_eq a4 a4, idxSub_eq a1 a4]
    split_ifs at * <;> omega
  · have hkc : k < p.c := Nat.lt_trans hk (idxSub_lt (by omega))
    have := hslot (idxSub p.c (r.viewHead p.sync) r.tail + k) (by omega)
    simp only [Ring.slot] at this ⊢
    rw [← Nat.add_assoc, ← Nat.mod_add_mod] at this
    rwa [show (r.tail + idxSub p.c (r.viewHead p.sync) r.tail) % p.c = r.viewHead p.sync from ?_] at this
    rw [idxAdd_eq a2 (idxSub_lt (by omega)), idxSub_eq hv a2]
    split_ifs <;> omega

theorem Ring.refresh_ok {p : Params} {r : Ring} (h : r.ok p) (m : BitVec 2) : (r.refresh m).ok p := by
  obtain ⟨a1, a2, a3, a4, a6, a7, a5, a8⟩ := h
  simp only [Ring.refresh]
  refine ⟨a1, a2, ?_, ?_, a6, a7, fun hs => ?_, a8⟩
  · show (if maskTail m then r.tail else r.tailP) < p.c
    split <;> assumption
  · show (if maskHead m then r.head else r.headC) < p.c
    split <;> assumption
  · have h5 := a5 hs
    rw [idxSub_eq a2 a3, idxSub_eq a1 a3, idxSub_eq a4 a2, idxSub_eq a1 a2] at h5
    refine ⟨?_, ?_⟩
    · show idxSub p.c r.tail (if maskTail m then r.tail else r.tailP) ≤ idxSub p.c r.head (if maskTail m then r.tail else r.tailP)
      split
      · simp
      · rw [idxSub_eq a2 a3, idxSub_eq a1 a3]; exact h5.1
    · show idxSub p.c (if maskHead m then r.head else r.headC) r.tail ≤ idxSub p.c r.head r.tail
      split
      · exact Nat.le_refl _
      · rw [idxSub_eq a4 a2, idxSub_eq a1 a2]; exact h5.2

theorem Ring.bytes_pushed {p : Params} {r : Ring} (h : r.ok p) (hf : r.fullP p = false) (b : Byte) :
    (r.pushed p b).bytes p = r.bytes p ++ [b] := by
  simp only [Ring.bytes, Ring.queue_pushed h hf, List.reduceOption_append]
  rfl

theorem Ring.bytes_popped {p : Params} {r : Ring} (h : r.ok p) (he : r.emptyC p = false) {b : Byte}
    (hb : r.buf.read r.tail = some b) : r.bytes p = b :: (r.popped p).bytes p := by
  simp only [Ring.bytes, Ring.queue_popped h he, Ring.slot_zero h, hb, List.reduceOption_cons_of_some]

end Sys2Proof.Machine
end

