-- ==== Sys2Proof/Laws/Step.lean ====
section
/-! SUPPORT. What a step can do, said once: the word it took, the operation it decodes to, and that operation's own outcome. -/

namespace Sys2Proof.Machine

theorem perform_eq_next {i : Instr} {s t : State} (h : perform i s = .next t) :
    isSubOperation i = false ∧ violatesPriority i s = false ∧ exec i s = .next t := by
  unfold perform at h
  split at h
  · cases h
  · next h1 =>
    split at h
    · cases h
    · next h2 => exact ⟨by simpa using h1, by simpa using h2, h⟩

theorem perform_eq_fault {i : Instr} {s : State} {f : Fault} (h : perform i s = .fault f) :
    f = .priorityViolated ∨ (isSubOperation i = false ∧ exec i s = .fault f) := by
  unfold perform at h
  split at h
  · cases h
  · next h1 =>
    split at h
    · cases h; exact .inl rfl
    · exact .inr ⟨by simpa using h1, h⟩

theorem step_eq_next {s t : State} (h : step s = .next t) :
    ∃ w rest i, s.sched = w :: rest ∧ decode w = .ok i ∧ perform i { s with sched := rest } = .next t := by
  unfold step nextStep at h
  split at h
  · cases h
  · next w rest hs =>
    unfold performWord at h
    split at h
    · cases h
    · next i hi => exact ⟨w, rest, i, hs, hi, h⟩

theorem step_eq_fault {s : State} {f : Fault} (h : step s = .fault f) :
    ∃ w rest i, s.sched = w :: rest ∧ decode w = .ok i ∧ perform i { s with sched := rest } = .fault f := by
  unfold step nextStep at h
  split at h
  · cases h
  · next w rest hs =>
    unfold performWord at h
    split at h
    · cases h
    · next i hi => exact ⟨w, rest, i, hs, hi, h⟩

end Sys2Proof.Machine
end

