-- ==== Sys2Proof/Laws/Exec.lean ====
section
/-! SUPPORT. What each operation that answers a next state found and did, one lemma per constructor: the guard that held, and the
next state as the old one with fields replaced. -/

namespace Sys2Proof.Machine

open Sys2Proof.Config

theorem execTryPush_next {x b} {s t : State} (h : exec (.tryPush x b) s = .next t) :
    t = { (pushOp x b s).2 with result := .ok (pushOp x b s).1 } := by
  cases h; rfl

theorem execTryPop_next {x} {s t : State} (h : exec (.tryPop x) s = .next t) :
    ∃ p, popOp x s = .next p ∧ t = { p.2 with result := .popped p.1 } := by
  obtain ⟨p, hp, he⟩ := andThen_eq_next h
  cases he; exact ⟨p, hp, rfl⟩

theorem execOcc_next {x r} {s t : State} (h : exec (.occ x r) s = .next t) :
    t = { s with result := .count ((s.ring x).countFor s.cfg r) } := by
  cases h; rfl

theorem execConsumeAll_next {x} {s t : State} (h : exec (.consumeAll x) s = .next t) :
    t = { s.setRing x { s.ring x with tail := (s.ring x).viewHead s.cfg.sync } with result := .none } := by
  cases h; rfl

/-- EV_RX: the two pushes one after the other, then the rearm (R141). -/
theorem execEvRx_next {s t : State} (h : exec .evRx s = .next t) :
    ∃ b, s.lineEn = true ∧ s.rxie = true ∧ s.rxPend = true ∧ s.rxData = some b ∧ s.idleCfg = true ∧
      t = { (pushOp .tx b (pushOp .rx b { s with rxPend := false }).2).2 with
        idleArmed := true
        idleCnt := (pushOp .tx b (pushOp .rx b { s with rxPend := false }).2).2.cfg.idleWindowTicks
        idlePend := false
        result := .none } := by
  obtain ⟨hg, he⟩ := guarded_eq_next h
  obtain ⟨p, hp, he⟩ := andThen_eq_next he
  obtain ⟨hp1, hp2, hp3⟩ := lineRdOp_eq_next hp
  obtain ⟨q, hq, he⟩ := andThen_eq_next he
  obtain ⟨hq1, rfl⟩ := idlRearmOp_eq_next hq
  cases he
  simp [State.evRxEnabled] at hg
  refine ⟨p.1, hg.1.1, hg.1.2, hg.2, hp2, ?_, by rw [hp3]⟩
  rw [hp3] at hq1
  rcases pushOp_cases .rx p.1 { s with rxPend := false } with ⟨-, e⟩ | ⟨-, e⟩ <;> rw [e] at hq1 <;> simp only at hq1
  · rcases pushOp_cases .tx p.1 { s with rxPend := false } with ⟨-, e⟩ | ⟨-, e⟩ <;> rw [e] at hq1 <;> simpa using hq1
  · generalize hu : (State.setRing _ _ _).arm _ = u at hq1
    have : u.idleCfg = s.idleCfg := by rw [← hu]; simp
    rcases pushOp_cases .tx p.1 u with ⟨-, e⟩ | ⟨-, e⟩ <;> rw [e] at hq1 <;> simp at hq1 <;> rwa [← this]

theorem execEvTxRdy_next {s t : State} (h : exec .evTxRdy s = .next t) :
    s.lineEn = true ∧ s.txie = true ∧ s.txRdy = true ∧
      ((s.tx.emptyC s.cfg = true ∧ t = { s with txie := false, result := .none }) ∨
       (s.tx.emptyC s.cfg = false ∧ ∃ b, s.tx.buf.read s.tx.tail = some b ∧
        t = { s with
          tx := { s.tx with tail := idxInc s.cfg.c s.tx.tail }
          wireTx := s.wireTx ++ [b]
          txRdy := false
          result := .none })) := by
  obtain ⟨hg, he⟩ := guarded_eq_next h
  obtain ⟨p, hp, he⟩ := andThen_eq_next he
  simp [State.evTxRdyEnabled] at hg
  refine ⟨hg.1.1, hg.1.2, hg.2, ?_⟩
  rcases popOp_cases hp with ⟨e, rfl⟩ | ⟨e, b, hb, rfl⟩
  · cases he; exact .inl ⟨e, rfl⟩
  · obtain ⟨q, hq, he⟩ := andThen_eq_next he
    obtain ⟨-, -, rfl⟩ := lineWrOp_eq_next hq
    cases he
    exact .inr ⟨e, b, hb, rfl⟩

theorem execEvIdle_next {s t : State} (h : exec .evIdle s = .next t) :
    s.idlePend = true ∧ t = { s with idlePend := false, idlf := true, idleArmed := false, result := .none } := by
  obtain ⟨hg, he⟩ := guarded_eq_next h; cases he; exact ⟨hg, rfl⟩

theorem execEvHb_next {s t : State} (h : exec .evHb s = .next t) :
    s.hbPend = true ∧ t = { s with hbPend := false, hbf := true, result := .none } := by
  obtain ⟨hg, he⟩ := guarded_eq_next h; cases he; exact ⟨hg, rfl⟩

theorem execDspPollIdle_next {s t : State} (h : exec .dspPollIdle s = .next t) :
    s.bootComplete = true ∧ s.mpc = .pollIdle ∧
      ((s.idlf = true ∧ s.rx.emptyC s.cfg = false ∧ (report (s.rx.countFor s.cfg .consumer)).length ≤ msgSlots ∧
        t = { s with
          nlatch := s.rx.countFor s.cfg .consumer
          msg := s.msg.writeFrom 0 (report (s.rx.countFor s.cfg .consumer))
          mlen := (report (s.rx.countFor s.cfg .consumer)).length
          mi := 0
          att := 0
          mpc := .repEnq
          result := .none }) ∨
       ((s.idlf = false ∨ s.rx.emptyC s.cfg = true) ∧ t = { s with mpc := .pollHb, result := .none })) := by
  obtain ⟨hg, he⟩ := guarded_eq_next h
  simp [dispatchGuard] at hg
  refine ⟨hg.1, hg.2, ?_⟩
  split at he
  · next hc =>
    obtain ⟨q, hq, he⟩ := andThen_eq_next he
    obtain ⟨hl, rfl⟩ := loadMessage_eq_next hq
    cases he
    simp at hc
    exact .inl ⟨hc.1, hc.2, hl, rfl⟩
  · next hc => cases he; refine .inr ⟨?_, rfl⟩; simp at hc; cases hi : s.idlf <;> simp_all

/-- DSP_ENQ: the push, then the counting of the attempt, then the end of the message (R181). -/
theorem execDspEnq_next {s t : State} (h : exec .dspEnq s = .next t) :
    s.bootComplete = true ∧ (s.mpc = .repEnq ∨ s.mpc = .hbEnq) ∧ ∃ b, s.msg.read s.mi = some b ∧
      t = { leaveMessage (countAttempt (pushOp .tx b s).1 (pushOp .tx b s).2) with result := .none } := by
  obtain ⟨hg, he⟩ := guarded_eq_next h
  simp only [dispatchGuard, Bool.and_eq_true, decide_eq_true_eq] at hg
  split at he
  · cases he
  · next b hb => cases he; exact ⟨hg.1, hg.2, b, hb, rfl⟩

theorem execDspRxClr_next {s t : State} (h : exec .dspRxClr s = .next t) :
    s.bootComplete = true ∧ s.mpc = .repRxClr ∧
      t = { s with rx := { s.rx with tail := s.rx.viewHead s.cfg.sync }, mpc := .repFClr, result := .none } := by
  obtain ⟨hg, he⟩ := guarded_eq_next h
  simp [dispatchGuard] at hg; cases he; exact ⟨hg.1, hg.2, rfl⟩

theorem execDspIdlfClr_next {s t : State} (h : exec .dspIdlfClr s = .next t) :
    s.bootComplete = true ∧ s.mpc = .repFClr ∧ t = { s with idlf := false, mpc := .repTxEn, result := .none } := by
  obtain ⟨hg, he⟩ := guarded_eq_next h
  simp [dispatchGuard] at hg; cases he; exact ⟨hg.1, hg.2, rfl⟩

theorem execDspTxEn_next {s t : State} (h : exec .dspTxEn s = .next t) :
    s.bootComplete = true ∧ (s.mpc = .repTxEn ∨ s.mpc = .hbTxEn) ∧
      t = { s with txie := true, mpc := if s.mpc = .repTxEn then .pollHb else .pollIdle, result := .none } := by
  obtain ⟨hg, he⟩ := guarded_eq_next h
  simp only [dispatchGuard, Bool.and_eq_true, decide_eq_true_eq] at hg; cases he; exact ⟨hg.1, hg.2, rfl⟩

theorem execDspPollHb_next {s t : State} (h : exec .dspPollHb s = .next t) :
    s.bootComplete = true ∧ s.mpc = .pollHb ∧
      ((s.hbf = true ∧ t = { s with
          hbf := false
          msg := s.msg.writeFrom 0 hbText
          mlen := hbText.length
          mi := 0
          att := 0
          mpc := .hbEnq
          result := .none }) ∨
       (s.hbf = false ∧ t = { s with mpc := .pollIdle, result := .none })) := by
  obtain ⟨hg, he⟩ := guarded_eq_next h
  simp [dispatchGuard] at hg
  refine ⟨hg.1, hg.2, ?_⟩
  split at he
  · next hc =>
    generalize hbText = T at *
    obtain ⟨q, hq, he⟩ := andThen_eq_next he
    obtain ⟨hl, rfl⟩ := loadMessage_eq_next hq
    cases he
    exact .inl ⟨hc, rfl⟩
  · next hc => cases he; exact .inr ⟨by simpa using hc, rfl⟩

theorem execLineInit_next {s t : State} (h : exec .lineInit s = .next t) :
    s.lineEn = false ∧ s.idleCfg = true ∧
      t = { s with lineEn := true, rxie := true, txRdy := true, result := .none } := by
  obtain ⟨hg, he⟩ := guarded_eq_next h; simp at hg; cases he; exact ⟨hg.1, hg.2, rfl⟩

theorem execLineWrdy_next {s t : State} (h : exec .lineWrdy s = .next t) :
    t = { s with result := .ready s.txRdy } := by
  cases h; rfl

theorem execLineWr_next {b} {s t : State} (h : exec (.lineWr b) s = .next t) :
    s.lineEn = true ∧ s.txRdy = true ∧ t = { s with wireTx := s.wireTx ++ [b], txRdy := false, result := .none } := by
  obtain ⟨q, hq, he⟩ := andThen_eq_next h
  obtain ⟨h1,h2,rfl⟩ := lineWrOp_eq_next hq
  cases he; exact ⟨h1, h2, rfl⟩

theorem execLineRd_next {s t : State} (h : exec .lineRd s = .next t) :
    ∃ b, s.rxPend = true ∧ s.rxData = some b ∧ t = { s with rxPend := false, result := .byte b } := by
  obtain ⟨p, hp, he⟩ := andThen_eq_next h
  obtain ⟨hp1, hp2, hp3⟩ := lineRdOp_eq_next hp
  cases he; exact ⟨p.1, hp1, hp2, by rw [hp3]⟩

theorem execHbtInit_next {s t : State} (h : exec .hbtInit s = .next t) :
    s.hbRun = false ∧
      t = { s with hbRun := true, hbCnt := s.cfg.hbPeriodTicks, hbPend := false, result := .none } := by
  obtain ⟨hg, he⟩ := guarded_eq_next h; simp at hg; cases he; exact ⟨hg, rfl⟩

theorem execIdltInit_next {s t : State} (h : exec .idltInit s = .next t) :
    s.idleCfg = false ∧
      t = { s with idleCfg := true, idleArmed := false, idleCnt := 0, idlePend := false, result := .none } := by
  obtain ⟨hg, he⟩ := guarded_eq_next h; simp at hg; cases he; exact ⟨hg, rfl⟩

theorem execIdlRearm_next {s t : State} (h : exec .idlRearm s = .next t) :
    s.idleCfg = true ∧
      t = { s with idleArmed := true, idleCnt := s.cfg.idleWindowTicks, idlePend := false, result := .none } := by
  obtain ⟨q, hq, he⟩ := andThen_eq_next h
  obtain ⟨h1,rfl⟩ := idlRearmOp_eq_next hq
  cases he; exact ⟨h1, rfl⟩

theorem execIdlDisarm_next {s t : State} (h : exec .idlDisarm s = .next t) :
    t = { s with idleArmed := false, result := .none } := by
  cases h; rfl

theorem execEnvRxByte_next {b} {s t : State} (h : exec (.envRxByte b) s = .next t) :
    s.lineEn = true ∧ s.rxPend = false ∧
      t = { s with rxData := some b, rxPend := true, wireRx := s.wireRx ++ [b], result := .none } := by
  obtain ⟨hg, he⟩ := guarded_eq_next h; simp at hg; cases he; exact ⟨hg.1, hg.2, rfl⟩

theorem execEnvTxDone_next {s t : State} (h : exec .envTxDone s = .next t) :
    s.lineEn = true ∧ s.txRdy = false ∧ t = { s with txRdy := true, result := .none } := by
  obtain ⟨hg, he⟩ := guarded_eq_next h; simp at hg; cases he; exact ⟨hg.1, hg.2, rfl⟩

/-- TICK writes at most the two counters and the two pending bits (R223). -/
theorem execTick_next {s t : State} (h : exec .tick s = .next t) :
    s.handlerEnabled = false ∧
      ∃ a b c d, t = { s with idleCnt := a, idlePend := b, hbPend := c, hbCnt := d, result := .none } := by
  obtain ⟨hg, he⟩ := guarded_eq_next h
  obtain ⟨q, hq, he⟩ := andThen_eq_next he
  cases he
  refine ⟨by simpa using hg, ?_⟩
  have : ∃ a b, tickIdle s = { s with idleCnt := a, idlePend := b } := by
    unfold tickIdle; split
    · exact ⟨_, _, rfl⟩
    · exact ⟨_, _, rfl⟩
  obtain ⟨a, b, e⟩ := this
  rw [e] at hq
  rcases tickHeartbeat_eq_next hq with ⟨_, rfl⟩ | ⟨c1, c2, rfl⟩ | ⟨c1, c2, rfl⟩
  · exact ⟨a, b, _, _, rfl⟩
  · exact ⟨a, b, _, _, rfl⟩
  · exact ⟨a, b, _, _, rfl⟩

theorem execSync_next {x m} {s t : State} (h : exec (.sync x m) s = .next t) :
    s.cfg.sync = .gray ∧ t = { s.setRing x ((s.ring x).refresh m) with result := .none } := by
  simp only [exec, execSync] at h
  split at h
  · cases h
  · next hs =>
    split at h
    · cases h
    · cases h; exact ⟨hs, rfl⟩

theorem execReset_next {s t : State} (h : exec .reset s = .next t) :
    t = State.resetWith s.cfg s.sched := by
  cases h; rfl

/-- A push changes only its ring, and `TXIE` (R113). -/
theorem pushOp_frame (x : RingSel) (b : Byte) (s : State) :
    ∃ r e, (pushOp x b s).2 = { s.setRing x r with txie := e } ∧ r.tail = (s.ring x).tail ∧ r.tailP = (s.ring x).tailP ∧
      r.headC = (s.ring x).headC := by
  rcases pushOp_cases x b s with ⟨-, h⟩ | ⟨-, h⟩ <;> rw [h]
  · exact ⟨s.ring x, s.txie, by cases x <;> rfl, rfl, rfl, rfl⟩
  · cases x
    · exact ⟨_, true, rfl, rfl, rfl, rfl⟩
    · exact ⟨{ (s.ring .rx).store (s.ring .rx).head b with head := idxInc s.cfg.c (s.ring .rx).head }, s.txie, rfl, rfl,
        rfl, rfl⟩

end Sys2Proof.Machine
end

