-- ==== Sys2Proof/Laws/Message.lean ====
section
/-! SUPPORT. How long a report can be (R179): the digits of a count below `10^k` are at most `k`. -/

namespace Sys2Proof.Machine

open Sys2Proof.Config

theorem digitsRev_length (fuel n k : Nat) (h : n < 10 ^ k) : (digitsRev fuel n).length ≤ k := by
  induction fuel generalizing n k with
  | zero => simp [digitsRev]
  | succ fuel ih =>
    simp only [digitsRev]
    split
    · simp
    · cases k with
      | zero => simp at h; omega
      | succ k =>
        rw [Nat.pow_succ] at h
        have := ih (n / 10) k (by omega)
        simp only [List.length_cons]; omega

theorem dec_length {n k : Nat} (hk : 1 ≤ k) (h : n < 10 ^ k) : (dec n).length ≤ k := by
  unfold dec
  split
  · simpa using hk
  · simpa using digitsRev_length n n k h

/-- A report of a count below `10^13` fits `MSG` (log 4). -/
theorem report_fits {n : Nat} (h : n < 10 ^ 13) : (report n).length ≤ msgSlots := by
  have := dec_length (k := 13) (by omega) h
  simp only [report, reportPrefix, reportSuffix, List.length_append, List.length_cons, List.length_nil, msgSlots]
  omega

theorem report_nonempty (n : Nat) : 0 < (report n).length := by
  simp only [report, reportPrefix, List.length_append, List.length_cons]; omega

end Sys2Proof.Machine
end

