-- ==== Sys2Proof/Laws/Output.lean ====
section
/-! SUPPORT. What may be added behind a schedule, and what it leaves alone: which operations closing steps are, the frame of each, and
that the computed output is one of R283. -/

namespace Sys2Proof.Machine

open Sys2Proof.Config

/-- The operations closing steps are made of: handlers, dispatch operations, ENV_TXDONE and SYNC. -/
def isClosing : Instr → Bool
  | .envTxDone => true
  | .sync _ _ => true
  | i => isHandler i || isDispatch i

theorem dspStep_isClosing (p : Mpc) : isClosing (dspStep p) = true := by cases p <;> rfl

theorem passRest_isClosing {i : Instr} : ∀ {n : Nat} {s : State}, i ∈ passRest n s → isClosing i = true := by
  intro n
  induction n with
  | zero => intro s h; cases h
  | succ n ih =>
    intro s h
    unfold passRest at h
    split at h
    · cases h
    · split at h
      · rcases List.mem_cons.mp h with rfl | h
        · exact dspStep_isClosing _
        · exact ih h
      · obtain rfl := List.mem_singleton.mp h; exact dspStep_isClosing _

/-- Every operation of a closing step is one of them: no TICK, no ENV_RXBYTE, no operation of a client (R283). -/
theorem operations_isClosing {u : ClosingStep} {s : State} {i : Instr} (h : i ∈ u.operations s) : isClosing i = true := by
  cases u with
  | pass =>
    rcases List.mem_cons.mp h with rfl | h
    · exact dspStep_isClosing _
    · split at h
      · exact passRest_isClosing h
      · cases h
  | drain =>
    simp only [ClosingStep.operations, drain, txOut, List.mem_append, List.mem_flatten, List.mem_replicate, List.mem_singleton] at h
    rcases h with ⟨l, ⟨-, rfl⟩, h⟩ | rfl
    · rcases List.mem_cons.mp h with rfl | h
      · rfl
      · obtain rfl := List.mem_singleton.mp h; rfl
    · rfl
  | evRx | evTxRdy | evIdle | evHb | txDone | sync _ => obtain rfl := List.mem_singleton.mp h; rfl

/-- Such an operation receives nothing, lets no time pass on the heartbeat counter, and only appends to the wire. -/
theorem exec_closing_frame {i : Instr} {s t : State} (hc : isClosing i = true) (h : exec i s = .next t) :
    t.wireRx = s.wireRx ∧ t.hbCnt = s.hbCnt ∧ ∃ bs, t.wireTx = s.wireTx ++ bs := by
  have keep {u : State} (e : u.wireRx = s.wireRx ∧ u.hbCnt = s.hbCnt ∧ u.wireTx = s.wireTx) :
      u.wireRx = s.wireRx ∧ u.hbCnt = s.hbCnt ∧ ∃ bs, u.wireTx = s.wireTx ++ bs := ⟨e.1, e.2.1, [], by simp [e.2.2]⟩
  cases i with
  | evRx =>
    obtain ⟨b, -, -, -, -, -, rfl⟩ := execEvRx_next h
    obtain ⟨r, e, h1, -⟩ := pushOp_frame .rx b { s with rxPend := false }
    obtain ⟨r', e', h2, -⟩ := pushOp_frame .tx b (pushOp .rx b { s with rxPend := false }).2
    exact keep (by rw [h2, h1]; exact ⟨rfl, rfl, rfl⟩)
  | evTxRdy =>
    obtain ⟨-, -, -, ⟨-, rfl⟩ | ⟨-, b, -, rfl⟩⟩ := execEvTxRdy_next h
    · exact keep ⟨rfl, rfl, rfl⟩
    · exact ⟨rfl, rfl, [b], rfl⟩
  | evIdle => obtain ⟨-, rfl⟩ := execEvIdle_next h; exact keep ⟨rfl, rfl, rfl⟩
  | evHb => obtain ⟨-, rfl⟩ := execEvHb_next h; exact keep ⟨rfl, rfl, rfl⟩
  | dspPollIdle => obtain ⟨-, -, ⟨-, -, -, rfl⟩ | ⟨-, rfl⟩⟩ := execDspPollIdle_next h <;> exact keep ⟨rfl, rfl, rfl⟩
  | dspEnq =>
    obtain ⟨-, -, b, -, rfl⟩ := execDspEnq_next h
    obtain ⟨r, e, h1, -⟩ := pushOp_frame .tx b s
    exact keep (by rw [h1]; simp)
  | dspRxClr => obtain ⟨-, -, rfl⟩ := execDspRxClr_next h; exact keep ⟨rfl, rfl, rfl⟩
  | dspIdlfClr => obtain ⟨-, -, rfl⟩ := execDspIdlfClr_next h; exact keep ⟨rfl, rfl, rfl⟩
  | dspTxEn => obtain ⟨-, -, rfl⟩ := execDspTxEn_next h; exact keep ⟨rfl, rfl, rfl⟩
  | dspPollHb => obtain ⟨-, -, ⟨-, rfl⟩ | ⟨-, rfl⟩⟩ := execDspPollHb_next h <;> exact keep ⟨rfl, rfl, rfl⟩
  | envTxDone => obtain ⟨-, -, rfl⟩ := execEnvTxDone_next h; exact keep ⟨rfl, rfl, rfl⟩
  | sync x m => obtain ⟨-, rfl⟩ := execSync_next h; cases x <;> exact keep ⟨rfl, rfl, rfl⟩
  | tryPush _ _ | tryPop _ | occ _ _ | consumeAll _ | lineInit | lineWrdy | lineWr _ | lineRd | hbtInit | idltInit | idlRearm
  | idlDisarm | envRxByte _ | tick | reset => cases hc

/-! ### Running to a quiescent state -/

@[simp] theorem runToQuiescent_of_quiescent {s : State} (h : s.quiescent) (is : List Instr) : runToQuiescent is s = .next s := by
  cases is with
  | nil => rfl
  | cons i is => exact if_pos h

/-- From a state that is not quiescent the first operation is performed, and then the rest. -/
theorem runToQuiescent_cons {i : Instr} {is : List Instr} {s t : State} (hq : ¬ s.quiescent)
    (h : runToQuiescent (i :: is) s = .next t) : ∃ u, perform i s = .next u ∧ runToQuiescent is u = .next t := by
  simp only [runToQuiescent, hq, if_false] at h
  exact andThen_eq_next h

/-- From a quiescent state nothing is added. -/
@[simp] theorem closeBy_of_quiescent {s : State} (h : s.quiescent) (us : List ClosingStep) : closeBy us s = some s := by
  cases us with
  | nil => exact if_pos h
  | cons u us => exact if_pos h

/-- The first closing step of a state that is not quiescent, then the rest. -/
theorem closeBy_cons {u : ClosingStep} {us : List ClosingStep} {s t : State} (hq : ¬ s.quiescent)
    (h : closeBy (u :: us) s = some t) : ∃ v, runToQuiescent (u.operations s) s = .next v ∧ closeBy us v = some t := by
  simp only [closeBy, hq, if_false] at h
  obtain ⟨v, hv, h⟩ := Option.bind_eq_some_iff.mp h
  refine ⟨v, ?_, h⟩
  cases e : runToQuiescent (u.operations s) s with
  | next w => rw [e] at hv; cases hv; rfl
  | fault f => rw [e] at hv; cases hv
  | refused r => rw [e] at hv; cases hv

/-- What is computed as the output, by any order of closing steps, is an output of R283. -/
theorem outputBy_isOutput {order : List ClosingStep} {s : State} {ws : List Opw} {out : List Byte}
    (h : outputBy order s ws = some out) : IsOutput s ws out := by
  unfold outputBy at h
  split at h
  · next t ht =>
    obtain ⟨u, hu, rfl⟩ := Option.map_eq_some_iff.mp h
    cases e : runSchedule ws s with
    | next v => rw [e] at ht; cases ht; exact ⟨t, _, u, e, hu, rfl⟩
    | fault f => rw [e] at ht; cases ht
    | refused r => rw [e] at ht; cases ht
  · cases h

end Sys2Proof.Machine
end

