-- ==== Sys2Proof/Laws/PerInstr.lean ====
section
/-! SUPPORT. Statements about every operation as syntax, one lemma per constructor. RowMatch: the encoder's word of an operation selects that operation's row of R96. -/

namespace Sys2Proof.Laws.RowMatch

/-- The word of an operation selects its row: `(w and mask) = match` (R96). -/
def Statement (i : Instr) : Prop := i.wf = true → selectsRow (encode i) i = true

theorem tryPush (x : RingSel) (b : Byte) : Statement (.tryPush x b) := by
  unfold Statement
  cases x <;> revert b <;> decide

theorem tryPop (x : RingSel) : Statement (.tryPop x) := by
  unfold Statement
  cases x <;> decide

theorem occ (x : RingSel) (role : Role) : Statement (.occ x role) := by
  unfold Statement
  cases x <;> cases role <;> decide

theorem consumeAll (x : RingSel) : Statement (.consumeAll x) := by
  unfold Statement
  cases x <;> decide

theorem evRx : Statement .evRx := by
  unfold Statement
  decide

theorem evTxRdy : Statement .evTxRdy := by
  unfold Statement
  decide

theorem evIdle : Statement .evIdle := by
  unfold Statement
  decide

theorem evHb : Statement .evHb := by
  unfold Statement
  decide

theorem dspPollIdle : Statement .dspPollIdle := by
  unfold Statement
  decide

theorem dspEnq : Statement .dspEnq := by
  unfold Statement
  decide

theorem dspRxClr : Statement .dspRxClr := by
  unfold Statement
  decide

theorem dspIdlfClr : Statement .dspIdlfClr := by
  unfold Statement
  decide

theorem dspTxEn : Statement .dspTxEn := by
  unfold Statement
  decide

theorem dspPollHb : Statement .dspPollHb := by
  unfold Statement
  decide

theorem lineInit : Statement .lineInit := by
  unfold Statement
  decide

theorem lineWrdy : Statement .lineWrdy := by
  unfold Statement
  decide

theorem lineWr (b : Byte) : Statement (.lineWr b) := by
  unfold Statement
  revert b; decide

theorem lineRd : Statement .lineRd := by
  unfold Statement
  decide

theorem hbtInit : Statement .hbtInit := by
  unfold Statement
  decide

theorem idltInit : Statement .idltInit := by
  unfold Statement
  decide

theorem idlRearm : Statement .idlRearm := by
  unfold Statement
  decide

theorem idlDisarm : Statement .idlDisarm := by
  unfold Statement
  decide

theorem envRxByte (b : Byte) : Statement (.envRxByte b) := by
  unfold Statement
  revert b; decide

theorem envTxDone : Statement .envTxDone := by
  unfold Statement
  decide

theorem tick : Statement .tick := by
  unfold Statement
  decide

theorem sync (x : RingSel) (m : BitVec 2) : Statement (.sync x m) := by
  unfold Statement
  cases x <;> revert m <;> decide

theorem reset : Statement .reset := by
  unfold Statement
  decide

end Sys2Proof.Laws.RowMatch
end

