-- ==== Sys2Proof/Laws/Schedule.lean ====
section
/-! SUPPORT. Schedules: an operation that answers was enabled, no operation reads the words behind it, and what a schedule that runs
through is. -/

namespace Sys2Proof.Machine

open Sys2Proof.Config

/-- An operation without an enabled guard has no step (R13 (b), R104). -/
theorem exec_of_not_enabled {i : Instr} {s : State} (h : enabled i s = false) : exec i s = .fault .notEnabled := by
  cases i <;> first | cases h | exact congrArg (guarded · _) h

/-- An operation that answers a next state was enabled. -/
theorem enabled_of_exec_next {i : Instr} {s t : State} (h : exec i s = .next t) : enabled i s = true := by
  cases e : enabled i s with
  | true => rfl
  | false => rw [exec_of_not_enabled e] at h; cases h

/-- A sequence whose parts never answer a given fault never does. -/
theorem andThen_ne_fault {α β : Type} {o : Host.Outcome α Fault Refusal} {k : α → Host.Outcome β Fault Refusal} {f : Fault}
    (ho : o ≠ .fault f) (hk : ∀ a, k a ≠ .fault f) : andThen o k ≠ .fault f := by
  cases o with
  | next a => exact hk a
  | fault g => intro h; cases h; exact ho rfl
  | refused r => intro h; cases h

theorem finish_ne_fault (r : Result) (s : State) (f : Fault) : finish r s ≠ .fault f := by
  intro h; cases h

theorem popOp_ne_notEnabled (x : RingSel) (s : State) : popOp x s ≠ .fault .notEnabled := by
  rcases popOp_stops x s with ⟨p, h⟩ | ⟨-, -, h⟩ <;> rw [h] <;> intro e <;> cases e

theorem lineWrOp_ne_fault (b : Byte) (s : State) (f : Fault) : lineWrOp b s ≠ .fault f := by
  unfold lineWrOp; split <;> intro e <;> cases e

theorem lineRdOp_ne_notEnabled (s : State) : lineRdOp s ≠ .fault .notEnabled := by
  unfold lineRdOp; repeat' split
  all_goals intro e; cases e

theorem idlRearmOp_ne_fault (s : State) (f : Fault) : idlRearmOp s ≠ .fault f := by
  unfold idlRearmOp; split <;> intro e <;> cases e

theorem loadMessage_ne_notEnabled (bs : List Byte) (pos : Mpc) (s : State) : loadMessage bs pos s ≠ .fault .notEnabled := by
  unfold loadMessage; split <;> intro e <;> cases e

theorem tickHeartbeat_ne_notEnabled (s : State) : tickHeartbeat s ≠ .fault .notEnabled := by
  unfold tickHeartbeat; repeat' split
  all_goals intro e; cases e

/-- An enabled operation may stop on its data (R64), never as not enabled. -/
theorem exec_of_enabled {i : Instr} {s : State} (h : enabled i s = true) : exec i s ≠ .fault .notEnabled := by
  have open_guard {o : Out} (ho : o ≠ .fault .notEnabled) : guarded (enabled i s) o ≠ .fault .notEnabled := by rwa [h]
  cases i with
  | tryPush x b => exact finish_ne_fault _ _ _
  | tryPop x => exact andThen_ne_fault (popOp_ne_notEnabled x s) fun p => finish_ne_fault _ _ _
  | occ x r => exact finish_ne_fault _ _ _
  | consumeAll x => exact finish_ne_fault _ _ _
  | evRx =>
    exact open_guard (andThen_ne_fault (lineRdOp_ne_notEnabled s) fun p =>
      andThen_ne_fault (idlRearmOp_ne_fault _ _) fun q => finish_ne_fault _ _ _)
  | evTxRdy =>
    refine open_guard (andThen_ne_fault (popOp_ne_notEnabled .tx s) fun p => ?_)
    split
    · exact andThen_ne_fault (lineWrOp_ne_fault _ _ _) fun q => finish_ne_fault _ _ _
    · exact finish_ne_fault _ _ _
  | evIdle => exact open_guard (finish_ne_fault _ _ _)
  | evHb => exact open_guard (finish_ne_fault _ _ _)
  | dspPollIdle =>
    refine open_guard ?_
    split
    · exact andThen_ne_fault (loadMessage_ne_notEnabled _ _ _) fun q => finish_ne_fault _ _ _
    · exact finish_ne_fault _ _ _
  | dspEnq =>
    refine open_guard ?_
    split
    · intro e; cases e
    · exact finish_ne_fault _ _ _
  | dspRxClr => exact open_guard (finish_ne_fault _ _ _)
  | dspIdlfClr => exact open_guard (finish_ne_fault _ _ _)
  | dspTxEn => exact open_guard (finish_ne_fault _ _ _)
  | dspPollHb =>
    refine open_guard ?_
    split
    · exact andThen_ne_fault (loadMessage_ne_notEnabled _ _ _) fun q => finish_ne_fault _ _ _
    · exact finish_ne_fault _ _ _
  | lineInit => exact open_guard (finish_ne_fault _ _ _)
  | lineWrdy => exact finish_ne_fault _ _ _
  | lineWr b => exact andThen_ne_fault (lineWrOp_ne_fault _ _ _) fun q => finish_ne_fault _ _ _
  | lineRd => exact andThen_ne_fault (lineRdOp_ne_notEnabled s) fun p => finish_ne_fault _ _ _
  | hbtInit => exact open_guard (finish_ne_fault _ _ _)
  | idltInit => exact open_guard (finish_ne_fault _ _ _)
  | idlRearm => exact andThen_ne_fault (idlRearmOp_ne_fault _ _) fun q => finish_ne_fault _ _ _
  | idlDisarm => exact finish_ne_fault _ _ _
  | envRxByte b => exact open_guard (finish_ne_fault _ _ _)
  | envTxDone => exact open_guard (finish_ne_fault _ _ _)
  | tick => exact open_guard (andThen_ne_fault (tickHeartbeat_ne_notEnabled _) fun q => finish_ne_fault _ _ _)
  | sync x m =>
    simp only [exec, execSync]
    repeat' split
    · intro e; cases e
    · intro e; cases e
    · exact finish_ne_fault _ _ _
  | reset => intro e; cases e

/-- `enabled` is the guard: an operation stops as not enabled exactly where it is false. -/
theorem exec_notEnabled_iff (i : Instr) (s : State) : exec i s = .fault .notEnabled ↔ enabled i s = false :=
  ⟨fun e => by cases h : enabled i s with
    | true => exact absurd e (exec_of_enabled h)
    | false => rfl, exec_of_not_enabled⟩

/-! ### The words behind an operation -/

theorem pushOp_withSched (x : RingSel) (b : Byte) (s : State) (w : List Opw) :
    pushOp x b { s with sched := w } = ((pushOp x b s).1, { (pushOp x b s).2 with sched := w }) := by
  rcases pushOp_cases x b s with ⟨h, e⟩ | ⟨h, e⟩ <;>
    rcases pushOp_cases x b { s with sched := w } with ⟨h', e'⟩ | ⟨h', e'⟩ <;> rw [e, e'] <;> cases x <;>
    first | rfl | exact absurd (h.symm.trans h') (by decide)

theorem popOp_withSched {x : RingSel} {s : State} {p : Option Byte × State} (w : List Opw) (h : popOp x s = .next p) :
    popOp x { s with sched := w } = .next (p.1, { p.2 with sched := w }) := by
  rcases popOp_cases h with ⟨he, rfl⟩ | ⟨he, b, hb, rfl⟩ <;> cases x <;> simp_all [popOp, State.ring, State.setRing]

theorem tickHeartbeat_withSched {s t : State} (w : List Opw) (h : tickHeartbeat s = .next t) :
    tickHeartbeat { s with sched := w } = .next { t with sched := w } := by
  rcases tickHeartbeat_eq_next h with ⟨h1, rfl⟩ | ⟨h1, h2, rfl⟩ | ⟨h1, h2, rfl⟩
  · simp [tickHeartbeat, h1]
  · simp [tickHeartbeat, h1, h2]
  · have : s.hbCnt ≠ 0 ∧ s.hbCnt - 1 ≠ 0 := by omega
    simp [tickHeartbeat, h1, this]

/-- A guard that reads no words: what rides along inside it rides along with it. -/
theorem guarded_rides {g : Bool} {o o' : Out} {t t' : State} (h : guarded g o = .next t) (k : o = .next t → o' = .next t') :
    guarded g o' = .next t' := by
  obtain ⟨rfl, ho⟩ := guarded_eq_next h
  exact k ho

theorem finish_rides {r : Result} {s t : State} (w : List Opw) (h : finish r s = .next t) :
    finish r { s with sched := w } = .next { t with sched := w } := by
  cases h; rfl

theorem idlRearmOp_withSched {s t : State} (w : List Opw) (h : idlRearmOp s = .next t) :
    idlRearmOp { s with sched := w } = .next { t with sched := w } := by
  obtain ⟨h1, rfl⟩ := idlRearmOp_eq_next h
  exact if_pos h1

theorem lineWrOp_withSched {b : Byte} {s t : State} (w : List Opw) (h : lineWrOp b s = .next t) :
    lineWrOp b { s with sched := w } = .next { t with sched := w } := by
  obtain ⟨h1, h2, rfl⟩ := lineWrOp_eq_next h
  exact if_pos (by simp [h1, h2])

theorem lineRdOp_withSched {s : State} {p : Byte × State} (w : List Opw) (h : lineRdOp s = .next p) :
    lineRdOp { s with sched := w } = .next (p.1, { p.2 with sched := w }) := by
  obtain ⟨h1, h2, h3⟩ := lineRdOp_eq_next h
  simp [lineRdOp, h1, h2, h3]

theorem loadMessage_withSched {bs : List Byte} {pos : Mpc} {s t : State} (w : List Opw) (h : loadMessage bs pos s = .next t) :
    loadMessage bs pos { s with sched := w } = .next { t with sched := w } := by
  obtain ⟨h1, rfl⟩ := loadMessage_eq_next h
  exact if_pos h1

theorem leaveMessage_withSched (s : State) (w : List Opw) :
    leaveMessage { s with sched := w } = { leaveMessage s with sched := w } := by
  unfold leaveMessage; split <;> rfl

theorem countAttempt_withSched (ok : Bool) (s : State) (w : List Opw) :
    countAttempt ok { s with sched := w } = { countAttempt ok s with sched := w } := by
  unfold countAttempt; repeat' split
  all_goals rfl

theorem tickIdle_withSched (s : State) (w : List Opw) : tickIdle { s with sched := w } = { tickIdle s with sched := w } := by
  unfold tickIdle; split <;> rfl

/-- No operation reads or writes the words behind it: they ride along. -/
theorem exec_withSched {i : Instr} {s t : State} (w : List Opw) (h : exec i s = .next t) :
    exec i { s with sched := w } = .next { t with sched := w } := by
  cases i with
  | tryPush x b => obtain rfl := execTryPush_next h; simp only [exec, execTryPush, finish, pushOp_withSched]
  | tryPop x =>
    obtain ⟨p, hp, rfl⟩ := execTryPop_next h
    simp only [exec, execTryPop, popOp_withSched w hp, andThen_next, finish]
  | occ x r => obtain rfl := execOcc_next h; cases x <;> rfl
  | consumeAll x => obtain rfl := execConsumeAll_next h; cases x <;> rfl
  | evRx =>
    refine guarded_rides h fun h => ?_
    obtain ⟨p, hp, h⟩ := andThen_eq_next h
    obtain ⟨q, hq, h⟩ := andThen_eq_next h
    rw [lineRdOp_withSched w hp, andThen_next]
    simp only [pushOp_withSched]
    rw [idlRearmOp_withSched w hq]
    exact finish_rides w h
  | evTxRdy =>
    refine guarded_rides h fun h => ?_
    obtain ⟨p, hp, h⟩ := andThen_eq_next h
    rw [popOp_withSched w hp, andThen_next]
    rcases p with ⟨_ | b, u⟩
    · exact finish_rides w h
    · obtain ⟨q, hq, h⟩ := andThen_eq_next h
      simp only [lineWrOp_withSched w hq]
      exact finish_rides w h
  | dspPollIdle =>
    refine guarded_rides h fun h => ?_
    split at h
    · next c =>
      obtain ⟨q, hq, h⟩ := andThen_eq_next h
      refine (if_pos c).trans ?_
      exact (congrArg (andThen · _) (loadMessage_withSched w hq)).trans (finish_rides w h)
    · next c => exact (if_neg c).trans (finish_rides w h)
  | dspEnq =>
    refine guarded_rides h fun h => ?_
    split at h
    · cases h
    · next b hb =>
      simp only [hb, pushOp_withSched, countAttempt_withSched, leaveMessage_withSched]
      exact finish_rides w h
  | dspTxEn => exact guarded_rides h (finish_rides w)
  | dspPollHb =>
    refine guarded_rides h fun h => ?_
    split at h
    · next c =>
      obtain ⟨q, hq, h⟩ := andThen_eq_next h
      refine (if_pos c).trans ?_
      exact (congrArg (andThen · _) (loadMessage_withSched w hq)).trans (finish_rides w h)
    · next c => exact (if_neg c).trans (finish_rides w h)
  | lineWr b =>
    obtain ⟨q, hq, h⟩ := andThen_eq_next h
    exact (congrArg (andThen · _) (lineWrOp_withSched w hq)).trans (finish_rides w h)
  | lineRd =>
    obtain ⟨p, hp, h⟩ := andThen_eq_next h
    simp only [exec, execLineRd, lineRdOp_withSched w hp, andThen_next]
    exact finish_rides w h
  | idlRearm =>
    obtain ⟨q, hq, h⟩ := andThen_eq_next h
    exact (congrArg (andThen · _) (idlRearmOp_withSched w hq)).trans (finish_rides w h)
  | tick =>
    refine guarded_rides h fun h => ?_
    obtain ⟨q, hq, h⟩ := andThen_eq_next h
    rw [tickIdle_withSched, tickHeartbeat_withSched w hq]
    exact finish_rides w h
  | sync x m =>
    obtain ⟨h1, rfl⟩ := execSync_next h
    simp only [exec, execSync, h1] at h ⊢
    split at h
    · cases h
    · next c => rw [if_neg c]; cases x <;> rfl
  | evIdle | evHb | dspRxClr | dspIdlfClr | lineInit | hbtInit | idltInit | envRxByte _ | envTxDone =>
    exact guarded_rides h (finish_rides w)
  | lineWrdy | idlDisarm | reset => cases h; rfl

/-! ### Whole schedules -/

/-- What a word stands for is what it decodes to, where it is not reserved (R97, R98). -/
theorem operationOf_eq_ok {mode : SyncMode} {w : Opw} {i : Instr} (h : operationOf mode w = .ok i) : decode w = .ok i := by
  unfold operationOf at h
  split at h
  · cases h
  · next e => split at h <;> cases h; exact e
  · next e => cases h; exact e

/-- A first word and the rest of a schedule that is read. -/
theorem operationsOf_cons_eq_ok {mode : SyncMode} {w : Opw} {ws : List Opw} {is : List Instr}
    (h : operationsOf mode (w :: ws) = .ok is) :
    ∃ j js, is = j :: js ∧ operationOf mode w = .ok j ∧ operationsOf mode ws = .ok js := by
  unfold operationsOf at h
  split at h
  · cases h
  · next j hj =>
    split at h
    · cases h
    · next js hjs => cases h; exact ⟨j, js, rfl, hj, hjs⟩

/-- A list of operations that runs through: its first, then the rest from the state that leads to. -/
theorem performAll_cons_eq_next {i : Instr} {is : List Instr} {s t : State} (h : performAll (i :: is) s = .next t) :
    ∃ u, perform i s = .next u ∧ performAll is u = .next t := andThen_eq_next h

/-- What a schedule that runs through is: read, within the usage contract, and each operation performed. -/
theorem runSchedule_eq_next {ws : List Opw} {s t : State} (h : runSchedule ws s = .next t) :
    ∃ is, operationsOf s.cfg.sync ws = .ok is ∧ keepsContract is = true ∧ performAll is s = .next t := by
  unfold runSchedule at h
  split at h
  · cases h
  · next is his =>
    split at h
    · cases h
    · next h1 =>
      split at h
      · next h2 => exact ⟨is, his, by simp only [keepsContract, h1, h2]; rfl, h⟩
      · cases h

/-- What a valid schedule is (R104). -/
theorem validSchedule_eq_true {s : State} {ws : List Opw} (h : validSchedule s ws = true) :
    ∃ is, operationsOf s.cfg.sync ws = .ok is ∧ keepsContract is = true ∧ enabledThrough is s = true := by
  unfold validSchedule at h
  split at h
  · cases h
  · next is his => simp only [Bool.and_eq_true] at h; exact ⟨is, his, h.1, h.2⟩

end Sys2Proof.Machine
end

