-- ==== Sys2Proof/Tests/Slice0.lean ====
section
/-! SUPPORT. The model's own tests: expected values are the vectors of spec/95_test_vectors.md, the worked examples of the rules and
words written out from R96; and one witness or more for every statement that has hypotheses. -/

namespace Sys2Proof.Tests

open Sys2Proof.Machine Sys2Proof.Config

/-! ### Helpers -/

/-- The state after an operation, where there is one. -/
def after (i : Instr) (s : State) : Option State := nextOf (exec i s)

/-- The fault of an outcome, where it is one. -/
def faultOf : Out → Option Fault
  | .next _ => none
  | .fault f => some f
  | .refused _ => none

/-- The refusal of an outcome, where it is one. -/
def refusalOf : Out → Option Refusal
  | .next _ => none
  | .fault _ => none
  | .refused r => some r

/-- A ring with the given indices and bytes, its views equal to its indices. -/
def ringAt (h t : Nat) (m : Mem) : Ring where
  buf := m
  head := h
  tail := t
  tailP := t
  headC := h

/-- Parameters with `SYNC = GRAY`. -/
def grayParams : Params := { Params.reference with sync := .gray }

/-- Parameters with rings of two slots. -/
def twoSlots : Params := { Params.reference with c := 2 }

/-- The state after the canonical boot (R272). -/
def booted : State :=
  { State.reset with
    idleCfg := true, hbRun := true, hbCnt := 1000, lineEn := true, rxie := true, txRdy := true }

/-- Booted, with one byte in each ring of two slots: both are full. -/
def bothFull : State :=
  { booted with cfg := twoSlots, tx := ringAt 1 0 [(0, 0x48)], rx := ringAt 1 0 [(0, 0x61)], txie := true }

/-- Booted, a byte received and the idle timer expired: the tie of R158. -/
def tie : State :=
  { booted with rxPend := true, rxData := some 0x61, idleArmed := true, idlePend := true }

/-- Booted, at the enqueue of a report's first byte with the transmit ring of two slots full. -/
def congested : State :=
  { bothFull with mpc := .repEnq, mlen := 20, msg := [(0, 0x0D), (1, 0x0A)] }

/-! ### WellFormed -/

theorem test_wf_refuses_mask_zero :
    (Instr.sync .tx 0).wf = false ∧ (Instr.sync .rx 0).wf = false ∧ (Instr.sync .tx 1).wf = true := by decide

/-! ### Decoding: the words of V-DEC, by hand from R96 -/

theorem test_decode_ring :
    decode 0b0000000001000001#16 = .ok (.tryPush .tx 0x41) ∧ decode 0b0000100100000000#16 = .ok (.tryPop .rx) ∧
    decode 0b0000101000000001#16 = .ok (.occ .rx .producer) ∧ decode 0b0000001000000000#16 = .ok (.occ .tx .consumer) ∧
    decode 0b0000001100000000#16 = .ok (.consumeAll .tx) := ⟨rfl, rfl, rfl, rfl, rfl⟩

theorem test_decode_events :
    decode 0b0001000000000000#16 = .ok .evRx ∧ decode 0b0001000100000000#16 = .ok .evTxRdy ∧
    decode 0b0001001000000000#16 = .ok .evIdle ∧ decode 0b0001001100000000#16 = .ok .evHb := ⟨rfl, rfl, rfl, rfl⟩

theorem test_decode_dispatch :
    decode 0b0010000000000000#16 = .ok .dspPollIdle ∧ decode 0b0010000100000000#16 = .ok .dspEnq ∧
    decode 0b0010001000000000#16 = .ok .dspRxClr ∧ decode 0b0010001100000000#16 = .ok .dspIdlfClr ∧
    decode 0b0010010000000000#16 = .ok .dspTxEn ∧ decode 0b0010010100000000#16 = .ok .dspPollHb :=
  ⟨rfl, rfl, rfl, rfl, rfl, rfl⟩

theorem test_decode_interface :
    decode 0b0011000000000000#16 = .ok .lineInit ∧ decode 0b0011000100000000#16 = .ok .lineWrdy ∧
    decode 0b0011001001000001#16 = .ok (.lineWr 0x41) ∧ decode 0b0011001100000000#16 = .ok .lineRd ∧
    decode 0b0011010000000000#16 = .ok .hbtInit ∧ decode 0b0011010100000000#16 = .ok .idltInit ∧
    decode 0b0011011000000000#16 = .ok .idlRearm ∧ decode 0b0011011100000000#16 = .ok .idlDisarm :=
  ⟨rfl, rfl, rfl, rfl, rfl, rfl, rfl, rfl⟩

theorem test_decode_environment :
    decode 0b0100000011111111#16 = .ok (.envRxByte 0xFF) ∧ decode 0b0100000100000000#16 = .ok .envTxDone ∧
    decode 0b0100001000000000#16 = .ok .tick ∧ decode 0b0100001100000001#16 = .ok (.sync .tx 1) ∧
    decode 0b0100101100000011#16 = .ok (.sync .rx 3) ∧ decode 0b0100010000000000#16 = .ok .reset :=
  ⟨rfl, rfl, rfl, rfl, rfl, rfl⟩

/-- The reserved words of V-DEC. -/
theorem test_decode_reserved :
    decode 0x0101 = .error .operandBits ∧ decode 0x0202 = .error .operandBits ∧ decode 0x0400 = .error .function ∧
    decode 0x1800 = .error .ringBit ∧ decode 0x1001 = .error .operandBits ∧ decode 0x1400 = .error .function ∧
    decode 0x2600 = .error .function ∧ decode 0x3A41 = .error .ringBit ∧ decode 0x3301 = .error .operandBits ∧
    decode 0x4300 = .error .syncMaskZero ∧ decode 0x4304 = .error .operandBits ∧ decode 0x4500 = .error .function ∧
    decode 0x5000 = .error .opClass ∧ decode 0xFFFF = .error .opClass :=
  ⟨rfl, rfl, rfl, rfl, rfl, rfl, rfl, rfl, rfl, rfl, rfl, rfl, rfl, rfl⟩

theorem test_decodeTableWord :
    decodeTableWord 16 0x0841 = some (.tryPush .rx 0x41) ∧ decodeTableWord 16 0x4400 = some .reset ∧
    decodeTableWord 16 0x5000 = none := by decide

theorem test_withFetchWord_runs_the_word :
    nextOf (step (State.reset.withFetchWord 16 0x3500)) = after .idltInit State.reset ∧
    (after .idltInit State.reset).isSome = true := by decide

/-! ### Arithmetic (V-ARITH, R117, R67) -/

theorem test_index_arithmetic :
    idxInc 256 255 = 0 ∧ idxSub 256 5 250 = 11 ∧ idxSub 256 0 255 = 1 ∧ idxSub 256 255 0 = 255 ∧
    idxSub 256 7 7 = 0 ∧ idxSub 256 0 1 = 255 := by decide

theorem test_gray :
    gray (0x03 : Byte) = 0x02 ∧ gray (0x04 : Byte) = 0x06 ∧ gray (0xFE : Byte) = 0x81 ∧
    ungray (0x40 : Byte) = 0x7F := by decide

/-- V-REPORT: counts of one, two and three digits. -/
theorem test_report :
    dec 9 = [0x39] ∧ dec 99 = [0x39, 0x39] ∧ dec 100 = [0x31, 0x30, 0x30] ∧
    report 10 = [0x0D, 0x0A, 0x52, 0x65, 0x63, 0x65, 0x69, 0x76, 0x65, 0x64, 0x20, 0x31, 0x30,
      0x20, 0x62, 0x79, 0x74, 0x65, 0x73, 0x0D, 0x0A] ∧
    (report 1).length = 20 ∧ (report 255).length = 22 := by decide +kernel

theorem test_heartbeat_text_length : hbText.length = 26 := by decide

/-- R201: 1 s and 16 ms at a tick of 1 ms. -/
theorem test_timer_parameters :
    hbPeriodTicksOf 1 1 = Params.reference.hbPeriodTicks ∧ idleWindowTicksOf 16 1 = Params.reference.idleWindowTicks ∧
    Params.reference.w = 8 := by decide +kernel

/-! ### Ring operations (V-RING) -/

theorem test_trypush_wraps :
    (after (.tryPush .tx 0x41) { booted with tx := ringAt 255 3 [] }).map
      (fun t => (t.tx.head, t.tx.buf.read 255, t.txie, t.result)) = some (0, some 0x41, true, .ok true) := by decide

theorem test_trypush_full :
    after (.tryPush .tx 0x41) { booted with tx := ringAt 255 0 [] } =
      some { booted with tx := ringAt 255 0 [], result := .ok false } := by decide

theorem test_trypop_wraps :
    (after (.tryPop .rx) { booted with rx := ringAt 2 255 [(255, 0x7A)] }).map
      (fun t => (t.rx.tail, t.rx.buf.read 255, t.result)) = some (0, some 0x7A, .popped (some 0x7A)) := by decide

theorem test_trypop_empty :
    (after (.tryPop .tx) { booted with tx := ringAt 9 9 [] }).map (·.result) = some (.popped none) := by decide

theorem test_occ_wraps :
    (after (.occ .rx .consumer) { booted with rx := ringAt 5 250 [] }).map (·.result) = some (.count 11) := by decide

/-- Vector 17: in GRAY the consumer counts 2 and the producer 5 of 3 bytes. -/
theorem test_occ_gray :
    let s := { booted with cfg := grayParams, rx := { ringAt 5 2 [] with headC := 4, tailP := 0 } }
    (after (.occ .rx .consumer) s).map (·.result) = some (.count 2) ∧
    (after (.occ .rx .producer) s).map (·.result) = some (.count 5) := by decide

theorem test_consumeall :
    (after (.consumeAll .rx) { booted with rx := ringAt 7 250 [] }).map (fun t => (t.rx.head, t.rx.tail)) =
      some (7, 7) := by decide

theorem test_trypush_stale_view :
    (after (.tryPush .tx 0x41) { booted with cfg := grayParams, tx := { ringAt 3 9 [] with tailP := 4 } }).map (·.result) =
      some (.ok false) := by decide

/-! ### Events (V-RX, V-PUMP, V-IDLE, V-HB) -/

theorem test_evrx_first_byte :
    (after .evRx { booted with rxPend := true, rxData := some 0x61 }).map
      (fun t => (t.rxPend, t.rx, t.tx, t.txie, t.idleArmed, t.idleCnt)) =
    some (false, { ringAt 1 0 [(0, 0x61)] with headC := 0 }, { ringAt 1 0 [(0, 0x61)] with headC := 0 }, true, true, 16) := by
  decide

/-- Vector 4: both rings full; only the rearm takes effect. -/
theorem test_evrx_both_full :
    after .evRx { bothFull with rxPend := true, rxData := some 0x62 } =
      some { bothFull with rxData := some 0x62, idleArmed := true, idleCnt := 16 } := by decide

theorem test_evtxrdy_sends :
    (after .evTxRdy { booted with txie := true, tx := ringAt 6 4 [(4, 0x48)] }).map
      (fun t => (t.wireTx, t.tx.tail, t.txRdy, t.txie)) = some ([0x48], 5, false, true) := by decide

theorem test_evtxrdy_idles :
    (after .evTxRdy { booted with txie := true, tx := ringAt 6 6 [] }).map (fun t => (t.txie, t.txRdy, t.wireTx)) =
      some (false, true, []) := by decide

theorem test_evidle :
    (after .evIdle { booted with idleArmed := true, idlePend := true }).map
      (fun t => (t.idlePend, t.idlf, t.idleArmed)) = some (false, true, false) := by decide

theorem test_evidle_not_pending : faultOf (exec .evIdle booted) = some .notEnabled := by decide

theorem test_evhb_coalesces :
    (after .evHb { booted with hbPend := true, hbf := true }).map (fun t => (t.hbPend, t.hbf)) = some (false, true) := by
  decide

/-! ### Dispatch (V-DSP) -/

theorem test_pollidle_reports :
    (after .dspPollIdle { booted with idlf := true, rx := ringAt 5 250 [] }).map
      (fun t => (t.nlatch, t.mlen, t.mpc, t.msg.read 12, t.idlf)) =
    some (11, 21, .repEnq, some 0x31, true) := by decide +kernel

theorem test_pollidle_empty_ring :
    (after .dspPollIdle { booted with idlf := true, rx := ringAt 7 7 [] }).map (fun t => (t.mpc, t.idlf)) =
      some (.pollHb, true) := by decide

/-- Vector 9: the last byte of the heartbeat text is skipped at the ceiling. -/
theorem test_enq_skips_the_last_byte :
    (after .dspEnq { bothFull with mpc := .hbEnq, mi := 25, mlen := 26, att := 249, msg := [(25, 0x0A)] }).map
      (fun t => (t.mi, t.att, t.mpc, t.tx)) = some (26, 0, .hbTxEn, bothFull.tx) := by decide

/-- Vector 10: room again after 100 failed attempts. -/
theorem test_enq_succeeds_after_failures :
    (after .dspEnq { booted with mpc := .repEnq, mlen := 20, att := 100, msg := [(0, 0x0D)] }).map
      (fun t => (t.mi, t.att, t.mpc, t.tx.buf.read 0, t.txie)) = some (1, 0, .repEnq, some 0x0D, true) := by decide

theorem test_rxclr_uses_the_head_now :
    (after .dspRxClr { booted with mpc := .repRxClr, nlatch := 3, rx := ringAt 5 0 [] }).map
      (fun t => (t.rx.tail, t.mpc)) = some (5, .repFClr) := by decide

theorem test_idlfclr :
    (after .dspIdlfClr { booted with mpc := .repFClr, idlf := true }).map (fun t => (t.idlf, t.mpc)) =
      some (false, .repTxEn) := by decide

theorem test_txen :
    (after .dspTxEn { booted with mpc := .repTxEn }).map (fun t => (t.txie, t.mpc)) = some (true, .pollHb) ∧
    (after .dspTxEn { booted with mpc := .hbTxEn }).map (fun t => (t.txie, t.mpc)) = some (true, .pollIdle) := by decide

theorem test_pollhb :
    (after .dspPollHb { booted with mpc := .pollHb, hbf := true }).map
      (fun t => (t.hbf, t.mlen, t.mpc, t.msg.read 0, t.msg.read 25)) =
    some (false, 26, .hbEnq, some 0x41, some 0x0A) := by decide +kernel

theorem test_pollhb_flag_clear :
    (after .dspPollHb { booted with mpc := .pollHb }).map (·.mpc) = some .pollIdle := by decide

theorem test_dispatch_needs_boot : faultOf (exec .dspPollIdle State.reset) = some .notEnabled := by decide

/-! ### Interface (V-IF) -/

theorem test_lineinit :
    (after .lineInit { State.reset with idleCfg := true }).map (fun t => (t.lineEn, t.rxie, t.txRdy, t.txie)) =
      some (true, true, true, false) := by decide

theorem test_lineinit_needs_idltinit : faultOf (exec .lineInit State.reset) = some .notEnabled := by decide

theorem test_linewrdy : (after .lineWrdy State.reset).map (·.result) = some (.ready false) := by decide

theorem test_linewr :
    (after (.lineWr 0x54) { booted with wireTx := [0x41] }).map (fun t => (t.wireTx, t.txRdy)) =
      some ([0x41, 0x54], false) := by decide

theorem test_linerd :
    (after .lineRd { booted with rxPend := true, rxData := some 0x61 }).map (fun t => (t.rxPend, t.result)) =
      some (false, .byte 0x61) := by decide

theorem test_hbtinit : (after .hbtInit State.reset).map (fun t => (t.hbRun, t.hbCnt)) = some (true, 1000) := by decide

theorem test_idltinit :
    (after .idltInit State.reset).map (fun t => (t.idleCfg, t.idleArmed, t.idleCnt)) = some (true, false, 0) := by decide

theorem test_idlrearm :
    (after .idlRearm { booted with idleArmed := true, idleCnt := 6 }).map (fun t => (t.idleArmed, t.idleCnt)) =
      some (true, 16) := by decide

theorem test_idldisarm :
    (after .idlDisarm { booted with idleArmed := true, idleCnt := 6 }).map (fun t => (t.idleArmed, t.idleCnt)) =
      some (false, 6) := by decide

/-- Vector 8: the sub-operations are refused at top level. -/
theorem test_sub_operations_refused :
    refusalOf (step { booted with sched := [0x3254] }) = some .subOperation ∧
    refusalOf (step { booted with sched := [0x3300] }) = some .subOperation := by decide

/-! ### Environment (V-ENV) -/

theorem test_envrxbyte :
    (after (.envRxByte 0x61) booted).map (fun t => (t.rxData, t.rxPend, t.wireRx)) = some (some 0x61, true, [0x61]) := by
  decide

theorem test_envrxbyte_no_overrun :
    faultOf (exec (.envRxByte 0x62) { booted with rxPend := true }) = some .notEnabled := by decide

theorem test_envtxdone :
    (after .envTxDone { booted with txRdy := false }).map (·.txRdy) = some true ∧
    faultOf (exec .envTxDone booted) = some .notEnabled := by decide

/-- V-HB vector 6: both timers expire on one TICK. -/
theorem test_tick_both_expire :
    (after .tick { booted with idleArmed := true, idleCnt := 1, hbCnt := 1 }).map
      (fun t => (t.idleCnt, t.idlePend, t.hbCnt, t.hbPend)) = some (0, true, 1000, true) := by decide

/-- The worked example of R223. -/
theorem test_tick_worked_example :
    (after .tick { booted with idleArmed := true, idleCnt := 1, hbCnt := 500 }).map
      (fun t => (t.idleCnt, t.idlePend, t.hbCnt, t.hbPend)) = some (0, true, 499, false) := by decide

/-- The worked example of R227. -/
theorem test_sync_worked_example :
    (after (.sync .tx 1) { booted with cfg := grayParams, tx := { ringAt 3 9 [] with tailP := 4 } }).map
      (fun t => (t.tx.tailP, t.tx.headC, t.tx.fullP t.cfg)) = some (9, 3, false) := by decide

theorem test_sync_refused_in_atomic : refusalOf (exec (.sync .tx 1) booted) = some .syncInAtomic := by decide

theorem test_reset_discards :
    (after .reset { bothFull with wireTx := [0x41], hbf := true }).map (fun t => (t.tx, t.wireTx, t.hbf, t.lineEn)) =
      some (Ring.empty, [], false, false) := by decide

/-! ### Schedule text (R102) and pseudo-operations (R103) -/

theorem test_assemble :
    assemble "TRYPUSH RX, 'A' ; a byte\n\nOCC TX\nLINEWR 84\nSYNC RX, 3\n" = some [0x0841, 0x0200, 0x3254, 0x4B03] := by
  decide +kernel

/-! ### Validity of schedules (V-SCHED) -/

/-- The words of the canonical boot (R271). -/
def bootWords : List Opw := [0x4400, 0x3500, 0x3400, 0x3000]

/-- V-SCHED vectors 1 to 8. -/
theorem test_schedule_verdicts :
    validSchedule State.reset [0x4400, 0x3000] = false ∧ validSchedule State.reset (bootWords ++ [0x2100]) = false ∧
    validSchedule State.reset (bootWords ++ [0x4061, 0x4200]) = false ∧
    validSchedule State.reset (bootWords ++ [0x4061, 0x2000, 0x1000]) = true ∧
    validSchedule State.reset (bootWords ++ [0x4061, 0x1000, 0x4200]) = false ∧
    validSchedule State.reset (bootWords ++ [0x4061, 0x1000, 0x1100, 0x4200]) = true ∧
    validSchedule State.reset (bootWords ++ [0x1300]) = false ∧ validSchedule State.reset (bootWords ++ [0x4500]) = false := by
  decide +kernel

/-- The start of P1, a free-standing RX ring, is valid; with the block's EV_RX behind it the contract of R273 is broken. -/
theorem test_usage_contract :
    validSchedule State.reset (bootWords ++ [0x0800, 0x0A00, 0x0900]) = true ∧
    validSchedule State.reset (bootWords ++ [0x0800, 0x4061, 0x1000]) = false ∧
    refusalOf (runSchedule (bootWords ++ [0x0800, 0x4061, 0x1000]) State.reset) = some .outsideContract ∧
    validSchedule State.reset (bootWords ++ [0x3254]) = false := by decide +kernel

/-- V-RX vector 6: EV_RX before the enabled EV_IDLE is invalid, after it valid (R247 (a)). -/
theorem test_priority_in_schedules : validSchedule tie [0x1000] = false ∧ validSchedule tie [0x1200, 0x1000] = true := by
  decide +kernel

/-! ### The output of a schedule (R283) -/

/-- P2 for one byte: the echo, then the report of one byte, all of it added behind the tick that ends the idle window. -/
theorem test_output_of_a_frame :
    output State.reset (bootWords ++ [0x4061, 0x1000, 0x1100, 0x4100, 0x1100] ++ List.replicate 16 0x4200) =
      some [0x61, 0x0D, 0x0A, 0x52, 0x65, 0x63, 0x65, 0x69, 0x76, 0x65, 0x64, 0x20, 0x31,
        0x20, 0x62, 0x79, 0x74, 0x65, 0x73, 0x0D, 0x0A] := by decide +kernel

/-- R135 (GRAY), R280 (b): a pump gone idle on a stale view keeps its byte queued, and no quiescent state is reached without another. -/
theorem test_no_output_of_a_stuck_pump :
    output (State.resetWith grayParams []) (bootWords ++ [0x4061, 0x1000, 0x1100]) = none ∧
    output (State.resetWith grayParams []) (bootWords ++ [0x4061, 0x1000]) = some [0x61] := by decide +kernel

theorem test_pass_with_nothing_due : pass booted = [.dspPollIdle, .dspPollHb] := by decide

theorem test_drain_of_one_byte :
    drain { booted with tx := ringAt 1 0 [(0, 0x61)], txie := true } = [.evTxRdy, .envTxDone, .evTxRdy] := by decide

/-! ### Witnesses: states and operands that meet a statement's hypotheses together, at the ends of their ranges -/

/-- A ring of four slots that holds two bytes, wrapped. -/
def wrapped : Ring := ringAt 1 3 [(0, 0x62), (3, 0x61)]

/-- Parameters with rings of four slots. -/
def fourSlots : Params := { Params.reference with c := 4 }

/-- Booted, two bytes in each ring of four slots. -/
def twoBytes : State := { booted with cfg := fourSlots, tx := wrapped, rx := wrapped, txie := true }

/-- Booted, rings of four slots with stale views. -/
def stale : State :=
  { booted with
    cfg := { fourSlots with sync := .gray }
    tx := { wrapped with tailP := 2, headC := 0 }
    rx := { wrapped with tailP := 2, headC := 0 } }

theorem witness_DecodeOfEncodeIsTheOperation :
    (Instr.tryPush .rx 0xFF).wf = true ∧ (Instr.sync .tx 1).wf = true ∧ (Instr.sync .rx 3).wf = true := by decide

theorem witness_DecodedWordIsTheOperationsWord :
    decode 0x0000 = .ok (.tryPush .tx 0) ∧ decode 0x4B03 = .ok (.sync .rx 3) := ⟨rfl, rfl⟩

theorem witness_ReservedWordsAreRefused :
    ({ booted with sched := [0x4301] } : State).sched = 0x4301 :: [] ∧ reservedBy booted.cfg.sync 0x4301 ∧
    (∃ w ∈ [0x4200, 0x4301], reservedBy booted.cfg.sync w) ∧
    reservedBy .gray 0x5000 ∧ reservedBy .gray 0x4300 ∧ ¬ reservedBy .gray 0x4301 ∧ ¬ reservedBy .atomic 0x4400 :=
  ⟨rfl, by simp only [reservedBy]; decide, ⟨0x4301, by decide, by simp only [reservedBy]; decide⟩, by simp only [reservedBy]; decide, by simp only [reservedBy]; decide,
    by simp only [reservedBy]; decide, by simp only [reservedBy]; decide⟩

theorem witness_DecodingPicksTheOneRow : decode 0x0A01 = .ok (.occ .rx .producer) ∧ selectsRow 0x0A01 (.occ .tx .consumer) = true :=
  ⟨rfl, by decide⟩

theorem witness_StepPerformsTheNextOperation :
    let s : State := { booted with sched := [0x4200, 0x2000] }
    s.sched = 0x4200 :: [0x2000] ∧ decode 0x4200 = .ok .tick ∧ isSubOperation .tick = false ∧ violatesPriority .tick s = false :=
  ⟨rfl, rfl, rfl, rfl⟩

theorem witness_SubOperationsAreRefusedAsSteps :
    let s : State := { booted with sched := [0x3200] }
    s.sched = 0x3200 :: [] ∧ subOperationWord 0x3200 ∧ subOperationWord 0x32FF ∧
    ∃ w ∈ ([0x4400, 0x3700] : List Opw), subOperationWord w :=
  ⟨rfl, by decide, by decide, 0x3700, by decide, by decide⟩

theorem witness_SubOperationsAreRefusedAsSteps_mixed :
    (0x0900 : Opw) ∈ ([0x0900, 0x2000] : List Opw) ∧ (0x2000 : Opw) ∈ ([0x0900, 0x2000] : List Opw) ∧
    decode 0x0900 = .ok (.tryPop .rx) ∧ decode 0x2000 = .ok .dspPollIdle ∧
    clientRing (.tryPop .rx) = some .rx ∧ usesRing .rx .dspPollIdle = true ∧
    clientRing (.occ .tx .producer) = some .tx ∧ usesRing .tx .evRx = true :=
  ⟨by decide, by decide, rfl, rfl, rfl, rfl, rfl, rfl⟩

theorem witness_IdleTimeoutIsTakenBeforeReceive :
    tie.lineEn = true ∧ tie.rxie = true ∧ tie.rxPend = true ∧ tie.rxData = some 0x61 ∧ tie.idleCfg = true ∧
    tie.idlePend = true ∧ (tie.rx.head + 1) % tie.cfg.c ≠ tie.rx.viewTail tie.cfg.sync ∧
    ({ tie with sched := [0x1000] } : State).sched = 0x1000 :: [] ∧
    ({ tie with sched := [0x1200, 0x1000] } : State).sched = 0x1200 :: 0x1000 :: [] := by decide

theorem witness_OnlyTimerInitsAreEnabledAfterReset :
    isHandler .evRx = true ∧ isDispatch .dspPollIdle = true ∧
    faultOf (exec .lineInit (State.resetWith Params.reference [])) = some .notEnabled ∧
    (after .hbtInit (State.resetWith Params.reference [])).isSome = true := by decide

theorem witness_BootReachesTheStartState :
    bothFull.cfg.ok ∧ State.reset.cfg.ok ∧ isHandler .evHb = true ∧
    nextOf (performAll boot bothFull) =
      some { booted with cfg := twoSlots } := by decide

theorem witness_BootOrdersAgree : (after .idltInit State.reset).isSome = true := by decide

theorem witness_TryPushStoresAtTheHeadOrFails :
    (∀ x, ((bothFull.ring x).head + 1) % bothFull.cfg.c = (bothFull.ring x).viewTail bothFull.cfg.sync) ∧
    (twoBytes.tx.head + 1) % twoBytes.cfg.c ≠ twoBytes.tx.viewTail twoBytes.cfg.sync ∧
    (twoBytes.rx.head + 1) % twoBytes.cfg.c ≠ twoBytes.rx.viewTail twoBytes.cfg.sync :=
  ⟨fun x => by cases x <;> decide, by decide, by decide⟩

theorem witness_TryPopTakesTheByteAtTheTail :
    (booted.ring .rx).viewHead booted.cfg.sync = (booted.ring .rx).tail ∧
    (twoBytes.ring .tx).viewHead twoBytes.cfg.sync ≠ (twoBytes.ring .tx).tail ∧
    memRead .tx (twoBytes.ring .tx).tail twoBytes = some 0x61 ∧
    memRead .rx 3 { twoBytes with rx := ringAt 1 3 [] } = none := by decide

theorem witness_OccCountsInTheRolesView :
    twoBytes.cfg.sync = .atomic ∧ stale.cfg.ok ∧ (stale.ring .rx).ok stale.cfg ∧ (stale.ring .rx).occupied stale.cfg = 2 ∧
    (bothFull.ring .rx).ok bothFull.cfg ∧ (bothFull.ring .rx).occupied bothFull.cfg = bothFull.cfg.c - 1 := by decide

theorem witness_ConsumeAllEmptiesTheRing : twoBytes.cfg.sync = .atomic := by decide

theorem witness_ConsumeAllEqualsRepeatedPops :
    stale.cfg.ok ∧ (stale.ring .tx).ok stale.cfg ∧ (stale.ring .tx).countFor stale.cfg .consumer = 1 ∧
    twoBytes.cfg.ok ∧ (twoBytes.ring .rx).ok twoBytes.cfg ∧ (twoBytes.ring .rx).countFor twoBytes.cfg .consumer = 2 := by decide

theorem witness_FullAndEmptyAgainstOccupancy :
    twoSlots.ok ∧ bothFull.rx.ok twoSlots ∧ twoSlots.sync = .atomic ∧ bothFull.rx.occupied twoSlots = twoSlots.c - 1 ∧
    stale.cfg.ok ∧ stale.rx.ok stale.cfg ∧ stale.cfg.sync = .gray := by decide

theorem witness_RingIsAFifoQueue :
    twoBytes.cfg.ok ∧ (twoBytes.ring .tx).ok twoBytes.cfg ∧ (twoBytes.ring .tx).bytes twoBytes.cfg = [0x61, 0x62] := by decide

theorem witness_FullRingRoundTrip :
    bothFull.cfg.ok ∧ (bothFull.ring .tx).ok bothFull.cfg ∧ bothFull.cfg.sync = .atomic ∧
    (bothFull.ring .tx).occupied bothFull.cfg = bothFull.cfg.c - 1 := by decide

theorem witness_StoringOperationsKeepOtherSlots :
    (after (.tryPush .tx 1) twoBytes).isSome = true ∧
    (after .evRx { twoBytes with rxPend := true, rxData := some 0x63 }).isSome = true ∧
    (after .dspEnq congested).isSome = true ∧
    (after .dspPollIdle { twoBytes with idlf := true }).isSome = true ∧
    (after .dspPollHb { twoBytes with mpc := .pollHb, hbf := true }).isSome = true := by decide +kernel

theorem witness_OtherOperationsStoreNothing :
    storesSlots (.tryPop .tx) = false ∧ (after (.tryPop .tx) twoBytes).isSome = true ∧
    storesSlots .evTxRdy = false ∧ (after .evTxRdy twoBytes).isSome = true := by decide

theorem witness_OnlyNamedOperationsMoveAnIndex :
    (after .dspRxClr { twoBytes with mpc := .repRxClr }).map (fun t => t.x 3) = some 1 ∧ twoBytes.x 3 = 3 ∧
    (after (.tryPush .tx 1) twoBytes).map (fun t => t.x 0) = some 2 ∧ twoBytes.x 0 = 1 ∧
    (after .evTxRdy twoBytes).map (fun t => t.x 1) = some 0 ∧ twoBytes.x 1 = 3 ∧
    (after (.tryPush .rx 1) twoBytes).map (fun t => t.x 2) = some 2 ∧ twoBytes.x 2 = 1 := by decide

theorem witness_OnlyNamedOperationsChangeAFlag :
    booted.hbf = false ∧ (after .evHb { booted with hbPend := true }).map (·.hbf) = some true ∧
    (after .dspPollHb { booted with mpc := .pollHb, hbf := true }).map (·.hbf) = some false ∧
    booted.idlf = false ∧ (after .evIdle tie).map (·.idlf) = some true ∧
    (after .dspIdlfClr { booted with mpc := .repFClr, idlf := true }).map (·.idlf) = some false := by decide +kernel

theorem witness_HandlersDoNotSeeTheSequencer : isHandler .evTxRdy = true ∧ (after .evTxRdy twoBytes).isSome = true := by decide

theorem witness_DispatchOperationsFrame :
    isDispatch .dspEnq = true ∧ (after .dspEnq congested).isSome = true ∧ congested.txie = true ∧ congested.idlf = false ∧
    congested.hbf = false := by decide

theorem witness_EvRxStoresEchoesAndRearms :
    ¬ (booted.lineEn = true ∧ booted.rxie = true ∧ booted.rxPend = true) ∧
    tie.lineEn = true ∧ tie.rxie = true ∧ tie.rxPend = true ∧ tie.rxData = some 0x61 ∧ tie.idleCfg = true := by decide

theorem witness_EvTxRdySendsOneByteOrIdles :
    ¬ (booted.lineEn = true ∧ booted.txie = true ∧ booted.txRdy = true) ∧
    twoBytes.lineEn = true ∧ twoBytes.txie = true ∧ twoBytes.txRdy = true ∧
    twoBytes.tx.viewHead twoBytes.cfg.sync ≠ twoBytes.tx.tail ∧ twoBytes.tx.buf.read twoBytes.tx.tail = some 0x61 ∧
    booted.tx.viewHead booted.cfg.sync = booted.tx.tail := by decide

theorem witness_TimerHandlersSetTheirFlags :
    booted.idlePend = false ∧ tie.idlePend = true ∧ booted.hbPend = false ∧
    ({ booted with hbPend := true } : State).hbPend = true := by decide

theorem witness_HandlersFalsifyTheirGuards :
    isHandler .evRx = true ∧ (after .evRx tie).map (fun t => (t.evTxRdyEnabled, t.evRxEnabled)) = some (true, false) := by decide

theorem witness_HandlersAreTheirSubOperations :
    tie.evRxEnabled = true ∧ tie.rxData = some 0x61 ∧ tie.evIdleEnabled = true ∧
    twoBytes.evTxRdyEnabled = true ∧ twoBytes.tx.emptyC twoBytes.cfg = false ∧
    twoBytes.tx.buf.read twoBytes.tx.tail = some 0x61 := by decide

theorem witness_DspPollIdleBuildsTheReport :
    ¬ (State.reset.bootComplete = true ∧ State.reset.mpc = .pollIdle) ∧
    let s := { twoBytes with idlf := true }
    s.bootComplete = true ∧ s.mpc = .pollIdle ∧ s.idlf = true ∧ s.rx.viewHead s.cfg.sync ≠ s.rx.tail ∧
    (((s.rx.viewHead s.cfg.sync : Int) - (s.rx.tail : Int)) % (s.cfg.c : Int)).toNat = 2 ∧ (report 2).length ≤ 32 := by decide +kernel

theorem witness_DspEnqTriesOnce :
    ¬ (booted.bootComplete = true ∧ (booted.mpc = .repEnq ∨ booted.mpc = .hbEnq)) ∧
    congested.bootComplete = true ∧ (congested.mpc = .repEnq ∨ congested.mpc = .hbEnq) ∧
    congested.msg.read congested.mi = some 0x0D ∧
    (congested.tx.head + 1) % congested.cfg.c = congested.tx.viewTail congested.cfg.sync ∧
    congested.att + 1 ≠ congested.cfg.retryCeiling ∧
    ({ congested with att := 249 } : State).att + 1 = congested.cfg.retryCeiling ∧
    (booted.tx.head + 1) % booted.cfg.c ≠ booted.tx.viewTail booted.cfg.sync := by decide

theorem witness_DispatchPositions :
    booted.bootComplete = true ∧ booted.mpc ≠ .repRxClr ∧ booted.mpc ≠ .repFClr ∧ booted.mpc ≠ .repTxEn ∧ booted.mpc ≠ .pollHb ∧
    ({ booted with mpc := .repRxClr } : State).bootComplete = true ∧ ({ booted with mpc := .repFClr } : State).bootComplete = true ∧
    ({ booted with mpc := .repTxEn } : State).bootComplete = true ∧ ({ booted with mpc := .hbTxEn } : State).bootComplete = true ∧
    ({ booted with mpc := .pollHb } : State).bootComplete = true ∧ isDispatch .dspTxEn = true := by decide

theorem witness_DspPollHbLoadsTheText :
    let s := { booted with mpc := .pollHb, hbf := true }
    s.bootComplete = true ∧ s.mpc = .pollHb ∧ s.hbf = true ∧ ({ s with hbf := false } : State).hbf = false := by decide

theorem witness_OneDispatchOperationPerPosition :
    booted.bootComplete = true ∧ isDispatch .dspPollIdle = true ∧ (after .dspPollIdle booted).isSome = true ∧
    faultOf (exec .dspEnq booted) = some .notEnabled := by decide

theorem witness_ReportHasItsForm : (255 : Nat) < 256 ∧ (9999999999999 : Nat) < 10 ^ 13 ∧ (report 9999999999999).length = 32 := by
  decide +kernel

theorem witness_EachAttemptUsesUpTheBound :
    congested.mi < congested.mlen ∧ congested.att < congested.cfg.retryCeiling ∧ (after .dspEnq congested).isSome = true := by decide

theorem witness_FullRingSkipsAByteAtTheCeiling :
    congested.bootComplete = true ∧ (congested.mpc = .repEnq ∨ congested.mpc = .hbEnq) ∧ congested.mi < congested.mlen ∧
    congested.att = 0 ∧ 1 ≤ congested.cfg.retryCeiling ∧ congested.msg.read congested.mi = some 0x0D ∧
    (congested.tx.head + 1) % congested.cfg.c = congested.tx.viewTail congested.cfg.sync := by decide

theorem witness_InitOperationsEnableTheirSource :
    ¬ (State.reset.lineEn = false ∧ State.reset.idleCfg = true) ∧
    ({ State.reset with idleCfg := true } : State).lineEn = false ∧ booted.hbRun = true ∧ State.reset.hbRun = false ∧
    booted.idleCfg = true ∧ State.reset.idleCfg = false := by decide

theorem witness_LineCallsReadAndWriteOneUnit :
    booted.lineEn = true ∧ booted.txRdy = true ∧ ¬ (State.reset.lineEn = true ∧ State.reset.txRdy = true) ∧
    tie.rxPend = true ∧ tie.rxData = some 0x61 ∧ booted.rxPend = false ∧ twoBytes.evTxRdyEnabled = true := by decide

theorem witness_RearmStartsAFullWindowAndDisarmStopsIt : booted.idleCfg = true ∧ State.reset.idleCfg = false := by decide

theorem witness_LineDeliversAndFinishes :
    ¬ (tie.lineEn = true ∧ tie.rxPend = false) ∧ booted.lineEn = true ∧ booted.rxPend = false ∧
    ¬ (booted.lineEn = true ∧ booted.txRdy = false) ∧ ({ booted with txRdy := false } : State).txRdy = false := by decide

theorem witness_TickAdvancesBothTimers :
    tie.evIdleEnabled = true ∧ booted.evRxEnabled = false ∧ booted.evTxRdyEnabled = false ∧ booted.idlePend = false ∧
    booted.hbPend = false ∧ (booted.hbRun = true → 1 ≤ booted.hbCnt) := by decide

/-- A one-tick window, so that the clause of a pending expiry begins at two TICKs. -/
theorem witness_IdleWindowElapsesInTicks :
    let s := { booted with idleArmed := true, idleCnt := 1 }
    s.handlerEnabled = false ∧ s.idleArmed = true ∧ 1 ≤ s.idleCnt ∧ (s.hbRun = true → s.idleCnt < s.hbCnt) ∧
    nextOf (performAll [.tick, .tick] s) = none ∧ (nextOf (performAll [.tick] s)).isSome = true := by decide

theorem witness_SyncRefreshesTheViews : stale.cfg.sync = .gray ∧ (3 : BitVec 2) ≠ 0 ∧ booted.cfg.sync = .atomic := by decide

theorem witness_GrayCodeChangesOneBit :
    0 < 8 ∧ gray (0xFF : Byte) ^^^ gray (0xFF + 1 : Byte) = BitVec.twoPow 8 7 := by decide

theorem witness_InvariantHoldsAtReset : Params.reference.ok ∧ twoSlots.ok := by decide

theorem twoBytes_inv : twoBytes.Inv :=
  ⟨by decide, by decide, by decide, by decide, by decide, by decide, by decide, by decide, by decide, by decide, by decide,
    by decide, by decide, by decide, by decide⟩

theorem booted_inv : booted.Inv :=
  ⟨by decide, by decide, by decide, by decide, by decide, by decide, by decide, by decide, by decide, by decide, by decide,
    by decide, by decide, by decide, by decide⟩

theorem witness_StepKeepsTheInvariant :
    ({ twoBytes with sched := [0x1100] } : State).Inv ∧
    (nextOf (step { twoBytes with sched := [0x1100] })).isSome = true := ⟨twoBytes_inv, by decide⟩

theorem witness_StepKeepsThePumpInvariant : ({ twoBytes with sched := [0x1100] } : State).pumpOk ∧ 0 < twoBytes.tx.occupied twoBytes.cfg := by
  decide

theorem witness_DataNeverStopsTheMachine :
    ({ booted with sched := [0x1200] } : State).Inv ∧ faultOf (step { booted with sched := [0x1200] }) = some .notEnabled :=
  ⟨booted_inv, by decide⟩

theorem witness_ExcludedValuesStopByName :
    ({ tie with rxData := none } : State).evRxEnabled = true ∧ ({ tie with idleCfg := false } : State).evRxEnabled = true ∧
    ({ twoBytes with tx := ringAt 1 3 [] } : State).evTxRdyEnabled = true ∧
    ({ congested with msg := [] } : State).bootComplete = true ∧
    ({ booted with hbCnt := 0 } : State).handlerEnabled = false ∧ stale.cfg.sync = .gray ∧
    (let s := { booted with cfg := { Params.reference with c := 2 ^ 50 }, idlf := true, rx := ringAt (2 ^ 49) 0 [] }
     s.rx.viewHead s.cfg.sync ≠ s.rx.tail ∧ 32 < (report (s.rx.countFor s.cfg .consumer)).length) := by decide +kernel

theorem witness_ParametersAreConstant :
    (nextOf (step { booted with sched := [0x4400] })).isSome = true ∧ twoBytes.Inv ∧
    validSchedule twoBytes [0x1100, 0x4100] = true ∧ validSchedule twoBytes [] = true ∧
    (nextOf (runSchedule [0x1100, 0x4100] twoBytes)).isSome = true := ⟨by decide, twoBytes_inv, by decide, by decide, by decide⟩

theorem witness_WireCarriesWhatWasPushed :
    twoBytes.Inv ∧
    (nextOf (perform .evTxRdy twoBytes)).map (fun t => (t.wireTx, t.tx.bytes t.cfg)) = some ([0x61], [0x62]) :=
  ⟨twoBytes_inv, by decide⟩

theorem witness_QuiescentStateOnlyPolls :
    booted.Inv ∧ booted.quiescent ∧ isDispatch .dspPollIdle = true ∧ (after .dspPollIdle booted).isSome = true :=
  ⟨booted_inv, by decide, by decide, by decide⟩

theorem witness_QuiescentStateOnlyPolls_closing :
    (closeBy [.drain] twoBytes).map (·.wireTx) = some [0x61, 0x62] ∧
    (nextOf (runSchedule bootWords State.reset)).map (fun t => decide t.quiescent) = some true := by decide +kernel

theorem witness_ScheduleTextReadsBack : (Instr.lineWr 0x3B).wf = true ∧ readLine (writeLine (.lineWr 0x3B)) = some (.lineWr 0x3B) := by
  decide +kernel

end Sys2Proof.Tests
end

/-! O31: the handlers as the sequences of their sub-operations (R15). Between two sub-operations the state carries the result of the
first, which none of them reads and the last overwrites. -/

namespace Sys2Proof.Machine

/-! ### The sub-operations where they answer -/

theorem lineRdOp_of_rxData {s : State} {b : Byte} (hp : s.rxPend = true) (hd : s.rxData = some b) :
    lineRdOp s = .next (b, { s with rxPend := false }) := by
  simp only [lineRdOp, hp, hd, if_true]

theorem execLineRd_of_rxData {s : State} {b : Byte} (hp : s.rxPend = true) (hd : s.rxData = some b) :
    exec .lineRd s = .next { s with rxPend := false, result := .byte b } := by
  simp only [exec, execLineRd, lineRdOp_of_rxData hp hd, andThen_next, finish]

theorem popOp_of_read {x : RingSel} {s : State} {b : Byte} (he : (s.ring x).emptyC s.cfg = false)
    (hb : (s.ring x).buf.read (s.ring x).tail = some b) :
    popOp x s = .next (some b, s.setRing x ((s.ring x).popped s.cfg)) := by
  simp only [popOp, he, hb, Bool.false_eq_true, if_false]

/-! ### The result of the operation before (R14) is not read -/

theorem pushOp_withResult (x : RingSel) (b : Byte) (s : State) (r : Result) :
    pushOp x b { s with result := r } = ((pushOp x b s).1, { (pushOp x b s).2 with result := r }) := by
  have full : (State.ring { s with result := r } x).fullP s.cfg = (s.ring x).fullP s.cfg := by cases x <;> rfl
  unfold pushOp
  simp only [full]
  split
  · rfl
  · cases x <;> rfl

theorem execTryPush_withResult (x : RingSel) (b : Byte) (s : State) (r : Result) :
    exec (.tryPush x b) { s with result := r } = exec (.tryPush x b) s := by
  simp only [exec, execTryPush, pushOp_withResult, finish]

theorem execIdlRearm_withResult (s : State) (r : Result) :
    exec .idlRearm { s with result := r } = exec .idlRearm s := by
  simp only [exec, execIdlRearm, idlRearmOp]
  split <;> rfl

theorem execLineWr_withResult (b : Byte) (s : State) (r : Result) :
    exec (.lineWr b) { s with result := r } = exec (.lineWr b) s := by
  simp only [exec, execLineWr, lineWrOp]
  split <;> rfl

/-! ### The handlers -/

theorem execEvRx_eq_subOperations {s : State} {b : Byte} (hg : s.evRxEnabled = true) (hd : s.rxData = some b) :
    exec .evRx s = andThen (exec .lineRd s) fun s1 => andThen (exec (.tryPush .rx b) s1) fun s2 =>
      andThen (exec (.tryPush .tx b) s2) fun s3 => exec .idlRearm s3 := by
  have hp : s.rxPend = true := (Bool.and_eq_true_iff.mp hg).2
  calc exec .evRx s
      = exec .idlRearm (pushOp .tx b (pushOp .rx b { s with rxPend := false }).2).2 := by
        simp only [exec, execEvRx, execIdlRearm, hg, guarded_true, lineRdOp_of_rxData hp hd, andThen_next]
    _ = andThen (exec (.tryPush .rx b) { s with rxPend := false }) fun s2 =>
          andThen (exec (.tryPush .tx b) s2) (exec .idlRearm) := by
        simp only [exec, execTryPush, finish, andThen_next, pushOp_withResult]
        exact (execIdlRearm_withResult _ _).symm
    _ = andThen (exec (.tryPush .rx b) { s with rxPend := false, result := .byte b }) fun s2 =>
          andThen (exec (.tryPush .tx b) s2) (exec .idlRearm) :=
        congrArg (andThen · _) (execTryPush_withResult .rx b { s with rxPend := false } (.byte b)).symm
    _ = _ := by rw [execLineRd_of_rxData hp hd, andThen_next]

theorem execEvTxRdy_eq_subOperations {s : State} {b : Byte} (hg : s.evTxRdyEnabled = true)
    (he : s.tx.emptyC s.cfg = false) (hb : s.tx.buf.read s.tx.tail = some b) :
    exec .evTxRdy s = andThen (exec (.tryPop .tx) s) fun s1 => exec (.lineWr b) s1 := by
  have hpop : popOp .tx s = .next (some b, s.setRing .tx (s.tx.popped s.cfg)) := popOp_of_read he hb
  calc exec .evTxRdy s
      = exec (.lineWr b) (s.setRing .tx (s.tx.popped s.cfg)) := by
        simp only [exec, execEvTxRdy, execLineWr, hg, guarded_true, hpop, andThen_next]
    _ = _ := by
        simp only [exec, execTryPop, hpop, finish, andThen_next]
        exact (execLineWr_withResult _ _ _).symm

theorem execEvIdle_eq_subOperations {s : State} (hg : s.evIdleEnabled = true) :
    exec .evIdle s = exec .idlDisarm { s with idlePend := false, idlf := true } := by
  simp only [exec, execEvIdle, execIdlDisarm, hg, guarded_true]

/-- Settles O31: one equation per handler. -/
theorem handlersAreTheirSubOperations : Obligations.HandlersAreTheirSubOperations := by
  unfold Obligations.HandlersAreTheirSubOperations
  exact fun s b => ⟨execEvRx_eq_subOperations, execEvTxRdy_eq_subOperations, execEvIdle_eq_subOperations⟩

end Sys2Proof.Machine

/-! O51 and O52: the invariant holds after RESET, and every operation that a schedule may hold keeps it. The shared operations are
shown to keep it first; each constructor's case then says which parts of the invariant its next state has anew. -/

namespace Sys2Proof.Machine

open Sys2Proof.Config

/-! ### After RESET -/

theorem resetWith_inv {p : Params} (hp : p.ok) (w : List Opw) : (State.resetWith p w).Inv := by
  have hring : Ring.empty.ok p := Ring.empty_ok hp
  obtain ⟨hc, -, -, hceil, -, -, -⟩ := id hp
  refine ⟨hp, hring, hring, ?_, ?_, ?_, ?_⟩
  · simp [State.idleOk, State.resetWith]
  · simp [State.hbOk, State.resetWith]
  · simp [State.lineOk, State.resetWith]
  · refine ⟨.nil, ?_, ?_, ?_, hceil, Nat.zero_lt_of_lt hc, ?_, ?_, ?_⟩ <;> simp [State.resetWith]

theorem resetWith_pumpOk (p : Params) (w : List Opw) : (State.resetWith p w).pumpOk := by
  intro _ hocc
  simp [State.resetWith, Ring.empty, Ring.occupied] at hocc

/-- Settles O51. -/
theorem invariantHoldsAtReset : Obligations.InvariantHoldsAtReset := by
  unfold Obligations.InvariantHoldsAtReset
  exact ⟨fun p w hp => ⟨resetWith_inv hp w, resetWith_pumpOk p w⟩, resetWith_inv (by decide) []⟩

/-! ### What a push leaves alone (R113) -/

@[simp] theorem pushOp_cfg (x : RingSel) (b : Byte) (s : State) : (pushOp x b s).2.cfg = s.cfg := by
  obtain ⟨r, e, h, -⟩ := pushOp_frame x b s
  simp [h]

@[simp] theorem pushOp_idleCfg (x : RingSel) (b : Byte) (s : State) : (pushOp x b s).2.idleCfg = s.idleCfg := by
  obtain ⟨r, e, h, -⟩ := pushOp_frame x b s
  simp [h]

@[simp] theorem pushOp_hbf (x : RingSel) (b : Byte) (s : State) : (pushOp x b s).2.hbf = s.hbf := by
  obtain ⟨r, e, h, -⟩ := pushOp_frame x b s
  simp [h]

@[simp] theorem pushOp_idlf (x : RingSel) (b : Byte) (s : State) : (pushOp x b s).2.idlf = s.idlf := by
  obtain ⟨r, e, h, -⟩ := pushOp_frame x b s
  simp [h]

@[simp] theorem pushOp_mpc (x : RingSel) (b : Byte) (s : State) : (pushOp x b s).2.mpc = s.mpc := by
  obtain ⟨r, e, h, -⟩ := pushOp_frame x b s
  simp [h]

@[simp] theorem pushOp_bootComplete (x : RingSel) (b : Byte) (s : State) :
    (pushOp x b s).2.bootComplete = s.bootComplete := by
  obtain ⟨r, e, h, -⟩ := pushOp_frame x b s
  simp [h, State.bootComplete]

/-! ### The ring operations -/

theorem State.Inv.ring_ok {s : State} (h : s.Inv) (x : RingSel) : (s.ring x).ok s.cfg := by
  obtain ⟨-, htx, hrx, -⟩ := h
  cases x with
  | tx => exact htx
  | rx => exact hrx

theorem State.Inv.setRing {s : State} (h : s.Inv) {x : RingSel} {r : Ring} (hr : r.ok s.cfg) : (s.setRing x r).Inv := by
  obtain ⟨hcfg, htx, hrx, hrest⟩ := h
  cases x with
  | tx => exact ⟨hcfg, hr, hrx, hrest⟩
  | rx => exact ⟨hcfg, htx, hr, hrest⟩

theorem State.Inv.arm {s : State} (h : s.Inv) (x : RingSel) : (s.arm x).Inv := by
  cases x <;> exact h

theorem pushOp_inv {s : State} (h : s.Inv) (x : RingSel) (b : Byte) : (pushOp x b s).2.Inv := by
  rcases pushOp_cases x b s with ⟨-, e⟩ | ⟨hf, e⟩ <;> rw [e]
  · exact h
  · exact (h.setRing (Ring.pushed_ok (h.ring_ok x) hf b)).arm x

theorem popOp_inv {s : State} (h : s.Inv) {x : RingSel} {p : Option Byte × State} (hp : popOp x s = .next p) : p.2.Inv := by
  rcases popOp_cases hp with ⟨-, rfl⟩ | ⟨he, b, -, rfl⟩
  · exact h
  · exact h.setRing (Ring.popped_ok (h.ring_ok x) he)

/-! ### The timers -/

/-- A configured idle timer counts a full window after a rearm (R154). -/
theorem State.Inv.rearm {s : State} (h : s.Inv) (hc : s.idleCfg = true) :
    State.Inv { s with idleArmed := true, idleCnt := s.cfg.idleWindowTicks, idlePend := false } := by
  obtain ⟨hcfg, htx, hrx, -, hhb, hline, hseq⟩ := h
  obtain ⟨-, -, -, -, hwin, -, -⟩ := id hcfg
  exact ⟨hcfg, htx, hrx, ⟨Nat.le_refl _, by simp, fun _ => hc, fun _ _ => hwin, by simp⟩, hhb, hline, hseq⟩

/-- An armed timer with ticks left is not yet expired; one tick counts it down or lets it expire (R152). -/
theorem tickIdle_inv {s : State} (h : s.Inv) : (tickIdle s).Inv := by
  unfold tickIdle
  split
  · next hg =>
    obtain ⟨harm, hpos⟩ : s.idleArmed = true ∧ 0 < s.idleCnt := by simpa using hg
    obtain ⟨hcfg, htx, hrx, ⟨hle, -, hconf, -, hexp⟩, hhb, hline, hseq⟩ := h
    have hpend : s.idlePend = false := by
      cases hp : s.idlePend with
      | false => rfl
      | true => have := hexp harm hp; omega
    refine ⟨hcfg, htx, hrx, ⟨Nat.le_trans (Nat.sub_le ..) hle, ?_, hconf, ?_, ?_⟩, hhb, hline, hseq⟩
    · simp [harm]
    · simp [hpend]; omega
    · simp [hpend]
  · exact h

theorem tickHeartbeat_inv {s t : State} (h : s.Inv) (ht : tickHeartbeat s = .next t) : t.Inv := by
  obtain ⟨hcfg, htx, hrx, hidle, ⟨hcnt, hpend⟩, hline, hseq⟩ := id h
  obtain ⟨-, -, -, -, -, hper, -⟩ := id hcfg
  rcases tickHeartbeat_eq_next ht with ⟨-, rfl⟩ | ⟨hrun, -, rfl⟩ | ⟨hrun, hgt, rfl⟩
  · exact h
  · exact ⟨hcfg, htx, hrx, hidle, ⟨fun _ => ⟨hper, Nat.le_refl _⟩, fun _ => hrun⟩, hline, hseq⟩
  · obtain ⟨-, hle⟩ := hcnt hrun
    have hrange : 1 ≤ s.hbCnt - 1 ∧ s.hbCnt - 1 ≤ s.cfg.hbPeriodTicks := by omega
    exact ⟨hcfg, htx, hrx, hidle, ⟨fun _ => hrange, hpend⟩, hline, hseq⟩

/-! ### The dispatch loop -/

theorem Ring.countFor_lt {p : Params} (hp : p.ok) (role : Role) (r : Ring) : r.countFor p role < p.c := by
  obtain ⟨hc, -⟩ := hp
  cases role <;> exact idxSub_lt (Nat.zero_lt_of_lt hc)

/-- A message that fits and is not empty is loaded with its first byte next (R178, R186). -/
theorem State.Inv.loaded {s : State} (h : s.Inv) (hb : s.bootComplete = true) {bs : List Byte} (hpos : 0 < bs.length)
    (hlen : bs.length ≤ msgSlots) {n : Nat} (hn : n < s.cfg.c) (pos : Mpc) :
    State.Inv { s with
      nlatch := n, msg := s.msg.writeFrom 0 bs, mlen := bs.length, mi := 0, att := 0, mpc := pos } := by
  obtain ⟨hcfg, htx, hrx, hidle, hhb, hline, ⟨hwf, hbelow, -⟩⟩ := h
  obtain ⟨-, -, -, hceil, -⟩ := id hcfg
  have hread : ∀ k < bs.length, ((s.msg.writeFrom 0 bs).read k).isSome = true := fun k hk => by
    have := Mem.read_writeFrom_inside s.msg 0 k bs hk
    rw [Nat.zero_add] at this
    simp [this, hk]
  exact ⟨hcfg, htx, hrx, hidle, hhb, hline, Mem.writeFrom_wf hwf 0 bs,
    Mem.writeFrom_below hbelow 0 bs (by omega), Nat.zero_le _, hlen, hceil, hn, fun _ => hpos, fun _ => hb, hread⟩

/-- A move of the dispatch loop to a position that reads no message. -/
theorem State.Inv.withMpc {s : State} (h : s.Inv) (hb : s.bootComplete = true) {pos : Mpc}
    (hpos : ¬ (pos = .repEnq ∨ pos = .hbEnq)) : State.Inv { s with mpc := pos } := by
  obtain ⟨hcfg, htx, hrx, hidle, hhb, hline, hwf, hbelow, hmi, hmlen, hatt, hn, -, -, hmsg⟩ := h
  exact ⟨hcfg, htx, hrx, hidle, hhb, hline, hwf, hbelow, hmi, hmlen, hatt, hn, fun hp => absurd hp hpos, fun _ => hb, hmsg⟩

/-- An attempt writes `MI` and `ATT` alone: it goes on to the next byte at most, and keeps below the ceiling (R181). -/
theorem countAttempt_eq (ok : Bool) {s : State} (hatt : s.att < s.cfg.retryCeiling) :
    ∃ mi att, countAttempt ok s = { s with mi := mi, att := att } ∧ mi ≤ s.mi + 1 ∧ att < s.cfg.retryCeiling := by
  unfold countAttempt
  split
  · exact ⟨s.mi + 1, 0, rfl, Nat.le_refl _, Nat.zero_lt_of_lt hatt⟩
  · split
    · exact ⟨s.mi + 1, 0, rfl, Nat.le_refl _, Nat.zero_lt_of_lt hatt⟩
    · exact ⟨s.mi, s.att + 1, rfl, Nat.le_succ _, by omega⟩

theorem leaveMessage_eq (s : State) :
    leaveMessage s = { s with mpc := if s.mi = s.mlen then s.mpc.afterMessage else s.mpc } := by
  unfold leaveMessage
  split <;> rfl

/-- Behind a message's last byte the loop reads no message. -/
theorem Mpc.afterMessage_of_enq {pos : Mpc} (h : pos = .repEnq ∨ pos = .hbEnq) :
    ¬ (pos.afterMessage = .repEnq ∨ pos.afterMessage = .hbEnq) := by
  rcases h with rfl | rfl <;> decide

/-- An attempt on a byte of the message: the message is left where that byte was its last (R181). -/
theorem attempt_inv {s : State} (h : s.Inv) (hb : s.bootComplete = true) (hpos : s.mpc = .repEnq ∨ s.mpc = .hbEnq) (ok : Bool) :
    (leaveMessage (countAttempt ok s)).Inv := by
  obtain ⟨hcfg, htx, hrx, hidle, hhb, hline, hwf, hbelow, -, hmlen, hatt, hn, henq, -, hmsg⟩ := h
  obtain ⟨mi, att, e, hmi, hatt'⟩ := countAttempt_eq ok hatt
  have hlt : s.mi < s.mlen := henq hpos
  have hle : mi ≤ s.mlen := by omega
  rw [e, leaveMessage_eq]
  refine ⟨hcfg, htx, hrx, hidle, hhb, hline, hwf, hbelow, hle, hmlen, hatt', hn, fun hp => ?_, fun _ => hb, hmsg⟩
  show mi < s.mlen
  refine lt_of_le_of_ne hle fun hlast => ?_
  rw [if_pos hlast] at hp
  exact Mpc.afterMessage_of_enq hpos hp

/-! ### Every operation of a schedule -/

/-- Before the boot is complete the dispatch loop stands at its first poll, so the init operations may set their bits (R177). -/
theorem State.Inv.seqOk_bootBits {s : State} (h : s.Inv) (hb : s.bootComplete = false) (line run conf : Bool) :
    State.seqOk { s with lineEn := line, hbRun := run, idleCfg := conf } := by
  obtain ⟨-, -, -, -, -, -, hwf, hbelow, hmi, hmlen, hatt, hn, henq, hboot, hmsg⟩ := h
  refine ⟨hwf, hbelow, hmi, hmlen, hatt, hn, henq, fun hne => ?_, hmsg⟩
  have hb1 : s.bootComplete = true := hboot hne
  rw [hb] at hb1
  cases hb1

/-- Every operation that a schedule may hold keeps the invariant. IDLDISARM alone, on an expired timer, would not: EV_IDLE, which
invokes it, has cleared the pending bit first (R153, R155). -/
theorem perform_inv {i : Instr} {s t : State} (h : s.Inv) (hp : perform i s = .next t) : t.Inv := by
  obtain ⟨hsub, -, hx⟩ := perform_eq_next hp
  obtain ⟨hcfg, htx, hrx, hidle, hhb, hline, hseq⟩ := id h
  cases i with
  | tryPush x b => obtain rfl := execTryPush_next hx; exact pushOp_inv h x b
  | tryPop x => obtain ⟨p, hpop, rfl⟩ := execTryPop_next hx; exact popOp_inv h hpop
  | occ x role => obtain rfl := execOcc_next hx; exact h
  | consumeAll x => obtain rfl := execConsumeAll_next hx; exact h.setRing (Ring.consumed_ok (h.ring_ok x))
  | evRx =>
    obtain ⟨b, -, -, -, -, hconf, rfl⟩ := execEvRx_next hx
    obtain ⟨hxie, hen, -, -, htrdy⟩ := hline
    have hread : State.Inv { s with rxPend := false } :=
      ⟨hcfg, htx, hrx, hidle, hhb, ⟨hxie, hen, by simp, by simp, htrdy⟩, hseq⟩
    exact (pushOp_inv (pushOp_inv hread .rx b) .tx b).rearm (by simpa using hconf)
  | evTxRdy =>
    obtain ⟨-, -, -, ⟨-, rfl⟩ | ⟨he, b, -, rfl⟩⟩ := execEvTxRdy_next hx
    · exact h
    · obtain ⟨hxie, hen, hpl, hpd, -⟩ := hline
      exact ⟨hcfg, Ring.popped_ok htx he, hrx, hidle, hhb, ⟨hxie, hen, hpl, hpd, by simp⟩, hseq⟩
  | evIdle =>
    obtain ⟨-, rfl⟩ := execEvIdle_next hx
    exact ⟨hcfg, htx, hrx, ⟨hidle.1, by simp, by simp, by simp, by simp⟩, hhb, hline, hseq⟩
  | evHb => obtain ⟨-, rfl⟩ := execEvHb_next hx; exact ⟨hcfg, htx, hrx, hidle, ⟨hhb.1, by simp⟩, hline, hseq⟩
  | dspPollIdle =>
    obtain ⟨hb, -, ⟨-, -, hlen, rfl⟩ | ⟨-, rfl⟩⟩ := execDspPollIdle_next hx
    · exact h.loaded hb (report_nonempty _) hlen (Ring.countFor_lt hcfg .consumer s.rx) .repEnq
    · exact h.withMpc hb (by decide)
  | dspEnq =>
    obtain ⟨hb, hpos, b, -, rfl⟩ := execDspEnq_next hx
    exact attempt_inv (pushOp_inv h .tx b) (by simpa using hb) (by simpa using hpos) _
  | dspRxClr =>
    obtain ⟨hb, -, rfl⟩ := execDspRxClr_next hx
    exact (h.setRing (x := .rx) (Ring.consumed_ok hrx)).withMpc hb (by decide)
  | dspIdlfClr => obtain ⟨hb, -, rfl⟩ := execDspIdlfClr_next hx; exact h.withMpc hb (by decide)
  | dspTxEn =>
    obtain ⟨hb, -, rfl⟩ := execDspTxEn_next hx
    exact h.withMpc hb (by split <;> decide)
  | dspPollHb =>
    obtain ⟨hb, -, ⟨-, rfl⟩ | ⟨-, rfl⟩⟩ := execDspPollHb_next hx
    · obtain ⟨-, -, -, -, -, hn, -⟩ := hseq
      exact h.loaded hb (by decide) (by decide) hn .hbEnq
    · exact h.withMpc hb (by decide)
  | lineInit =>
    obtain ⟨hoff, hconf, rfl⟩ := execLineInit_next hx
    obtain ⟨-, -, -, hpd, -⟩ := hline
    have hseq' := h.seqOk_bootBits (by simp [State.bootComplete, hoff]) true s.hbRun s.idleCfg
    exact ⟨hcfg, htx, hrx, hidle, hhb, ⟨rfl, fun _ => hconf, fun _ => rfl, hpd, fun _ => rfl⟩, hseq'⟩
  | hbtInit =>
    obtain ⟨hoff, rfl⟩ := execHbtInit_next hx
    obtain ⟨-, -, -, -, -, hper, -⟩ := id hcfg
    have hseq' := h.seqOk_bootBits (by simp [State.bootComplete, hoff]) s.lineEn true s.idleCfg
    exact ⟨hcfg, htx, hrx, hidle, ⟨fun _ => ⟨hper, Nat.le_refl _⟩, fun _ => rfl⟩, hline, hseq'⟩
  | idltInit =>
    obtain ⟨hoff, rfl⟩ := execIdltInit_next hx
    obtain ⟨hxie, -, hpl, hpd, htrdy⟩ := hline
    have hseq' := h.seqOk_bootBits (by simp [State.bootComplete, hoff]) s.lineEn s.hbRun true
    exact ⟨hcfg, htx, hrx, ⟨Nat.zero_le _, by simp, by simp, by simp, by simp⟩, hhb,
      ⟨hxie, fun _ => rfl, hpl, hpd, htrdy⟩, hseq'⟩
  | envRxByte b =>
    obtain ⟨hen, -, rfl⟩ := execEnvRxByte_next hx
    obtain ⟨hxie, hconf, -, -, htrdy⟩ := hline
    exact ⟨hcfg, htx, hrx, hidle, hhb, ⟨hxie, hconf, fun _ => hen, fun _ => rfl, htrdy⟩, hseq⟩
  | envTxDone =>
    obtain ⟨hen, -, rfl⟩ := execEnvTxDone_next hx
    obtain ⟨hxie, hconf, hpl, hpd, -⟩ := hline
    exact ⟨hcfg, htx, hrx, hidle, hhb, ⟨hxie, hconf, hpl, hpd, fun _ => hen⟩, hseq⟩
  | tick =>
    obtain ⟨-, hx⟩ := guarded_eq_next hx
    obtain ⟨q, hq, hx⟩ := andThen_eq_next hx
    obtain rfl := finish_eq_next hx
    have hq' : q.Inv := tickHeartbeat_inv (tickIdle_inv h) hq
    exact hq'
  | sync x m => obtain ⟨-, rfl⟩ := execSync_next hx; exact h.setRing (Ring.refresh_ok (h.ring_ok x) m)
  | reset => obtain rfl := execReset_next hx; exact resetWith_inv hcfg s.sched
  | lineWrdy | lineWr _ | lineRd | idlRearm | idlDisarm => cases hsub

/-- Settles O52: a step is an operation performed on the state with one word taken, which keeps the invariant. -/
theorem stepKeepsTheInvariant : Obligations.StepKeepsTheInvariant := by
  unfold Obligations.StepKeepsTheInvariant
  intro s t h hst
  obtain ⟨w, rest, i, -, -, hp⟩ := step_eq_next hst
  exact perform_inv (s := { s with sched := rest }) h hp

end Sys2Proof.Machine

/-! O19: a ring that is ok, as a queue of bytes (R24, R118). -/

namespace Sys2Proof.Machine

open Sys2Proof.Config

/-- Every occupied slot is written, so the queue holds one byte for each (R24). -/
theorem Ring.length_bytes {p : Params} {r : Ring} (h : r.ok p) : (r.bytes p).length = r.occupied p := by
  obtain ⟨-, -, -, -, -, -, -, hslot⟩ := h
  have hall : ∀ o ∈ r.queue p, o.isSome = true := fun o ho => by
    obtain ⟨k, hk, rfl⟩ := List.mem_map.1 ho
    exact hslot k (List.mem_range.1 hk)
  calc (r.bytes p).length = (r.queue p).length := List.reduceOption_length_eq_iff.2 hall
    _ = r.occupied p := by simp [Ring.queue]

theorem execTryPush_bytes {s : State} {x : RingSel} (hr : (s.ring x).ok s.cfg) (b : Byte) :
    ∃ t, exec (.tryPush x b) s = .next t ∧
      ((t.result = .ok true ∧ (t.ring x).bytes t.cfg = (s.ring x).bytes s.cfg ++ [b]) ∨
       (t.result = .ok false ∧ (t.ring x).bytes t.cfg = (s.ring x).bytes s.cfg)) := by
  refine ⟨_, rfl, ?_⟩
  rcases pushOp_cases x b s with ⟨-, e⟩ | ⟨hf, e⟩ <;> rw [e]
  · exact .inr ⟨rfl, by cases x <;> rfl⟩
  · refine .inl ⟨rfl, ?_⟩
    cases x <;> exact Ring.bytes_pushed hr hf b

theorem execTryPop_bytes {s : State} {x : RingSel} (hr : (s.ring x).ok s.cfg) :
    ∃ t, exec (.tryPop x) s = .next t ∧
      ((∃ c, t.result = .popped (some c) ∧ (s.ring x).bytes s.cfg = c :: (t.ring x).bytes t.cfg) ∨
       (t.result = .popped none ∧ (t.ring x).bytes t.cfg = (s.ring x).bytes s.cfg)) := by
  cases he : (s.ring x).emptyC s.cfg with
  | true =>
    refine ⟨{ s with result := .popped none }, ?_, .inr ⟨rfl, by cases x <;> rfl⟩⟩
    simp [exec, execTryPop, popOp, he, finish]
  | false =>
    obtain ⟨c, hc⟩ := Ring.oldest_written hr he
    refine ⟨{ s.setRing x ((s.ring x).popped s.cfg) with result := .popped (some c) }, ?_, .inl ⟨c, rfl, ?_⟩⟩
    · simp only [exec, execTryPop, popOp_of_read he hc, andThen_next, finish]
    · cases x <;> exact Ring.bytes_popped hr he hc

/-- Settles O19. -/
theorem ringIsAFifoQueue : Obligations.RingIsAFifoQueue := by
  unfold Obligations.RingIsAFifoQueue
  exact fun s x b _ hr => ⟨execTryPush_bytes hr b, execTryPop_bytes hr, Ring.length_bytes hr⟩

end Sys2Proof.Machine

/-! O23 and O24: who moves an index register (R23, R25) and who changes a flag (R28 to R30). -/

namespace Sys2Proof.Machine

open Sys2Proof.Config

/-! ### The index registers -/

/-- The register a push to a ring writes, its head (R23). -/
def headReg : RingSel → Fin 4
  | .tx => 0
  | .rx => 2

/-- The register a pop from a ring writes, its tail (R23). -/
def tailReg : RingSel → Fin 4
  | .tx => 1
  | .rx => 3

/-- A ring's new value with the old head moves no index but the tail of that ring. -/
theorem setRing_x_of_head {s : State} {x : RingSel} {r : Ring} (hr : r.head = (s.ring x).head) {k : Fin 4}
    (hk : k ≠ tailReg x) : (s.setRing x r).x k = s.x k := by
  cases x <;> fin_cases k <;> simp_all [State.x, tailReg]

/-- A ring's new value with the old tail moves no index but the head of that ring. -/
theorem setRing_x_of_tail {s : State} {x : RingSel} {r : Ring} (hr : r.tail = (s.ring x).tail) {k : Fin 4}
    (hk : k ≠ headReg x) : (s.setRing x r).x k = s.x k := by
  cases x <;> fin_cases k <;> simp_all [State.x, headReg]

/-- A push moves no index but the head of its ring (R113). -/
theorem pushOp_x (x : RingSel) (b : Byte) (s : State) {k : Fin 4} (hk : k ≠ headReg x) : (pushOp x b s).2.x k = s.x k := by
  obtain ⟨r, e, h, htail, -⟩ := pushOp_frame x b s
  rw [h]
  exact setRing_x_of_tail htail hk

/-- A pop moves no index but the tail of its ring (R114). -/
theorem popOp_x {x : RingSel} {s : State} {p : Option Byte × State} (h : popOp x s = .next p) {k : Fin 4}
    (hk : k ≠ tailReg x) : p.2.x k = s.x k := by
  rcases popOp_cases h with ⟨-, rfl⟩ | ⟨-, b, -, rfl⟩
  · rfl
  · exact setRing_x_of_head (r := (s.ring x).popped s.cfg) rfl hk

theorem State.x_congr {s t : State} (htx : t.tx = s.tx) (hrx : t.rx = s.rx) (k : Fin 4) : t.x k = s.x k := by
  fin_cases k <;> simp [State.x, htx, hrx]

/-- The index registers an operation other than RESET may move (R23, R25, R116). -/
def movedRegs : Instr → List (Fin 4)
  | .tryPush x _ => [headReg x]
  | .tryPop x => [tailReg x]
  | .consumeAll x => [tailReg x]
  | .evRx => [headReg .tx, headReg .rx]
  | .evTxRdy => [tailReg .tx]
  | .dspEnq => [headReg .tx]
  | .dspRxClr => [tailReg .rx]
  | _ => []

/-- No operation but RESET moves an index register beside those. -/
theorem exec_x_of_not_mem {i : Instr} {s t : State} (h : exec i s = .next t) (hr : i ≠ .reset) {k : Fin 4}
    (hk : k ∉ movedRegs i) : t.x k = s.x k := by
  cases i with
  | tryPush x b => obtain rfl := execTryPush_next h; exact pushOp_x x b s (mt List.mem_singleton.2 hk)
  | tryPop x => obtain ⟨p, hp, rfl⟩ := execTryPop_next h; exact popOp_x hp (mt List.mem_singleton.2 hk)
  | consumeAll x =>
    obtain rfl := execConsumeAll_next h
    exact setRing_x_of_head (r := (s.ring x).consumed s.cfg) rfl (mt List.mem_singleton.2 hk)
  | evRx =>
    obtain ⟨b, -, -, -, -, -, rfl⟩ := execEvRx_next h
    simp only [movedRegs, List.mem_cons, List.not_mem_nil, or_false, not_or] at hk
    exact (pushOp_x .tx b _ hk.1).trans (pushOp_x .rx b { s with rxPend := false } hk.2)
  | evTxRdy =>
    obtain ⟨-, -, -, ⟨-, rfl⟩ | ⟨-, b, -, rfl⟩⟩ := execEvTxRdy_next h
    · rfl
    · exact setRing_x_of_head (x := .tx) (r := s.tx.popped s.cfg) rfl (mt List.mem_singleton.2 hk)
  | dspEnq =>
    obtain ⟨-, -, b, -, rfl⟩ := execDspEnq_next h
    have hpush : (pushOp .tx b s).2.x k = s.x k := pushOp_x .tx b s (mt List.mem_singleton.2 hk)
    exact (State.x_congr (by simp) (by simp) k).trans hpush
  | dspRxClr =>
    obtain ⟨-, -, rfl⟩ := execDspRxClr_next h
    exact setRing_x_of_head (x := .rx) (r := s.rx.consumed s.cfg) rfl (mt List.mem_singleton.2 hk)
  | sync x m => obtain ⟨-, rfl⟩ := execSync_next h; cases x <;> fin_cases k <;> rfl
  | occ x role => obtain rfl := execOcc_next h; rfl
  | evIdle => obtain ⟨-, rfl⟩ := execEvIdle_next h; rfl
  | evHb => obtain ⟨-, rfl⟩ := execEvHb_next h; rfl
  | dspPollIdle => obtain ⟨-, -, ⟨-, -, -, rfl⟩ | ⟨-, rfl⟩⟩ := execDspPollIdle_next h <;> rfl
  | dspIdlfClr => obtain ⟨-, -, rfl⟩ := execDspIdlfClr_next h; rfl
  | dspTxEn => obtain ⟨-, -, rfl⟩ := execDspTxEn_next h; rfl
  | dspPollHb => obtain ⟨-, -, ⟨-, rfl⟩ | ⟨-, rfl⟩⟩ := execDspPollHb_next h <;> rfl
  | lineInit => obtain ⟨-, -, rfl⟩ := execLineInit_next h; rfl
  | lineWrdy => obtain rfl := execLineWrdy_next h; rfl
  | lineWr b => obtain ⟨-, -, rfl⟩ := execLineWr_next h; rfl
  | lineRd => obtain ⟨b, -, -, rfl⟩ := execLineRd_next h; rfl
  | hbtInit => obtain ⟨-, rfl⟩ := execHbtInit_next h; rfl
  | idltInit => obtain ⟨-, rfl⟩ := execIdltInit_next h; rfl
  | idlRearm => obtain ⟨-, rfl⟩ := execIdlRearm_next h; rfl
  | idlDisarm => obtain rfl := execIdlDisarm_next h; rfl
  | envRxByte b => obtain ⟨-, -, rfl⟩ := execEnvRxByte_next h; rfl
  | envTxDone => obtain ⟨-, -, rfl⟩ := execEnvTxDone_next h; rfl
  | tick => obtain ⟨-, a, b, c, d, rfl⟩ := execTick_next h; rfl
  | reset => exact absurd rfl hr

theorem named_of_mem_movedRegs (i : Instr) :
    (0 ∈ movedRegs i → (∃ b, i = .tryPush .tx b) ∨ i = .evRx ∨ i = .dspEnq) ∧
    (1 ∈ movedRegs i → i = .tryPop .tx ∨ i = .consumeAll .tx ∨ i = .evTxRdy) ∧
    (2 ∈ movedRegs i → (∃ b, i = .tryPush .rx b) ∨ i = .evRx) ∧
    (3 ∈ movedRegs i → i = .tryPop .rx ∨ i = .consumeAll .rx ∨ i = .dspRxClr) := by
  cases i with
  | tryPush x b => cases x <;> simp [movedRegs, headReg]
  | tryPop x | consumeAll x => cases x <;> simp [movedRegs, tailReg]
  | _ => simp [movedRegs, headReg, tailReg]

/-- Settles O23: a register that differs is one its operation may move. -/
theorem onlyNamedOperationsMoveAnIndex : Obligations.OnlyNamedOperationsMoveAnIndex := by
  unfold Obligations.OnlyNamedOperationsMoveAnIndex
  intro i s t h hr
  have hmem (k : Fin 4) (hne : t.x k ≠ s.x k) : k ∈ movedRegs i :=
    by_contra fun hk => hne (exec_x_of_not_mem h hr hk)
  obtain ⟨h0, h1, h2, h3⟩ := named_of_mem_movedRegs i
  exact ⟨h0 ∘ hmem 0, h1 ∘ hmem 1, h2 ∘ hmem 2, h3 ∘ hmem 3⟩

/-! ### The flags -/

/-- The operations that may change a flag (R28, R29), and RESET. -/
def changesFlag : Instr → Bool
  | .evHb => true
  | .evIdle => true
  | .dspPollHb => true
  | .dspIdlfClr => true
  | .reset => true
  | _ => false

/-- Every other operation leaves both flags as they are. -/
theorem exec_keeps_flags {i : Instr} {s t : State} (hc : changesFlag i = false) (h : exec i s = .next t) :
    t.hbf = s.hbf ∧ t.idlf = s.idlf := by
  cases i with
  | tryPush x b => obtain rfl := execTryPush_next h; simp
  | tryPop x =>
    obtain ⟨p, hp, rfl⟩ := execTryPop_next h
    obtain ⟨-, rfl⟩ | ⟨-, b, -, rfl⟩ := popOp_cases hp <;> simp
  | consumeAll x => obtain rfl := execConsumeAll_next h; simp
  | sync x m => obtain ⟨-, rfl⟩ := execSync_next h; simp
  | evRx => obtain ⟨b, -, -, -, -, -, rfl⟩ := execEvRx_next h; simp
  | dspEnq => obtain ⟨-, -, b, -, rfl⟩ := execDspEnq_next h; simp
  | evTxRdy => obtain ⟨-, -, -, ⟨-, rfl⟩ | ⟨-, b, -, rfl⟩⟩ := execEvTxRdy_next h <;> exact ⟨rfl, rfl⟩
  | dspPollIdle => obtain ⟨-, -, ⟨-, -, -, rfl⟩ | ⟨-, rfl⟩⟩ := execDspPollIdle_next h <;> exact ⟨rfl, rfl⟩
  | dspRxClr => obtain ⟨-, -, rfl⟩ := execDspRxClr_next h; exact ⟨rfl, rfl⟩
  | dspTxEn => obtain ⟨-, -, rfl⟩ := execDspTxEn_next h; exact ⟨rfl, rfl⟩
  | occ x role => obtain rfl := execOcc_next h; exact ⟨rfl, rfl⟩
  | lineInit => obtain ⟨-, -, rfl⟩ := execLineInit_next h; exact ⟨rfl, rfl⟩
  | lineWrdy => obtain rfl := execLineWrdy_next h; exact ⟨rfl, rfl⟩
  | lineWr b => obtain ⟨-, -, rfl⟩ := execLineWr_next h; exact ⟨rfl, rfl⟩
  | lineRd => obtain ⟨b, -, -, rfl⟩ := execLineRd_next h; exact ⟨rfl, rfl⟩
  | hbtInit => obtain ⟨-, rfl⟩ := execHbtInit_next h; exact ⟨rfl, rfl⟩
  | idltInit => obtain ⟨-, rfl⟩ := execIdltInit_next h; exact ⟨rfl, rfl⟩
  | idlRearm => obtain ⟨-, rfl⟩ := execIdlRearm_next h; exact ⟨rfl, rfl⟩
  | idlDisarm => obtain rfl := execIdlDisarm_next h; exact ⟨rfl, rfl⟩
  | envRxByte b => obtain ⟨-, -, rfl⟩ := execEnvRxByte_next h; exact ⟨rfl, rfl⟩
  | envTxDone => obtain ⟨-, -, rfl⟩ := execEnvTxDone_next h; exact ⟨rfl, rfl⟩
  | tick => obtain ⟨-, a, b, c, d, rfl⟩ := execTick_next h; exact ⟨rfl, rfl⟩
  | evHb | evIdle | dspPollHb | dspIdlfClr | reset => cases hc

/-- Settles O24: each of the five operations that may change a flag moves its own flag in its own direction. -/
theorem onlyNamedOperationsChangeAFlag : Obligations.OnlyNamedOperationsChangeAFlag := by
  unfold Obligations.OnlyNamedOperationsChangeAFlag
  intro i s t h
  cases hc : changesFlag i with
  | false =>
    obtain ⟨hhbf, hidlf⟩ := exec_keeps_flags hc h
    rw [hhbf, hidlf]
    simp +contextual
  | true =>
    cases i with
    | evHb => obtain ⟨-, rfl⟩ := execEvHb_next h; simp +contextual
    | evIdle => obtain ⟨-, rfl⟩ := execEvIdle_next h; simp +contextual
    | dspPollHb => obtain ⟨-, -, ⟨-, rfl⟩ | ⟨-, rfl⟩⟩ := execDspPollHb_next h <;> simp +contextual
    | dspIdlfClr => obtain ⟨-, -, rfl⟩ := execDspIdlfClr_next h; simp +contextual
    | reset => obtain rfl := execReset_next h; simp [State.resetWith]
    | _ => cases hc

end Sys2Proof.Machine

/-! O10, O38 and O60: what is enabled after RESET (R47), the dispatch operation of each position (R40), and the bits of the register
views (R31). -/

namespace Sys2Proof.Machine

open Sys2Proof.Config

/-! ### After RESET -/

theorem enabled_resetWith {i : Instr} (hi : isHandler i = true ∨ isDispatch i = true ∨ i = .lineInit) (p : Params)
    (w : List Opw) : enabled i (State.resetWith p w) = false := by
  cases i with
  | evRx | evTxRdy | evIdle | evHb | dspPollIdle | dspEnq | dspRxClr | dspIdlfClr | dspTxEn | dspPollHb | lineInit => rfl
  | _ => simp [isHandler, isDispatch] at hi

/-- Settles O10. -/
theorem onlyTimerInitsAreEnabledAfterReset : Obligations.OnlyTimerInitsAreEnabledAfterReset := by
  unfold Obligations.OnlyTimerInitsAreEnabledAfterReset
  refine fun p w i => ⟨fun hi => exec_of_not_enabled (enabled_resetWith hi p w), fun hi => ?_⟩
  rcases hi with rfl | rfl <;> exact ⟨_, rfl⟩

/-! ### The dispatch operation of a position -/

/-- In a booted state the dispatch operation of the position, and no other, is enabled (R40, R177). -/
theorem enabled_dispatch_iff {s : State} {i : Instr} (hb : s.bootComplete = true) (hi : isDispatch i = true) :
    enabled i s = true ↔ i = dspStep s.mpc := by
  cases i with
  | dspPollIdle | dspEnq | dspRxClr | dspIdlfClr | dspTxEn | dspPollHb =>
    cases hm : s.mpc <;> simp [enabled, dispatchGuard, hb, hm, dspStep]
  | _ => cases hi

/-- Where the table of R40 lets a position lead. -/
def Mpc.successors : Mpc → List Mpc
  | .pollIdle => [.repEnq, .pollHb]
  | .repEnq => [.repEnq, .repRxClr]
  | .repRxClr => [.repFClr]
  | .repFClr => [.repTxEn]
  | .repTxEn => [.pollHb]
  | .pollHb => [.hbEnq, .pollIdle]
  | .hbEnq => [.hbEnq, .hbTxEn]
  | .hbTxEn => [.pollIdle]

theorem exec_dispatch_mpc {i : Instr} {s t : State} (hi : isDispatch i = true) (h : exec i s = .next t) :
    t.mpc ∈ s.mpc.successors := by
  cases i with
  | dspPollIdle =>
    obtain ⟨-, hm, ⟨-, -, -, rfl⟩ | ⟨-, rfl⟩⟩ := execDspPollIdle_next h <;> simp [hm, Mpc.successors]
  | dspEnq =>
    obtain ⟨-, hm, b, -, rfl⟩ := execDspEnq_next h
    simp only [leaveMessage_eq, countAttempt_mpc, pushOp_mpc]
    split
    · rcases hm with hm | hm <;> simp [hm, Mpc.successors, Mpc.afterMessage]
    · rcases hm with hm | hm <;> simp [hm, Mpc.successors]
  | dspRxClr => obtain ⟨-, hm, rfl⟩ := execDspRxClr_next h; simp [hm, Mpc.successors]
  | dspIdlfClr => obtain ⟨-, hm, rfl⟩ := execDspIdlfClr_next h; simp [hm, Mpc.successors]
  | dspTxEn => obtain ⟨-, hm | hm, rfl⟩ := execDspTxEn_next h <;> simp [hm, Mpc.successors]
  | dspPollHb => obtain ⟨-, hm, ⟨-, rfl⟩ | ⟨-, rfl⟩⟩ := execDspPollHb_next h <;> simp [hm, Mpc.successors]
  | _ => cases hi

/-- Settles O38. -/
theorem oneDispatchOperationPerPosition : Obligations.OneDispatchOperationPerPosition := by
  unfold Obligations.OneDispatchOperationPerPosition
  intro s i hb hi
  have henabled : exec i s ≠ .fault .notEnabled ↔ i = dspStep s.mpc := by
    rw [ne_eq, exec_notEnabled_iff, Bool.not_eq_false, enabled_dispatch_iff hb hi]
  refine ⟨henabled.trans ?_, fun t h => ?_⟩
  · cases s.mpc <;> rfl
  · have hmem := exec_dispatch_mpc hi h
    cases hm : s.mpc <;> simpa [hm, Mpc.successors] using hmem

/-! ### The register views -/

theorem getLsbD_append_ofBool_zero {n : Nat} (v : BitVec n) (b : Bool) : (v ++ BitVec.ofBool b).getLsbD 0 = b := by
  rw [BitVec.getLsbD_append, BitVec.getLsbD_ofBool]
  simp

theorem getLsbD_append_ofBool_succ {n : Nat} (v : BitVec n) (b : Bool) (k : Nat) :
    (v ++ BitVec.ofBool b).getLsbD (k + 1) = v.getLsbD k := by
  rw [BitVec.getLsbD_append]
  simp

/-- Settles O60: a view is its fields appended bit by bit below zeros, so bit `k` is found by taking off the `k` bits below it. -/
theorem controlRegistersReadTheirFields : Obligations.ControlRegistersReadTheirFields := by
  unfold Obligations.ControlRegistersReadTheirFields
  intro s
  have hcr1 : ∀ k, 2 ≤ k → s.cr1.getLsbD k = false := fun k hk => by
    obtain ⟨j, rfl⟩ := Nat.exists_eq_add_of_le' hk
    simp only [State.cr1, getLsbD_append_ofBool_succ, BitVec.getLsbD_zero]
  have hcr2 : ∀ k, 4 ≤ k → s.cr2.getLsbD k = false := fun k hk => by
    obtain ⟨j, rfl⟩ := Nat.exists_eq_add_of_le' hk
    simp only [State.cr2, getLsbD_append_ofBool_succ, BitVec.getLsbD_zero]
  refine ⟨?_, ?_, ?_, ?_, ?_, ?_, ?_, ?_, ?_, ?_, hcr1, ?_, ?_, ?_, ?_, hcr2⟩ <;>
    simp only [State.cr0, State.cr1, State.cr2, getLsbD_append_ofBool_succ, getLsbD_append_ofBool_zero, BitVec.getLsbD_zero]

end Sys2Proof.Machine

/-! O56: the parameters and the words behind an operation ride along, no operation of a valid schedule stops on a state with the
invariant, and so a schedule runs through exactly where it is valid (R46, R104). -/

namespace Sys2Proof.Machine

open Sys2Proof.Config

/-! ### What a step uses up -/

/-- No operation changes the parameters (R46). -/
theorem exec_cfg {i : Instr} {s t : State} (h : exec i s = .next t) : t.cfg = s.cfg := by
  cases i with
  | tryPush x b => obtain rfl := execTryPush_next h; simp
  | tryPop x =>
    obtain ⟨p, hp, rfl⟩ := execTryPop_next h
    obtain ⟨-, rfl⟩ | ⟨-, b, -, rfl⟩ := popOp_cases hp <;> simp
  | consumeAll x => obtain rfl := execConsumeAll_next h; simp
  | sync x m => obtain ⟨-, rfl⟩ := execSync_next h; simp
  | evRx => obtain ⟨b, -, -, -, -, -, rfl⟩ := execEvRx_next h; simp
  | dspEnq => obtain ⟨-, -, b, -, rfl⟩ := execDspEnq_next h; simp
  | evTxRdy => obtain ⟨-, -, -, ⟨-, rfl⟩ | ⟨-, b, -, rfl⟩⟩ := execEvTxRdy_next h <;> rfl
  | evIdle => obtain ⟨-, rfl⟩ := execEvIdle_next h; rfl
  | evHb => obtain ⟨-, rfl⟩ := execEvHb_next h; rfl
  | dspPollIdle => obtain ⟨-, -, ⟨-, -, -, rfl⟩ | ⟨-, rfl⟩⟩ := execDspPollIdle_next h <;> rfl
  | dspRxClr => obtain ⟨-, -, rfl⟩ := execDspRxClr_next h; rfl
  | dspIdlfClr => obtain ⟨-, -, rfl⟩ := execDspIdlfClr_next h; rfl
  | dspTxEn => obtain ⟨-, -, rfl⟩ := execDspTxEn_next h; rfl
  | dspPollHb => obtain ⟨-, -, ⟨-, rfl⟩ | ⟨-, rfl⟩⟩ := execDspPollHb_next h <;> rfl
  | occ x role => obtain rfl := execOcc_next h; rfl
  | lineInit => obtain ⟨-, -, rfl⟩ := execLineInit_next h; rfl
  | lineWrdy => obtain rfl := execLineWrdy_next h; rfl
  | lineWr b => obtain ⟨-, -, rfl⟩ := execLineWr_next h; rfl
  | lineRd => obtain ⟨b, -, -, rfl⟩ := execLineRd_next h; rfl
  | hbtInit => obtain ⟨-, rfl⟩ := execHbtInit_next h; rfl
  | idltInit => obtain ⟨-, rfl⟩ := execIdltInit_next h; rfl
  | idlRearm => obtain ⟨-, rfl⟩ := execIdlRearm_next h; rfl
  | idlDisarm => obtain rfl := execIdlDisarm_next h; rfl
  | envRxByte b => obtain ⟨-, -, rfl⟩ := execEnvRxByte_next h; rfl
  | envTxDone => obtain ⟨-, -, rfl⟩ := execEnvTxDone_next h; rfl
  | tick => obtain ⟨-, a, b, c, d, rfl⟩ := execTick_next h; rfl
  | reset => obtain rfl := execReset_next h; rfl

/-- No operation writes the words behind it: put back as they were, they give the same next state. -/
theorem exec_sched {i : Instr} {s t : State} (h : exec i s = .next t) : t.sched = s.sched := by
  have hback : exec i s = .next { t with sched := s.sched } := exec_withSched s.sched h
  rw [h] at hback
  injection hback with e
  rw [e]

theorem step_cfg_sched {s t : State} (h : step s = .next t) : t.cfg = s.cfg ∧ ∃ w, s.sched = w :: t.sched := by
  obtain ⟨w, rest, i, hs, -, hp⟩ := step_eq_next h
  obtain ⟨-, -, hx⟩ := perform_eq_next hp
  exact ⟨exec_cfg (s := { s with sched := rest }) hx, w, by rw [hs, exec_sched hx]⟩

/-! ### Progress: an enabled operation of a schedule answers -/

theorem popOp_progress {s : State} (h : s.Inv) (x : RingSel) : ∃ p, popOp x s = .next p := by
  rcases popOp_stops x s with hp | ⟨he, hnone, -⟩
  · exact hp
  · obtain ⟨b, hb⟩ := Ring.oldest_written (h.ring_ok x) he
    rw [hb] at hnone
    cases hnone

theorem loadMessage_of_fits {bs : List Byte} (hlen : bs.length ≤ msgSlots) (pos : Mpc) (s : State) :
    ∃ t, loadMessage bs pos s = .next t := ⟨_, if_pos hlen⟩

theorem idlRearmOp_of_configured {s : State} (h : s.idleCfg = true) : ∃ t, idlRearmOp s = .next t := ⟨_, if_pos h⟩

theorem tickHeartbeat_progress {s : State} (h : s.Inv) : ∃ t, tickHeartbeat s = .next t := by
  obtain ⟨-, -, -, -, ⟨hcnt, -⟩, -, -⟩ := h
  unfold tickHeartbeat
  split
  · next hrun =>
    obtain ⟨hpos, -⟩ := hcnt hrun
    rw [if_neg (by omega)]
    split <;> exact ⟨_, rfl⟩
  · exact ⟨_, rfl⟩

theorem report_countFor_fits {s : State} (h : s.Inv) : (report (s.rx.countFor s.cfg .consumer)).length ≤ msgSlots := by
  obtain ⟨hcfg, -⟩ := h
  obtain ⟨-, -, hmax, -⟩ := id hcfg
  exact report_fits (Nat.lt_of_lt_of_le (Ring.countFor_lt hcfg .consumer s.rx) hmax)

/-- An operation whose outcome is its guard's, then that of an effect that always answers. -/
theorem guarded_progress {g : Bool} {o : Out} (hg : g = true) (ho : ∃ t, o = .next t) : ∃ t, guarded g o = .next t := by
  rwa [hg]

theorem andThen_finish_progress {α : Type} {o : Host.Outcome α Fault Refusal} (ho : ∃ a, o = .next a) (r : α → Result)
    (u : α → State) : ∃ t, andThen o (fun a => finish (r a) (u a)) = .next t := by
  obtain ⟨a, rfl⟩ := ho
  exact ⟨_, rfl⟩

theorem finish_progress (r : Result) (s : State) : ∃ t, finish r s = .next t := ⟨_, rfl⟩

/-- On a state with the invariant an enabled operation of a schedule answers, SYNC where its word is not reserved (R64, R98). -/
theorem exec_progress {i : Instr} {s : State} (h : s.Inv) (hsub : isSubOperation i = false) (hen : enabled i s = true)
    (hsync : ∀ x m, i = .sync x m → s.cfg.sync = .gray ∧ m ≠ 0) : ∃ t, exec i s = .next t := by
  cases i with
  | tryPop x => exact andThen_finish_progress (popOp_progress h x) _ _
  | evRx =>
    obtain ⟨-, -, -, -, -, ⟨-, hconf, -, hdata, -⟩, -⟩ := h
    obtain ⟨⟨hline, -⟩, hpend⟩ : (s.lineEn = true ∧ s.rxie = true) ∧ s.rxPend = true := by
      simpa [enabled, State.evRxEnabled] using hen
    obtain ⟨b, hb⟩ := Option.isSome_iff_exists.1 (hdata hpend)
    refine guarded_progress hen ?_
    rw [lineRdOp_of_rxData hpend hb, andThen_next]
    exact andThen_finish_progress (idlRearmOp_of_configured (by simpa using hconf hline)) _ _
  | evTxRdy =>
    obtain ⟨⟨hline, -⟩, hrdy⟩ : (s.lineEn = true ∧ s.txie = true) ∧ s.txRdy = true := by
      simpa [enabled, State.evTxRdyEnabled] using hen
    obtain ⟨p, hp⟩ := popOp_progress h .tx
    refine guarded_progress hen ?_
    rw [hp, andThen_next]
    rcases popOp_cases hp with ⟨-, rfl⟩ | ⟨-, b, -, rfl⟩
    · exact finish_progress _ _
    · exact andThen_finish_progress ⟨_, if_pos (by simp [hline, hrdy])⟩ _ _
  | dspPollIdle =>
    refine guarded_progress hen ?_
    split
    · exact andThen_finish_progress (loadMessage_of_fits (report_countFor_fits h) _ _) _ _
    · exact finish_progress _ _
  | dspEnq =>
    obtain ⟨-, -, -, -, -, -, -, -, -, -, -, -, henq, -, hmsg⟩ := h
    have hpos : s.mpc = .repEnq ∨ s.mpc = .hbEnq := by
      simp only [enabled, dispatchGuard, Bool.and_eq_true, decide_eq_true_eq] at hen
      exact hen.2
    obtain ⟨b, hb⟩ := Option.isSome_iff_exists.1 (hmsg s.mi (henq hpos))
    refine guarded_progress hen ?_
    rw [hb]
    exact finish_progress _ _
  | dspPollHb =>
    refine guarded_progress hen ?_
    split
    · exact andThen_finish_progress (loadMessage_of_fits (by decide) _ _) _ _
    · exact finish_progress _ _
  | tick => exact guarded_progress hen (andThen_finish_progress (tickHeartbeat_progress (tickIdle_inv h)) _ _)
  | sync x m =>
    obtain ⟨hgray, hm⟩ := hsync x m rfl
    simp only [exec, execSync, hgray, if_neg hm]
    exact finish_progress _ _
  | evIdle | evHb | dspRxClr | dspIdlfClr | dspTxEn | lineInit | hbtInit | idltInit | envRxByte _ | envTxDone =>
    exact guarded_progress hen (finish_progress _ _)
  | tryPush _ _ | occ _ _ | consumeAll _ | reset => exact ⟨_, rfl⟩
  | lineWrdy | lineWr _ | lineRd | idlRearm | idlDisarm => cases hsub

/-! ### A word that decodes stands for a well-formed operation (R93, R97) -/

theorem requireNoOperand_wf {imm : Byte} {i j : Instr} (hi : i.wf = true) (h : requireNoOperand imm i = .ok j) :
    j.wf = true := by
  unfold requireNoOperand at h
  split at h <;> cases h
  exact hi

theorem requireNoRing_eq_ok {x : Bool} {r : Except Reserved Instr} {i : Instr} (h : requireNoRing x r = .ok i) : r = .ok i := by
  unfold requireNoRing at h
  split at h
  · cases h
  · exact h

theorem decodeRing_wf {x : Bool} {fn : BitVec 3} {imm : Byte} {i : Instr} (h : decodeRing x fn imm = .ok i) : i.wf = true := by
  unfold decodeRing at h
  split at h
  · cases h; rfl
  · exact requireNoOperand_wf rfl h
  · split at h <;> cases h
    rfl
  · exact requireNoOperand_wf rfl h
  · cases h

theorem decodeEvent_wf {fn : BitVec 3} {imm : Byte} {i : Instr} (h : decodeEvent fn imm = .ok i) : i.wf = true := by
  unfold decodeEvent at h
  split at h
  case h_5 => cases h
  all_goals exact requireNoOperand_wf rfl h

theorem decodeDispatch_wf {fn : BitVec 3} {imm : Byte} {i : Instr} (h : decodeDispatch fn imm = .ok i) : i.wf = true := by
  unfold decodeDispatch at h
  split at h
  case h_7 => cases h
  all_goals exact requireNoOperand_wf rfl h

theorem decodeLine_wf {fn : BitVec 3} {imm : Byte} {i : Instr} (h : decodeLine fn imm = .ok i) : i.wf = true := by
  unfold decodeLine at h
  split at h
  case h_3 => cases h; rfl
  case h_9 => cases h
  all_goals exact requireNoOperand_wf rfl h

theorem decodeSync_wf {x : Bool} {imm : Byte} {i : Instr} (h : decodeSync x imm = .ok i) : i.wf = true := by
  unfold decodeSync at h
  split at h
  · split at h
    · cases h
    · next hm => cases h; simpa [Instr.wf] using hm
  · cases h

theorem decodeEnv_wf {x : Bool} {fn : BitVec 3} {imm : Byte} {i : Instr} (h : decodeEnv x fn imm = .ok i) : i.wf = true := by
  unfold decodeEnv at h
  split at h
  case h_1 => cases requireNoRing_eq_ok h; rfl
  case h_4 => exact decodeSync_wf h
  case h_6 => cases h
  all_goals exact requireNoOperand_wf rfl (requireNoRing_eq_ok h)

theorem decode_wf {w : Opw} {i : Instr} (h : decode w = .ok i) : i.wf = true := by
  unfold decode decodeFields at h
  split at h
  · exact decodeRing_wf h
  · exact decodeEvent_wf (requireNoRing_eq_ok h)
  · exact decodeDispatch_wf (requireNoRing_eq_ok h)
  · exact decodeLine_wf (requireNoRing_eq_ok h)
  · exact decodeEnv_wf h
  · cases h

/-! ### Whole schedules -/

/-- A word that stands for a SYNC is not reserved: the mode is `GRAY` and the mask names a view (R98). -/
theorem operationOf_sync {mode : SyncMode} {w : Opw} {x : RingSel} {m : BitVec 2}
    (h : operationOf mode w = .ok (.sync x m)) : mode = .gray ∧ m ≠ 0 := by
  have hd := operationOf_eq_ok h
  refine ⟨?_, by simpa [Instr.wf] using decode_wf hd⟩
  unfold operationOf at h
  rw [hd] at h
  cases mode with
  | atomic => cases h
  | gray => rfl

/-- A list of operations none of which is a sub-operation, each enabled where it stands, runs through. -/
theorem performAll_progress {ws : List Opw} {is : List Instr} {s : State} (h : s.Inv)
    (hops : operationsOf s.cfg.sync ws = .ok is) (hsub : is.any isSubOperation = false)
    (hen : enabledThrough is s = true) : ∃ t, performAll is s = .next t := by
  induction ws generalizing is s with
  | nil => cases hops; exact ⟨s, rfl⟩
  | cons w ws ih =>
    obtain ⟨i, is, rfl, hop, hops⟩ := operationsOf_cons_eq_ok hops
    simp only [List.any_cons, Bool.or_eq_false_iff] at hsub
    simp only [enabledThrough, Bool.and_eq_true, Bool.not_eq_true'] at hen
    obtain ⟨⟨hi, hprio⟩, hrest⟩ := hen
    obtain ⟨u, hu⟩ := exec_progress h hsub.1 hi fun x m e => operationOf_sync (e ▸ hop)
    have hp : perform i s = .next u := by simp [perform, hsub.1, hprio, hu]
    rw [hu] at hrest
    rw [← exec_cfg hu] at hops
    obtain ⟨t, ht⟩ := ih (perform_inv h hp) hops hsub.2 hrest
    exact ⟨t, by rw [performAll, hp, andThen_next, ht]⟩

/-- A list of operations that runs through keeps the parameters. -/
theorem performAll_cfg {is : List Instr} {s t : State} (h : performAll is s = .next t) : t.cfg = s.cfg := by
  induction is generalizing s with
  | nil => cases h; rfl
  | cons i is ih =>
    obtain ⟨u, hu, h⟩ := performAll_cons_eq_next h
    obtain ⟨-, -, hx⟩ := perform_eq_next hu
    exact (ih h).trans (exec_cfg hx)

theorem perform_withSched {i : Instr} {s t : State} (w : List Opw) (h : perform i s = .next t) :
    perform i { s with sched := w } = .next { t with sched := w } := by
  obtain ⟨hsub, hprio, hx⟩ := perform_eq_next h
  have hprio' : violatesPriority i { s with sched := w } = false := hprio
  simp [perform, hsub, hprio', exec_withSched w hx]

/-- The words' operations performed one after the other are the words taken one step at a time. -/
theorem run_of_performAll {mode : SyncMode} {ws : List Opw} {is : List Instr} {s t : State}
    (hops : operationsOf mode ws = .ok is) (h : performAll is s = .next t) :
    core.run ws.length { s with sched := ws } = .next { t with sched := [] } := by
  induction ws generalizing is s with
  | nil => cases hops; cases h; rfl
  | cons w ws ih =>
    obtain ⟨i, is, rfl, hop, hops⟩ := operationsOf_cons_eq_ok hops
    obtain ⟨u, hu, h⟩ := performAll_cons_eq_next h
    have hstep : core.step { s with sched := w :: ws } = .next { u with sched := ws } := by
      show performWord w { s with sched := ws } = _
      rw [performWord, operationOf_eq_ok hop]
      exact perform_withSched ws hu
    simp only [List.length_cons, Host.Core.run, hstep]
    exact ih hops h

/-- Operations that run through were each enabled, in the priority order, where they stood. -/
theorem enabledThrough_of_performAll {is : List Instr} {s t : State} (h : performAll is s = .next t) :
    enabledThrough is s = true := by
  induction is generalizing s with
  | nil => rfl
  | cons i is ih =>
    obtain ⟨u, hu, h⟩ := performAll_cons_eq_next h
    obtain ⟨-, hprio, hx⟩ := perform_eq_next hu
    simp [enabledThrough, enabled_of_exec_next hx, hprio, hx, nextOf, ih h]

theorem keepsContract_eq_true {is : List Instr} (h : keepsContract is = true) :
    is.any isSubOperation = false ∧ ringsUsedOneWay is = true := by
  simpa only [keepsContract, Bool.and_eq_true, Bool.not_eq_true'] using h

theorem runSchedule_of_contract {ws : List Opw} {is : List Instr} {s : State} (hops : operationsOf s.cfg.sync ws = .ok is)
    (hk : keepsContract is = true) : runSchedule ws s = performAll is s := by
  obtain ⟨hsub, hone⟩ := keepsContract_eq_true hk
  simp [runSchedule, hops, hsub, hone]

theorem runSchedule_of_valid {s : State} {ws : List Opw} (h : s.Inv) (hv : validSchedule s ws = true) :
    ∃ t, runSchedule ws s = .next t ∧ core.run ws.length { s with sched := ws } = .next { t with sched := [] } ∧
      t.cfg = s.cfg := by
  obtain ⟨is, hops, hk, hen⟩ := validSchedule_eq_true hv
  obtain ⟨hsub, -⟩ := keepsContract_eq_true hk
  obtain ⟨t, ht⟩ := performAll_progress h hops hsub hen
  exact ⟨t, (runSchedule_of_contract hops hk).trans ht, run_of_performAll hops ht, performAll_cfg ht⟩

theorem validSchedule_of_runs {s t : State} {ws : List Opw} (h : runSchedule ws s = .next t) : validSchedule s ws = true := by
  obtain ⟨is, hops, hk, hp⟩ := runSchedule_eq_next h
  simp [validSchedule, hops, hk, enabledThrough_of_performAll hp]

/-- Settles O56. -/
theorem parametersAreConstant : Obligations.ParametersAreConstant := by
  unfold Obligations.ParametersAreConstant
  exact ⟨fun _ _ => step_cfg_sched, fun _ _ => runSchedule_of_valid, fun _ _ _ => validSchedule_of_runs⟩

end Sys2Proof.Machine

/-! O21 and O22: where an operation stores a byte (R60, R61). A push stores at the head of its ring alone, a poll in the slots of its
message, and every other operation but RESET keeps the buffers as they are. -/

namespace Sys2Proof.Machine

open Sys2Proof.Config

/-! ### The slots behind a push (R113) -/

@[simp] theorem pushOp_msg (x : RingSel) (b : Byte) (s : State) : (pushOp x b s).2.msg = s.msg := by
  obtain ⟨r, e, h, -⟩ := pushOp_frame x b s
  simp [h]

theorem pushOp_ring_ne {x y : RingSel} (hne : y ≠ x) (b : Byte) (s : State) : (pushOp x b s).2.ring y = s.ring y := by
  rcases pushOp_cases x b s with ⟨-, e⟩ | ⟨-, e⟩ <;> rw [e]
  rw [State.arm_ring, State.ring_setRing_ne s _ hne]

/-- A push leaves every slot of its ring but the head's. -/
theorem pushOp_read_ne_head {x : RingSel} {s : State} {a : Nat} (ha : a ≠ (s.ring x).head) (b : Byte) :
    ((pushOp x b s).2.ring x).buf.read a = (s.ring x).buf.read a := by
  rcases pushOp_cases x b s with ⟨-, e⟩ | ⟨-, e⟩ <;> rw [e]
  rw [State.arm_ring, State.ring_setRing]
  exact Mem.read_write_other _ b ha

theorem memRead_pushOp {x y : RingSel} {s : State} {a : Nat} (h : ¬ (y = x ∧ a = (s.ring x).head)) (b : Byte) :
    memRead y a (pushOp x b s).2 = memRead y a s := by
  by_cases hyx : y = x
  · subst hyx
    exact pushOp_read_ne_head (fun ha => h ⟨rfl, ha⟩) b
  · exact congrArg (·.buf.read a) (pushOp_ring_ne hyx b s)

theorem memRead_congr {s t : State} (htx : t.tx.buf = s.tx.buf) (hrx : t.rx.buf = s.rx.buf) (x : RingSel) (a : Nat) :
    memRead x a t = memRead x a s := by
  cases x with
  | tx => exact congrArg (Mem.read · a) htx
  | rx => exact congrArg (Mem.read · a) hrx

/-! ### The storing operations -/

theorem execTryPush_slots {x : RingSel} {b : Byte} {s t : State} (h : exec (.tryPush x b) s = .next t) :
    (∀ y a, ¬ (y = x ∧ a = (s.ring x).head) → memRead y a t = memRead y a s) ∧ ∀ a, t.msg.read a = s.msg.read a := by
  obtain rfl := execTryPush_next h
  exact ⟨fun y a ha => memRead_pushOp ha b, fun a => by simp⟩

/-- The echo to TX finds the head of TX where it was: the push to RX before it leaves that ring alone (R141). -/
theorem execEvRx_slots {s t : State} (h : exec .evRx s = .next t) :
    (∀ y a, a ≠ (s.ring y).head → memRead y a t = memRead y a s) ∧ ∀ a, t.msg.read a = s.msg.read a := by
  obtain ⟨b, -, -, -, -, -, rfl⟩ := execEvRx_next h
  refine ⟨fun y a ha => ?_, fun a => by simp⟩
  have hecho : ¬ (y = .tx ∧ a = ((pushOp .rx b { s with rxPend := false }).2.ring .tx).head) := by
    rw [pushOp_ring_ne (by decide)]
    rintro ⟨rfl, rfl⟩
    exact ha rfl
  have hstore : ¬ (y = .rx ∧ a = s.rx.head) := by
    rintro ⟨rfl, rfl⟩
    exact ha rfl
  exact (memRead_pushOp hecho b).trans (memRead_pushOp (s := { s with rxPend := false }) hstore b)

theorem execDspEnq_slots {s t : State} (h : exec .dspEnq s = .next t) :
    (∀ y a, ¬ (y = .tx ∧ a = s.tx.head) → memRead y a t = memRead y a s) ∧ ∀ a, t.msg.read a = s.msg.read a := by
  obtain ⟨-, -, b, -, rfl⟩ := execDspEnq_next h
  refine ⟨fun y a ha => ?_, fun a => by simp⟩
  calc _ = memRead y a (pushOp .tx b s).2 := memRead_congr (by simp) (by simp) y a
    _ = memRead y a s := memRead_pushOp ha b

theorem read_behind_message {s t : State} {bs : List Byte} (h : t.msg = s.msg.writeFrom 0 bs) {a : Nat} (ha : bs.length ≤ a) :
    t.msg.read a = s.msg.read a := by
  rw [h, Mem.read_writeFrom_outside _ _ _ _ (.inr (by omega))]

/-- A report is written over the slots below its length (R178). -/
theorem execDspPollIdle_slots {s t : State} (h : exec .dspPollIdle s = .next t) :
    (∀ y a, memRead y a t = memRead y a s) ∧
    ∀ a, (report (s.rx.countFor s.cfg .consumer)).length ≤ a → t.msg.read a = s.msg.read a := by
  obtain ⟨-, -, ⟨-, -, -, rfl⟩ | ⟨-, rfl⟩⟩ := execDspPollIdle_next h
  · exact ⟨memRead_congr rfl rfl, fun a ha => read_behind_message rfl ha⟩
  · exact ⟨memRead_congr rfl rfl, fun _ _ => rfl⟩

theorem hbText_length : hbText.length = 26 := rfl

/-- The heartbeat text is written over the 26 slots it has bytes for (R186, R187). -/
theorem execDspPollHb_slots {s t : State} (h : exec .dspPollHb s = .next t) :
    (∀ y a, memRead y a t = memRead y a s) ∧ ∀ a, 26 ≤ a → t.msg.read a = s.msg.read a := by
  obtain ⟨-, -, ⟨-, rfl⟩ | ⟨-, rfl⟩⟩ := execDspPollHb_next h
  · exact ⟨memRead_congr rfl rfl, fun a ha => read_behind_message rfl (hbText_length ▸ ha)⟩
  · exact ⟨memRead_congr rfl rfl, fun _ _ => rfl⟩

/-- Settles O21. -/
theorem storingOperationsKeepOtherSlots : Obligations.StoringOperationsKeepOtherSlots := by
  unfold Obligations.StoringOperationsKeepOtherSlots
  exact fun s t => ⟨fun x b => execTryPush_slots, execEvRx_slots, execDspEnq_slots, execDspPollIdle_slots, execDspPollHb_slots⟩

/-! ### The operations that store nothing -/

/-- A ring's new value with the old buffer leaves all three storage spaces as they are. -/
theorem setRing_storage {s : State} {x : RingSel} {r : Ring} (hr : r.buf = (s.ring x).buf) :
    (s.setRing x r).tx.buf = s.tx.buf ∧ (s.setRing x r).rx.buf = s.rx.buf ∧ (s.setRing x r).msg = s.msg := by
  cases x with
  | tx => exact ⟨hr, rfl, rfl⟩
  | rx => exact ⟨rfl, hr, rfl⟩

theorem exec_storage_of_not_storesSlots {i : Instr} {s t : State} (hi : storesSlots i = false) (h : exec i s = .next t) :
    t.tx.buf = s.tx.buf ∧ t.rx.buf = s.rx.buf ∧ t.msg = s.msg := by
  cases i with
  | tryPop x =>
    obtain ⟨p, hp, rfl⟩ := execTryPop_next h
    obtain ⟨-, rfl⟩ | ⟨-, b, -, rfl⟩ := popOp_cases hp
    · exact ⟨rfl, rfl, rfl⟩
    · exact setRing_storage (r := (s.ring x).popped s.cfg) rfl
  | consumeAll x => obtain rfl := execConsumeAll_next h; exact setRing_storage (r := (s.ring x).consumed s.cfg) rfl
  | sync x m => obtain ⟨-, rfl⟩ := execSync_next h; exact setRing_storage (r := (s.ring x).refresh m) rfl
  | evTxRdy => obtain ⟨-, -, -, ⟨-, rfl⟩ | ⟨-, b, -, rfl⟩⟩ := execEvTxRdy_next h <;> exact ⟨rfl, rfl, rfl⟩
  | occ x role => obtain rfl := execOcc_next h; exact ⟨rfl, rfl, rfl⟩
  | evIdle => obtain ⟨-, rfl⟩ := execEvIdle_next h; exact ⟨rfl, rfl, rfl⟩
  | evHb => obtain ⟨-, rfl⟩ := execEvHb_next h; exact ⟨rfl, rfl, rfl⟩
  | dspRxClr => obtain ⟨-, -, rfl⟩ := execDspRxClr_next h; exact ⟨rfl, rfl, rfl⟩
  | dspIdlfClr => obtain ⟨-, -, rfl⟩ := execDspIdlfClr_next h; exact ⟨rfl, rfl, rfl⟩
  | dspTxEn => obtain ⟨-, -, rfl⟩ := execDspTxEn_next h; exact ⟨rfl, rfl, rfl⟩
  | lineInit => obtain ⟨-, -, rfl⟩ := execLineInit_next h; exact ⟨rfl, rfl, rfl⟩
  | lineWrdy => obtain rfl := execLineWrdy_next h; exact ⟨rfl, rfl, rfl⟩
  | lineWr b => obtain ⟨-, -, rfl⟩ := execLineWr_next h; exact ⟨rfl, rfl, rfl⟩
  | lineRd => obtain ⟨b, -, -, rfl⟩ := execLineRd_next h; exact ⟨rfl, rfl, rfl⟩
  | hbtInit => obtain ⟨-, rfl⟩ := execHbtInit_next h; exact ⟨rfl, rfl, rfl⟩
  | idltInit => obtain ⟨-, rfl⟩ := execIdltInit_next h; exact ⟨rfl, rfl, rfl⟩
  | idlRearm => obtain ⟨-, rfl⟩ := execIdlRearm_next h; exact ⟨rfl, rfl, rfl⟩
  | idlDisarm => obtain rfl := execIdlDisarm_next h; exact ⟨rfl, rfl, rfl⟩
  | envRxByte b => obtain ⟨-, -, rfl⟩ := execEnvRxByte_next h; exact ⟨rfl, rfl, rfl⟩
  | envTxDone => obtain ⟨-, -, rfl⟩ := execEnvTxDone_next h; exact ⟨rfl, rfl, rfl⟩
  | tick => obtain ⟨-, a, b, c, d, rfl⟩ := execTick_next h; exact ⟨rfl, rfl, rfl⟩
  | tryPush _ _ | evRx | dspEnq | dspPollIdle | dspPollHb | reset => cases hi

/-- Settles O22. -/
theorem otherOperationsStoreNothing : Obligations.OtherOperationsStoreNothing := by
  unfold Obligations.OtherOperationsStoreNothing
  intro i s t hi h
  obtain ⟨htx, hrx, hmsg⟩ := exec_storage_of_not_storesSlots hi h
  exact ⟨memRead_congr htx hrx, fun a => by rw [hmsg]⟩

end Sys2Proof.Machine

/-! O50: the Gray code (R67) and its inverse. The code is linear over `xor`, and a value differs from its successor in its run of ones
at the bottom and the bit above it; the code of such a run is its top bit alone. -/

namespace Sys2Proof.Machine

/-! ### The inverse -/

theorem gray_xor {w : Nat} (v u : BitVec w) : gray v ^^^ gray u = gray (v ^^^ u) := by
  simp only [gray, BitVec.ushiftRight_xor_distrib]
  ac_rfl

/-- The unrolled sum telescopes: all but its first and its last term cancel. -/
theorem ungrayFrom_gray {w : Nat} (v : BitVec w) (n : Nat) : ungrayFrom (gray v) n = v ^^^ (v >>> (n + 1)) := by
  induction n with
  | zero => rfl
  | succ n ih =>
    calc ungrayFrom (gray v) (n + 1)
        = (v ^^^ v >>> (n + 1)) ^^^ (v >>> (n + 1) ^^^ v >>> (1 + (n + 1))) := by
          rw [ungrayFrom, ih, gray, BitVec.ushiftRight_xor_distrib, BitVec.shiftRight_add v 1]
      _ = v ^^^ (v >>> (n + 1) ^^^ v >>> (n + 1)) ^^^ v >>> (1 + (n + 1)) := by ac_rfl
      _ = v ^^^ v >>> (n + 1 + 1) := by rw [BitVec.xor_self, BitVec.xor_zero, Nat.add_comm 1]

theorem ungray_gray {w : Nat} (v : BitVec w) : ungray (gray v) = v := by
  rw [ungray, ungrayFrom_gray, BitVec.ushiftRight_eq_zero (by omega), BitVec.xor_zero]

/-! ### Successive values -/

/-- Adding one flips bit `i` where every bit below it is one. -/
theorem getLsbD_xor_add_one {w : Nat} (v : BitVec w) (i : Nat) :
    (v ^^^ (v + 1)).getLsbD i = decide (i < w ∧ ∀ j < i, v.getLsbD j = true) := by
  have hsucc : v + 1 = -(~~~v) := by rw [BitVec.neg_eq_not_add, BitVec.not_not]; rfl
  rw [hsucc, BitVec.getLsbD_xor, BitVec.getLsbD_neg, BitVec.getLsbD_not]
  by_cases hi : i < w
  · have hzero : (∃ j < i, (~~~v).getLsbD j = true) ↔ ¬ ∀ j < i, v.getLsbD j = true := by
      simp only [BitVec.getLsbD_not, not_forall, exists_prop]
      refine exists_congr fun j => and_congr_right fun hj => ?_
      simp [show j < w by omega]
    simp only [hi, hzero, decide_true, Bool.true_and, true_and, decide_not]
    cases v.getLsbD i <;> simp
  · simp [hi, BitVec.getLsbD_of_ge v i (Nat.le_of_not_lt hi)]

/-- The bits in which a value and its successor differ are those up to some bit `k`. -/
theorem exists_getLsbD_xor_add_one {w : Nat} (v : BitVec w) (hw : 0 < w) :
    ∃ k < w, ∀ i, (v ^^^ (v + 1)).getLsbD i = decide (i ≤ k) := by
  have hex : ∃ k, k + 1 = w ∨ v.getLsbD k = false := ⟨w - 1, .inl (by omega)⟩
  have hbelow : ∀ j < Nat.find hex, j + 1 ≠ w ∧ v.getLsbD j = true := fun j hj => by
    simpa using Nat.find_min hex hj
  have hlt : Nat.find hex < w := by
    have := Nat.find_min' hex (.inl (show w - 1 + 1 = w by omega))
    omega
  refine ⟨Nat.find hex, hlt, fun i => ?_⟩
  rw [getLsbD_xor_add_one, decide_eq_decide]
  constructor
  · rintro ⟨hi, hones⟩
    by_contra hgt
    rcases Nat.find_spec hex with hk | hk
    · omega
    · simp [hones _ (Nat.lt_of_not_le hgt)] at hk
  · exact fun hi => ⟨by omega, fun j hj => (hbelow j (by omega)).2⟩

/-- The code of a run of ones from bit 0 is the run's top bit. -/
theorem gray_of_run {w k : Nat} {d : BitVec w} (hk : k < w) (hd : ∀ i, d.getLsbD i = decide (i ≤ k)) :
    gray d = BitVec.twoPow w k := by
  apply BitVec.eq_of_getLsbD_eq
  intro i hi
  rw [gray, BitVec.getLsbD_xor, BitVec.getLsbD_ushiftRight, hd, hd, BitVec.getLsbD_twoPow]
  rcases lt_trichotomy i k with hlt | rfl | hgt
  · simp [Nat.le_of_lt hlt, Nat.ne_of_gt hlt, Nat.add_comm 1, Nat.succ_le_of_lt hlt]
  · simp [hk]
  · simp [Nat.not_le_of_lt hgt, Nat.ne_of_lt hgt, show ¬ 1 + i ≤ k by omega]

theorem gray_xor_gray_succ {w : Nat} (v : BitVec w) (hw : 0 < w) :
    ∃ k, k < w ∧ gray v ^^^ gray (v + 1) = BitVec.twoPow w k := by
  obtain ⟨k, hk, hd⟩ := exists_getLsbD_xor_add_one v hw
  exact ⟨k, hk, (gray_xor v (v + 1)).trans (gray_of_run hk hd)⟩

/-- Settles O50. -/
theorem grayCodeChangesOneBit : Obligations.GrayCodeChangesOneBit := by
  unfold Obligations.GrayCodeChangesOneBit
  exact ⟨fun w => ungray_gray, fun w => gray_xor_gray_succ, by decide⟩

end Sys2Proof.Machine

/-! O54 and O55: where a step stops. On a state with the invariant an enabled operation answers, so only guards, the priority rule and
the words themselves stop it (R64, R98, R99, R104); on a value the invariant excludes each operation has a stop of its own name. -/

namespace Sys2Proof.Machine

open Sys2Proof.Config

/-! ### Refusals, traced to the operation -/

theorem perform_eq_refused {i : Instr} {s : State} {r : Refusal} (h : perform i s = .refused r) :
    r = .subOperation ∨ (isSubOperation i = false ∧ exec i s = .refused r) := by
  unfold perform at h
  split at h
  · cases h; exact .inl rfl
  · next hsub =>
    split at h
    · cases h
    · exact .inr ⟨by simpa using hsub, h⟩

theorem step_eq_refused {s : State} {r : Refusal} (h : step s = .refused r) :
    r = .scheduleEnd ∨ (∃ why, r = .reservedWord why) ∨
    ∃ w rest i, s.sched = w :: rest ∧ decode w = .ok i ∧ perform i { s with sched := rest } = .refused r := by
  unfold step nextStep at h
  split at h
  · cases h; exact .inl rfl
  · next w rest hs =>
    unfold performWord at h
    split at h
    · next why _ => cases h; exact .inr (.inl ⟨why, rfl⟩)
    · next i hi => exact .inr (.inr ⟨w, rest, i, hs, hi, h⟩)

/-! ### On a state with the invariant -/

theorem execSync_of_atomic {s : State} (hs : s.cfg.sync = .atomic) (x : RingSel) (m : BitVec 2) :
    exec (.sync x m) s = .refused .syncInAtomic := by
  simp only [exec, execSync, hs]

/-- A well-formed operation of a schedule answers, is not enabled, or is a SYNC in `ATOMIC`. -/
theorem exec_outcome {i : Instr} {s : State} (h : s.Inv) (hsub : isSubOperation i = false) (hwf : i.wf = true) :
    (∃ t, exec i s = .next t) ∨ exec i s = .fault .notEnabled ∨ exec i s = .refused .syncInAtomic := by
  cases hen : enabled i s with
  | false => exact .inr (.inl (exec_of_not_enabled hen))
  | true =>
    by_cases hsync : ∃ x m, i = .sync x m ∧ s.cfg.sync = .atomic
    · obtain ⟨x, m, rfl, hs⟩ := hsync
      exact .inr (.inr (execSync_of_atomic hs x m))
    · refine .inl (exec_progress h hsub hen fun x m hi => ⟨?_, by simpa [hi, Instr.wf] using hwf⟩)
      cases hs : s.cfg.sync with
      | atomic => exact absurd ⟨x, m, hi, hs⟩ hsync
      | gray => rfl

theorem exec_fault {i : Instr} {s : State} {f : Fault} (h : s.Inv) (hsub : isSubOperation i = false) (hwf : i.wf = true)
    (hx : exec i s = .fault f) : f = .notEnabled := by
  obtain ⟨t, e⟩ | e | e := exec_outcome h hsub hwf <;> rw [e] at hx <;> cases hx
  rfl

theorem exec_refused {i : Instr} {s : State} {r : Refusal} (h : s.Inv) (hsub : isSubOperation i = false) (hwf : i.wf = true)
    (hx : exec i s = .refused r) : r = .syncInAtomic := by
  obtain ⟨t, e⟩ | e | e := exec_outcome h hsub hwf <;> rw [e] at hx <;> cases hx
  rfl

theorem step_fault {s : State} {f : Fault} (h : s.Inv) (hf : step s = .fault f) : f = .notEnabled ∨ f = .priorityViolated := by
  obtain ⟨w, rest, i, -, hd, hp⟩ := step_eq_fault hf
  obtain hprio | ⟨hsub, hx⟩ := perform_eq_fault hp
  · exact .inr hprio
  · exact .inl (exec_fault (s := { s with sched := rest }) h hsub (decode_wf hd) hx)

theorem step_refused {s : State} {r : Refusal} (h : s.Inv) (hr : step s = .refused r) :
    (∃ why, r = .reservedWord why) ∨ r = .syncInAtomic ∨ r = .subOperation ∨ r = .scheduleEnd := by
  obtain hend | hwhy | ⟨w, rest, i, -, hd, hp⟩ := step_eq_refused hr
  · exact .inr (.inr (.inr hend))
  · exact .inl hwhy
  · obtain hs | ⟨hsub, hx⟩ := perform_eq_refused hp
    · exact .inr (.inr (.inl hs))
    · exact .inr (.inl (exec_refused (s := { s with sched := rest }) h hsub (decode_wf hd) hx))

/-- Settles O54: a stop of the step is one of its own, or one of an operation that a word decodes to. -/
theorem dataNeverStopsTheMachine : Obligations.DataNeverStopsTheMachine := by
  unfold Obligations.DataNeverStopsTheMachine
  exact fun s h => ⟨fun f => step_fault h, fun r => step_refused h⟩

/-! ### On a value the invariant excludes -/

theorem lineRdOp_of_none {s : State} (hp : s.rxPend = true) (hd : s.rxData = none) : lineRdOp s = .fault .unwrittenRxData := by
  simp only [lineRdOp, hp, hd, if_true]

theorem idlRearmOp_of_not_configured {s : State} (h : s.idleCfg = false) : idlRearmOp s = .refused .idleTimerNotConfigured := by
  simp [idlRearmOp, h]

theorem popOp_of_none {x : RingSel} {s : State} (he : (s.ring x).viewHead s.cfg.sync ≠ (s.ring x).tail)
    (hb : (s.ring x).buf.read (s.ring x).tail = none) : popOp x s = .fault (.unwrittenSlot x (s.ring x).tail) := by
  simp [popOp, Ring.emptyC, he, hb]

theorem loadMessage_of_long {bs : List Byte} (hlen : msgSlots < bs.length) (pos : Mpc) (s : State) :
    loadMessage bs pos s = .fault .messageTooLong := if_neg (Nat.not_le_of_lt hlen)

theorem tickHeartbeat_of_zero {s : State} (hr : s.hbRun = true) (hc : s.hbCnt = 0) :
    tickHeartbeat s = .fault .heartbeatCountZero := by
  simp [tickHeartbeat, hr, hc]

theorem State.rxPend_of_evRxEnabled {s : State} (h : s.evRxEnabled = true) : s.rxPend = true := (Bool.and_eq_true_iff.mp h).2

theorem execEvRx_of_none {s : State} (hg : s.evRxEnabled = true) (hd : s.rxData = none) :
    exec .evRx s = .fault .unwrittenRxData := by
  simp only [exec, execEvRx, hg, guarded_true, lineRdOp_of_none (State.rxPend_of_evRxEnabled hg) hd, andThen_fault]

/-- The pushes before the rearm do not configure the timer. -/
theorem execEvRx_of_not_configured {s : State} {b : Byte} (hg : s.evRxEnabled = true) (hd : s.rxData = some b)
    (hc : s.idleCfg = false) : exec .evRx s = .refused .idleTimerNotConfigured := by
  have hc' : (pushOp .tx b (pushOp .rx b { s with rxPend := false }).2).2.idleCfg = false := by simpa using hc
  simp only [exec, execEvRx, hg, guarded_true, lineRdOp_of_rxData (State.rxPend_of_evRxEnabled hg) hd, andThen_next,
    idlRearmOp_of_not_configured hc', andThen_refused]

theorem execLineRd_of_none {s : State} (hp : s.rxPend = true) (hd : s.rxData = none) :
    exec .lineRd s = .fault .unwrittenRxData := by
  simp only [exec, execLineRd, lineRdOp_of_none hp hd, andThen_fault]

theorem execEvTxRdy_of_none {s : State} (hg : s.evTxRdyEnabled = true) (he : s.tx.viewHead s.cfg.sync ≠ s.tx.tail)
    (hb : s.tx.buf.read s.tx.tail = none) : exec .evTxRdy s = .fault (.unwrittenSlot .tx s.tx.tail) := by
  have hpop : popOp .tx s = .fault (.unwrittenSlot .tx s.tx.tail) := popOp_of_none he hb
  simp only [exec, execEvTxRdy, hg, guarded_true, hpop, andThen_fault]

theorem execDspEnq_of_none {s : State} (hboot : s.bootComplete = true) (hpos : s.mpc = .repEnq ∨ s.mpc = .hbEnq)
    (hb : s.msg.read s.mi = none) : exec .dspEnq s = .fault (.unwrittenMsg s.mi) := by
  simp only [exec, execDspEnq, dispatchGuard, hboot, hpos, decide_true, Bool.and_self, guarded_true, hb]

theorem execDspPollIdle_of_long {s : State} (hboot : s.bootComplete = true) (hpos : s.mpc = .pollIdle) (hf : s.idlf = true)
    (he : s.rx.viewHead s.cfg.sync ≠ s.rx.tail) (hlen : msgSlots < (report (s.rx.countFor s.cfg .consumer)).length) :
    exec .dspPollIdle s = .fault .messageTooLong := by
  have hne : s.rx.emptyC s.cfg = false := by simpa [Ring.emptyC] using he
  simp only [exec, execDspPollIdle, dispatchGuard, hboot, hpos, decide_true, Bool.and_self, guarded_true, hf, hne, Bool.not_false,
    if_true, loadMessage_of_long hlen, andThen_fault]

theorem execTick_of_zero {s : State} (hh : s.handlerEnabled = false) (hr : s.hbRun = true) (hc : s.hbCnt = 0) :
    exec .tick s = .fault .heartbeatCountZero := by
  have hbeat : tickHeartbeat (tickIdle s) = .fault .heartbeatCountZero := tickHeartbeat_of_zero (by simpa) (by simpa)
  simp only [exec, execTick, hh, Bool.not_false, guarded_true, hbeat, andThen_fault]

theorem execSync_of_mask_zero {s : State} (hs : s.cfg.sync = .gray) (x : RingSel) :
    exec (.sync x 0) s = .refused .syncMaskZero := by
  simp only [exec, execSync, hs, if_true]

/-- Settles O55: one equation per value. -/
theorem excludedValuesStopByName : Obligations.ExcludedValuesStopByName := by
  unfold Obligations.ExcludedValuesStopByName
  exact fun s => ⟨execEvRx_of_none, fun b => execEvRx_of_not_configured, execLineRd_of_none, execEvTxRdy_of_none,
    execDspEnq_of_none, execDspPollIdle_of_long, execTick_of_zero, fun x hs => execSync_of_mask_zero hs x⟩

end Sys2Proof.Machine

/-! O1 to O7: decoding and encoding are inverse (R92, R96, R97), which words are reserved (R98), and what a step and a whole schedule
make of a word (R99, R104, R273). -/

namespace Sys2Proof.Machine

/-! ### The fields of a word (R92) -/

theorem toNat_clsOf (w : Opw) : (clsOf w).toNat = w.toNat / 4096 := by
  rw [clsOf, BitVec.extractLsb'_toNat, Nat.shiftRight_eq_div_pow]
  omega

theorem toNat_ringBitOf (w : Opw) : (ringBitOf w).toNat = w.toNat / 2048 % 2 := by
  rw [ringBitOf, BitVec.getLsbD, Nat.toNat_testBit]

theorem toNat_fnOf (w : Opw) : (fnOf w).toNat = w.toNat / 256 % 8 := by
  rw [fnOf, BitVec.extractLsb'_toNat, Nat.shiftRight_eq_div_pow]

theorem toNat_imm8Of (w : Opw) : (imm8Of w).toNat = w.toNat % 256 := by
  rw [imm8Of, BitVec.extractLsb'_toNat, Nat.shiftRight_zero]

theorem toNat_pack (cls : BitVec 4) (x : Bool) (fn : BitVec 3) (imm : Byte) :
    (pack cls x fn imm).toNat = 4096 * cls.toNat + 2048 * x.toNat + 256 * fn.toNat + imm.toNat := by
  unfold pack
  rw [BitVec.toNat_append, BitVec.toNat_append, BitVec.toNat_append, BitVec.toNat_ofBool,
    ← Nat.shiftLeft_add_eq_or_of_lt imm.isLt, ← Nat.shiftLeft_add_eq_or_of_lt fn.isLt,
    ← Nat.shiftLeft_add_eq_or_of_lt (b := x.toNat) (i := 1) x.toNat_lt]
  simp only [Nat.shiftLeft_eq]
  omega

theorem pack_fields (w : Opw) : pack (clsOf w) (ringBitOf w) (fnOf w) (imm8Of w) = w := by
  apply BitVec.eq_of_toNat_eq
  rw [toNat_pack, toNat_clsOf, toNat_ringBitOf, toNat_fnOf, toNat_imm8Of]
  omega

section Pack
variable (cls : BitVec 4) (x : Bool) (fn : BitVec 3) (imm : Byte)

@[simp] theorem clsOf_pack : clsOf (pack cls x fn imm) = cls := by
  have hx := x.toNat_lt
  apply BitVec.eq_of_toNat_eq
  rw [toNat_clsOf, toNat_pack]
  omega

@[simp] theorem ringBitOf_pack : ringBitOf (pack cls x fn imm) = x := by
  have h : (ringBitOf (pack cls x fn imm)).toNat = x.toNat := by
    have hx := x.toNat_lt
    rw [toNat_ringBitOf, toNat_pack]
    omega
  rw [← Bool.ofNat_toNat (ringBitOf _), h, Bool.ofNat_toNat]

@[simp] theorem fnOf_pack : fnOf (pack cls x fn imm) = fn := by
  have hx := x.toNat_lt
  apply BitVec.eq_of_toNat_eq
  rw [toNat_fnOf, toNat_pack]
  omega

@[simp] theorem imm8Of_pack : imm8Of (pack cls x fn imm) = imm := by
  have hx := x.toNat_lt
  apply BitVec.eq_of_toNat_eq
  rw [toNat_imm8Of, toNat_pack]
  omega

theorem decode_pack : decode (pack cls x fn imm) = decodeFields cls x fn imm := by
  rw [decode, clsOf_pack, ringBitOf_pack, fnOf_pack, imm8Of_pack]

end Pack

/-! ### From an operation to its word and back (R96, R97) -/

@[simp] theorem ringOfBit_ringBit (x : RingSel) : ringOfBit (ringBit x) = x := by cases x <;> rfl

@[simp] theorem ringBit_ringOfBit (x : Bool) : ringBit (ringOfBit x) = x := by cases x <;> rfl

theorem decodeSync_ringBit (x : RingSel) {m : BitVec 2} (hm : m ≠ 0) :
    decodeSync (ringBit x) (m.setWidth 8) = .ok (.sync x m) := by
  have hhigh : (m.setWidth 8).extractLsb' 2 6 = 0 := by decide +revert
  have hlow : (m.setWidth 8).extractLsb' 0 2 = m := by decide +revert
  simp only [decodeSync, hhigh, hlow, hm, if_true, if_false, ringOfBit_ringBit]

/-- Settles O1: the fields of the word are those packed, and the arm they select has the operation. -/
theorem decodeOfEncodeIsTheOperation : Obligations.DecodeOfEncodeIsTheOperation := by
  unfold Obligations.DecodeOfEncodeIsTheOperation
  intro i hwf
  cases i <;> rw [encode, decode_pack]
  case tryPush x b => cases x <;> rfl
  case tryPop x => cases x <;> rfl
  case occ x role => cases x <;> cases role <;> rfl
  case consumeAll x => cases x <;> rfl
  case sync x m => exact decodeSync_ringBit x (by simpa [Instr.wf] using hwf)
  all_goals rfl

/-! ### From a word to its operation -/

theorem requireNoOperand_eq_ok {imm : Byte} {i j : Instr} (h : requireNoOperand imm j = .ok i) : imm = 0 ∧ i = j := by
  unfold requireNoOperand at h
  split at h
  · next h0 => cases h; exact ⟨h0, rfl⟩
  · cases h

theorem ringBit_of_requireNoRing {x : Bool} {r : Except Reserved Instr} {i : Instr} (h : requireNoRing x r = .ok i) :
    x = false := by
  cases x with
  | false => rfl
  | true => cases h

theorem encode_of_requireNoOperand {cls : BitVec 4} {x : Bool} {fn fn' : BitVec 3} {imm : Byte} {i j : Instr}
    (hj : encode j = pack cls x fn' 0) (hfn : fn.toNat = fn'.toNat) (h : requireNoOperand imm j = .ok i) :
    encode i = pack cls x fn imm := by
  obtain ⟨rfl, rfl⟩ := requireNoOperand_eq_ok h
  rw [hj, BitVec.eq_of_toNat_eq hfn]

theorem encode_of_requireNoRing {cls : BitVec 4} {x : Bool} {fn : BitVec 3} {imm : Byte} {i : Instr} {r : Except Reserved Instr}
    (h : requireNoRing x r = .ok i) (hr : r = .ok i → encode i = pack cls false fn imm) : encode i = pack cls x fn imm := by
  obtain rfl := ringBit_of_requireNoRing h
  exact hr (requireNoRing_eq_ok h)

theorem roleByte_roleOfBit {imm : Byte} (h : imm.extractLsb' 1 7 = 0) : roleByte (roleOfBit (imm.getLsbD 0)) = imm := by
  revert imm
  decide

theorem setWidth_extractLsb'_of_high_zero {imm : Byte} (h : imm.extractLsb' 2 6 = 0) :
    (imm.extractLsb' 0 2).setWidth 8 = imm := by
  revert imm
  decide

theorem encode_of_decodeRing {x : Bool} {fn : BitVec 3} {imm : Byte} {i : Instr} (h : decodeRing x fn imm = .ok i) :
    encode i = pack 0 x fn imm := by
  unfold decodeRing at h
  split at h
  case h_1 hfn =>
    obtain rfl : fn = 0 := BitVec.eq_of_toNat_eq hfn
    cases h
    rw [encode, ringBit_ringOfBit]
  case h_2 hfn => exact encode_of_requireNoOperand (fn' := 1) (by rw [encode, ringBit_ringOfBit]) hfn h
  case h_3 hfn =>
    obtain rfl : fn = 2 := BitVec.eq_of_toNat_eq hfn
    split at h
    · next hrole => cases h; rw [encode, ringBit_ringOfBit, roleByte_roleOfBit hrole]
    · cases h
  case h_4 hfn => exact encode_of_requireNoOperand (fn' := 3) (by rw [encode, ringBit_ringOfBit]) hfn h
  case h_5 => cases h

theorem encode_of_decodeEvent {fn : BitVec 3} {imm : Byte} {i : Instr} (h : decodeEvent fn imm = .ok i) :
    encode i = pack 1 false fn imm := by
  unfold decodeEvent at h
  split at h
  case h_5 => cases h
  all_goals exact encode_of_requireNoOperand rfl ‹_› h

theorem encode_of_decodeDispatch {fn : BitVec 3} {imm : Byte} {i : Instr} (h : decodeDispatch fn imm = .ok i) :
    encode i = pack 2 false fn imm := by
  unfold decodeDispatch at h
  split at h
  case h_7 => cases h
  all_goals exact encode_of_requireNoOperand rfl ‹_› h

theorem encode_of_decodeLine {fn : BitVec 3} {imm : Byte} {i : Instr} (h : decodeLine fn imm = .ok i) :
    encode i = pack 3 false fn imm := by
  unfold decodeLine at h
  split at h
  case h_3 hfn =>
    obtain rfl : fn = 2 := BitVec.eq_of_toNat_eq hfn
    cases h
    rfl
  case h_9 => cases h
  all_goals exact encode_of_requireNoOperand rfl ‹_› h

theorem encode_of_decodeSync {x : Bool} {imm : Byte} {i : Instr} (h : decodeSync x imm = .ok i) :
    encode i = pack 4 x 3 imm := by
  unfold decodeSync at h
  split at h
  · next hhigh =>
    split at h
    · cases h
    · cases h; rw [encode, ringBit_ringOfBit, setWidth_extractLsb'_of_high_zero hhigh]
  · cases h

theorem encode_of_decodeEnv {x : Bool} {fn : BitVec 3} {imm : Byte} {i : Instr} (h : decodeEnv x fn imm = .ok i) :
    encode i = pack 4 x fn imm := by
  unfold decodeEnv at h
  split at h
  case h_1 hfn =>
    obtain rfl : fn = 0 := BitVec.eq_of_toNat_eq hfn
    refine encode_of_requireNoRing h fun hi => ?_
    cases hi
    rfl
  case h_4 hfn =>
    obtain rfl : fn = 3 := BitVec.eq_of_toNat_eq hfn
    exact encode_of_decodeSync h
  case h_6 => cases h
  all_goals exact encode_of_requireNoRing h (encode_of_requireNoOperand rfl ‹_›)

theorem encode_of_decodeFields {cls : BitVec 4} {x : Bool} {fn : BitVec 3} {imm : Byte} {i : Instr}
    (h : decodeFields cls x fn imm = .ok i) : encode i = pack cls x fn imm := by
  unfold decodeFields at h
  split at h
  case h_1 hcls =>
    obtain rfl : cls = 0 := BitVec.eq_of_toNat_eq hcls
    exact encode_of_decodeRing h
  case h_2 hcls =>
    obtain rfl : cls = 1 := BitVec.eq_of_toNat_eq hcls
    exact encode_of_requireNoRing h encode_of_decodeEvent
  case h_3 hcls =>
    obtain rfl : cls = 2 := BitVec.eq_of_toNat_eq hcls
    exact encode_of_requireNoRing h encode_of_decodeDispatch
  case h_4 hcls =>
    obtain rfl : cls = 3 := BitVec.eq_of_toNat_eq hcls
    exact encode_of_requireNoRing h encode_of_decodeLine
  case h_5 hcls =>
    obtain rfl : cls = 4 := BitVec.eq_of_toNat_eq hcls
    exact encode_of_decodeEnv h
  case h_6 => cases h

theorem encode_of_decode {w : Opw} {i : Instr} (h : decode w = .ok i) : encode i = w :=
  (encode_of_decodeFields h).trans (pack_fields w)

/-- Settles O2: each arm of the decoder answers with the operation of its own fields. -/
theorem decodedWordIsTheOperationsWord : Obligations.DecodedWordIsTheOperationsWord := by
  unfold Obligations.DecodedWordIsTheOperationsWord
  exact fun w i h => ⟨encode_of_decode h, decode_wf h⟩

/-- Settles O3: each word is decoded. -/
theorem tableWordsDecode : Obligations.TableWordsDecode := by
  unfold Obligations.TableWordsDecode
  exact ⟨rfl, rfl, rfl, rfl, rfl, rfl, rfl, rfl, rfl, rfl, rfl, rfl⟩

/-! ### The one row of a word (R96, R97) -/

theorem selectsRow_encode {i : Instr} (h : i.wf = true) : selectsRow (encode i) i = true := by
  cases i
  case tryPush x b => exact Laws.RowMatch.tryPush x b h
  case tryPop x => exact Laws.RowMatch.tryPop x h
  case occ x role => exact Laws.RowMatch.occ x role h
  case consumeAll x => exact Laws.RowMatch.consumeAll x h
  case lineWr b => exact Laws.RowMatch.lineWr b h
  case envRxByte b => exact Laws.RowMatch.envRxByte b h
  case sync x m => exact Laws.RowMatch.sync x m h
  all_goals decide

/-! Every row's mask keeps class and function number, and every row's match is made of these two fields. -/

theorem rowMask_and_fields (i : Instr) : rowMask i &&& 0xF700 = 0xF700 := by cases i <;> rw [rowMask] <;> decide

theorem rowMatch_and_fields (i : Instr) : rowMatch i &&& 0xF700 = rowMatch i := by cases i <;> rw [rowMatch] <;> decide

theorem rowMatch_of_selectsRow {w : Opw} {i : Instr} (h : selectsRow w i = true) : rowMatch i = w &&& 0xF700 := by
  rw [← rowMatch_and_fields, ← eq_of_beq h, BitVec.and_assoc, rowMask_and_fields]

/-- The mask of the row with a given match: all bits of the word but the ring bit, where the row takes a ring, and the bits of the
operand byte that the row leaves free (R96). -/
def maskOfMatch (m : Opw) : Opw :=
  if m = 0x0000 then 0xF700
  else if m = 0x0100 ∨ m = 0x0300 then 0xF7FF
  else if m = 0x0200 then 0xF7FE
  else if m = 0x3200 ∨ m = 0x4000 then 0xFF00
  else if m = 0x4300 then 0xF7FC
  else 0xFFFF

theorem rowMask_eq (i : Instr) : rowMask i = maskOfMatch (rowMatch i) := by
  cases i <;> simp [rowMask, rowMatch, maskOfMatch]

/-- Settles O5: a selected row's match is the word's class and function number, and the match determines the row's mask. -/
theorem decodingPicksTheOneRow : Obligations.DecodingPicksTheOneRow := by
  unfold Obligations.DecodingPicksTheOneRow
  intro w i h
  have hi : selectsRow w i = true := encode_of_decode h ▸ selectsRow_encode (decode_wf h)
  refine ⟨hi, fun j hj => ?_⟩
  have hmatch : rowMatch j = rowMatch i := (rowMatch_of_selectsRow hj).trans (rowMatch_of_selectsRow hi).symm
  exact ⟨hmatch, by rw [rowMask_eq, hmatch, rowMask_eq]⟩

/-! ### Reserved words (R98) -/

theorem exists_requireNoOperand_iff (imm : Byte) (j : Instr) :
    (∃ i, requireNoOperand imm j = .ok i) ↔ imm.toNat = 0 := by
  unfold requireNoOperand
  split
  · next h0 => simp [h0]
  · next h0 => simpa using fun h => h0 (BitVec.eq_of_toNat_eq h)

theorem exists_requireNoRing_iff (x : Bool) (r : Except Reserved Instr) :
    (∃ i, requireNoRing x r = .ok i) ↔ x.toNat = 0 ∧ ∃ i, r = .ok i := by
  cases x <;> simp [requireNoRing]

theorem exists_decodeRing_iff (x : Bool) (fn : BitVec 3) (imm : Byte) :
    (∃ i, decodeRing x fn imm = .ok i) ↔
      fn.toNat < 4 ∧ (fn.toNat = 1 ∨ fn.toNat = 3 → imm.toNat = 0) ∧ (fn.toNat = 2 → imm.toNat < 2) := by
  have hrole : imm.extractLsb' 1 7 = 0 ↔ imm.toNat < 2 := by decide +revert
  unfold decodeRing
  simp only [hrole]
  split
  case h_1 => simp [*]
  case h_3 => split <;> simp [*]
  case h_5 => simp at *; omega
  all_goals rw [exists_requireNoOperand_iff]; omega

theorem exists_decodeEvent_iff (fn : BitVec 3) (imm : Byte) :
    (∃ i, decodeEvent fn imm = .ok i) ↔ fn.toNat < 4 ∧ imm.toNat = 0 := by
  unfold decodeEvent
  split
  case h_5 => simp at *; omega
  all_goals rw [exists_requireNoOperand_iff]; omega

theorem exists_decodeDispatch_iff (fn : BitVec 3) (imm : Byte) :
    (∃ i, decodeDispatch fn imm = .ok i) ↔ fn.toNat < 6 ∧ imm.toNat = 0 := by
  unfold decodeDispatch
  split
  case h_7 => simp at *; omega
  all_goals rw [exists_requireNoOperand_iff]; omega

theorem exists_decodeLine_iff (fn : BitVec 3) (imm : Byte) :
    (∃ i, decodeLine fn imm = .ok i) ↔ fn.toNat = 2 ∨ imm.toNat = 0 := by
  unfold decodeLine
  split
  case h_3 => simp [*]
  case h_9 => simp at *; omega
  all_goals rw [exists_requireNoOperand_iff]; omega

theorem exists_decodeSync_iff (x : Bool) (imm : Byte) :
    (∃ i, decodeSync x imm = .ok i) ↔ imm.toNat < 4 ∧ imm.toNat % 4 ≠ 0 := by
  have hhigh : imm.extractLsb' 2 6 = 0 ↔ imm.toNat < 4 := by decide +revert
  have hlow : imm.extractLsb' 0 2 = 0 ↔ imm.toNat % 4 = 0 := by decide +revert
  simp only [decodeSync, hhigh, hlow]
  split
  · split <;> simp [*]
  · simp [*]

theorem exists_decodeEnv_iff (x : Bool) (fn : BitVec 3) (imm : Byte) :
    (∃ i, decodeEnv x fn imm = .ok i) ↔ fn.toNat < 5 ∧ (fn.toNat ≠ 3 → x.toNat = 0) ∧
      (fn.toNat = 1 ∨ fn.toNat = 2 ∨ fn.toNat = 4 → imm.toNat = 0) ∧
      (fn.toNat = 3 → imm.toNat < 4 ∧ imm.toNat % 4 ≠ 0) := by
  unfold decodeEnv
  split
  case h_1 => rw [exists_requireNoRing_iff]; simp [*]
  case h_4 => rw [exists_decodeSync_iff]; omega
  case h_6 => simp at *; omega
  all_goals rw [exists_requireNoRing_iff, exists_requireNoOperand_iff]; omega

theorem exists_decode_iff (w : Opw) : (∃ i, decode w = .ok i) ↔ ¬ reservedBy .gray w := by
  have hx := (ringBitOf w).toNat_lt
  simp only [reservedBy, ← toNat_clsOf, ← toNat_ringBitOf, ← toNat_fnOf, ← toNat_imm8Of]
  unfold decode decodeFields
  split
  case h_6 =>
    have hcls : 5 ≤ (clsOf w).toNat := by simp only [imp_false] at *; omega
    simp [hcls]
  all_goals
    next hcls =>
      simp only [exists_requireNoRing_iff, exists_decodeRing_iff, exists_decodeEvent_iff, exists_decodeDispatch_iff,
        exists_decodeLine_iff, exists_decodeEnv_iff]
      generalize (ringBitOf w).toNat = x at *
      simp [hcls]
      omega

/-- In `SYNC = ATOMIC` the SYNC words are reserved too, and no others. -/
theorem reservedBy_iff (mode : SyncMode) (w : Opw) :
    reservedBy mode w ↔ reservedBy .gray w ∨ (mode = .atomic ∧ (clsOf w).toNat = 4 ∧ (fnOf w).toNat = 3) := by
  cases mode <;> simp [reservedBy, toNat_clsOf, toNat_fnOf, or_assoc]

theorem exists_sync_of_decode {w : Opw} {i : Instr} (hcls : (clsOf w).toNat = 4) (hfn : (fnOf w).toNat = 3)
    (h : decode w = .ok i) : ∃ x m, i = .sync x m := by
  simp only [decode, decodeFields, decodeEnv, decodeSync, hcls, hfn] at h
  split at h
  · split at h <;> cases h
    exact ⟨_, _, rfl⟩
  · cases h

/-- The one reserved word that decodes is a SYNC in `SYNC = ATOMIC` (R98). -/
theorem sync_of_reserved {mode : SyncMode} {w : Opw} {i : Instr} (h : reservedBy mode w) (hd : decode w = .ok i) :
    mode = .atomic ∧ ∃ x m, i = .sync x m := by
  obtain hres | ⟨hmode, hcls, hfn⟩ := (reservedBy_iff mode w).mp h
  · exact absurd hres ((exists_decode_iff w).mp ⟨i, hd⟩)
  · exact ⟨hmode, exists_sync_of_decode hcls hfn hd⟩

theorem operationOf_of_reserved {mode : SyncMode} {w : Opw} (h : reservedBy mode w) (i : Instr) :
    operationOf mode w ≠ .ok i := by
  intro hop
  obtain ⟨rfl, x, m, rfl⟩ := sync_of_reserved h (operationOf_eq_ok hop)
  exact absurd (operationOf_sync hop).1 (by decide)

/-! ### The words of a schedule (R97 to R99, R104) -/

theorem mem_of_operationsOf {mode : SyncMode} {ws : List Opw} {is : List Instr} (h : operationsOf mode ws = .ok is) {w : Opw}
    (hw : w ∈ ws) : ∃ i ∈ is, operationOf mode w = .ok i := by
  induction ws generalizing is with
  | nil => cases hw
  | cons v ws ih =>
    obtain ⟨j, js, rfl, hj, hjs⟩ := operationsOf_cons_eq_ok h
    cases hw with
    | head => exact ⟨j, List.mem_cons_self, hj⟩
    | tail _ hw =>
      obtain ⟨i, hi, hop⟩ := ih hjs hw
      exact ⟨i, List.mem_cons_of_mem _ hi, hop⟩

/-- Words that do not read as operations within the usage contract are no valid schedule, and are refused as a whole. -/
theorem schedule_refused {s : State} {ws : List Opw}
    (h : ∀ is, operationsOf s.cfg.sync ws = .ok is → keepsContract is = false) :
    validSchedule s ws = false ∧ ∃ r, runSchedule ws s = .refused r := by
  unfold validSchedule runSchedule
  split
  · exact ⟨rfl, _, rfl⟩
  · next is his =>
    have hk := h is his
    refine ⟨by rw [hk, Bool.false_and], ?_⟩
    split
    · exact ⟨_, rfl⟩
    · next hsub =>
      simp only [keepsContract, hsub, Bool.not_false, Bool.true_and] at hk
      simp [hk]

theorem step_of_decode {s : State} {w : Opw} {rest : List Opw} {i : Instr} (hs : s.sched = w :: rest) (hd : decode w = .ok i) :
    step s = perform i { s with sched := rest } := by
  simp only [step, nextStep, hs, performWord, hd]

/-- Settles O6: the word decodes, and nothing stops its operation. -/
theorem stepPerformsTheNextOperation : Obligations.StepPerformsTheNextOperation := by
  unfold Obligations.StepPerformsTheNextOperation
  intro s w rest i hs hd hsub hprio
  have hprio' : violatesPriority i { s with sched := rest } = false := hprio
  simp [step_of_decode hs hd, perform, hsub, hprio']

theorem step_of_reserved {s : State} {w : Opw} {rest : List Opw} (hs : s.sched = w :: rest) (h : reservedBy s.cfg.sync w) :
    ∃ r, step s = .refused r := by
  cases hd : decode w with
  | error why => exact ⟨.reservedWord why, by simp only [step, nextStep, hs, performWord, hd]⟩
  | ok i =>
    obtain ⟨hmode, x, m, rfl⟩ := sync_of_reserved h hd
    have hx : exec (.sync x m) { s with sched := rest } = .refused .syncInAtomic :=
      execSync_of_atomic (s := { s with sched := rest }) hmode x m
    exact ⟨_, (stepPerformsTheNextOperation s w rest _ hs hd rfl rfl).trans hx⟩

/-- Settles O4: the words that do not decode are those R98 lists, SYNC in `SYNC = ATOMIC` apart, which `operationOf` and the
operation itself refuse. -/
theorem reservedWordsAreRefused : Obligations.ReservedWordsAreRefused := by
  unfold Obligations.ReservedWordsAreRefused
  refine ⟨fun s w rest hs h => step_of_reserved hs h, fun mode w h => ?_, fun s ws ⟨w, hw, h⟩ => ?_⟩
  · exact (exists_decode_iff w).mpr fun hres => h ((reservedBy_iff mode w).mpr (.inl hres))
  · refine schedule_refused fun is his => ?_
    obtain ⟨i, -, hop⟩ := mem_of_operationsOf his hw
    exact absurd hop (operationOf_of_reserved h i)

/-! ### The usage contract (R99, R273) -/

theorem eq_encode_lineWr {w : Opw} (hlow : 0x3200 ≤ w.toNat) (hhigh : w.toNat ≤ 0x32FF) : w = encode (.lineWr (imm8Of w)) := by
  apply BitVec.eq_of_toNat_eq
  rw [encode, toNat_pack, toNat_imm8Of]
  simp
  omega

theorem decode_subOperationWord {w : Opw} (h : subOperationWord w) : ∃ i, decode w = .ok i ∧ isSubOperation i = true := by
  obtain rfl | ⟨hlow, hhigh⟩ | rfl | rfl | rfl := h
  · exact ⟨.lineWrdy, rfl, rfl⟩
  · refine ⟨.lineWr (imm8Of w), ?_, rfl⟩
    have hd := decodeOfEncodeIsTheOperation (.lineWr (imm8Of w)) rfl
    rwa [← eq_encode_lineWr hlow hhigh] at hd
  · exact ⟨.lineRd, rfl, rfl⟩
  · exact ⟨.idlRearm, rfl, rfl⟩
  · exact ⟨.idlDisarm, rfl, rfl⟩

theorem mem_of_decode {mode : SyncMode} {ws : List Opw} {is : List Instr} (h : operationsOf mode ws = .ok is) {w : Opw} {i : Instr}
    (hw : w ∈ ws) (hd : decode w = .ok i) : i ∈ is := by
  obtain ⟨j, hj, hop⟩ := mem_of_operationsOf h hw
  cases hd.symm.trans (operationOf_eq_ok hop)
  exact hj

theorem keepsContract_of_subOperation {is : List Instr} {i : Instr} (hi : i ∈ is) (hsub : isSubOperation i = true) :
    keepsContract is = false := by
  have hany : is.any isSubOperation = true := List.any_eq_true.mpr ⟨i, hi, hsub⟩
  rw [keepsContract, hany, Bool.not_true, Bool.false_and]

theorem keepsContract_of_mixed {is : List Instr} {i j : Instr} {x : RingSel} (hi : i ∈ is) (hj : j ∈ is)
    (hclient : clientRing i = some x) (huses : usesRing x j = true) : keepsContract is = false := by
  have hclients : (is.any fun i => clientRing i == some x) = true := List.any_eq_true.mpr ⟨i, hi, by simp [hclient]⟩
  have hagents : (is.any fun i => usesRing x i) = true := List.any_eq_true.mpr ⟨j, hj, huses⟩
  cases hk : keepsContract is with
  | false => rfl
  | true =>
    obtain ⟨-, hone⟩ := keepsContract_eq_true hk
    have hx := List.all_eq_true.mp hone x (by cases x <;> decide)
    simp [hclients, hagents] at hx

/-- Settles O7: the listed words decode to sub-operations, and each operation of a word is in the list that the contract reads. -/
theorem subOperationsAreRefusedAsSteps : Obligations.SubOperationsAreRefusedAsSteps := by
  unfold Obligations.SubOperationsAreRefusedAsSteps
  refine ⟨fun s w rest hs h => ?_, fun s ws ⟨w, hw, h⟩ => ?_, fun s ws x v w i j hv hw hi hj hclient huses => ?_⟩
  · obtain ⟨i, hd, hsub⟩ := decode_subOperationWord h
    rw [step_of_decode hs hd, perform, if_pos hsub]
  · obtain ⟨i, hd, hsub⟩ := decode_subOperationWord h
    exact schedule_refused fun is his => keepsContract_of_subOperation (mem_of_decode his hw hd) hsub
  · exact schedule_refused fun is his => keepsContract_of_mixed (mem_of_decode his hv hi) (mem_of_decode his hw hj) hclient huses

end Sys2Proof.Machine

/-! O59: a written line reads back (R102). The reader takes a line of plain characters apart at its first blank and its commas; only a
byte operand has more values than are listed. -/

namespace Sys2Proof.Machine

/-! ### Characters that the reader of a line takes as they are -/

/-- The characters that mnemonics and written operands are made of: no blank, comma, quote or semicolon. -/
def isToken (ch : Char) : Bool := !isBlank ch && ch != ',' && ch != '\'' && ch != ';'

/-- A mnemonic or an operand as the writer has it. -/
def isWord (l : List Char) : Bool := !l.isEmpty && l.all isToken

theorem isToken_iff {ch : Char} : isToken ch = true ↔ isBlank ch = false ∧ ch ≠ ',' ∧ ch ≠ '\'' ∧ ch ≠ ';' := by
  simp [isToken, and_assoc]

theorem isWord_iff {l : List Char} : isWord l = true ↔ l ≠ [] ∧ ∀ ch ∈ l, isToken ch = true := by
  simp [isWord]

theorem isToken_of_isWord {l : List Char} (h : isWord l = true) : ∀ ch ∈ l, isToken ch = true := (isWord_iff.mp h).2

theorem isWord_reverse {l : List Char} (h : isWord l = true) : isWord l.reverse = true := by
  simpa [isWord_iff] using h

theorem not_isBlank_of_isWord {l : List Char} (h : isWord l = true) : ∀ ch ∈ l, (!isBlank ch) = true := fun ch hch => by
  simp [(isToken_iff.mp (isToken_of_isWord h ch hch)).1]

theorem uncommented_of_isWord {l : List Char} (h : isWord l = true) : ∀ ch ∈ l, ch ≠ '\'' ∧ ch ≠ ';' := fun ch hch =>
  (isToken_iff.mp (isToken_of_isWord h ch hch)).2.2

/-! ### The parts of the reader -/

theorem stripComment_cons {ch : Char} (hq : ch ≠ '\'') (hs : ch ≠ ';') (rest : List Char) :
    stripComment (ch :: rest) = ch :: stripComment rest := by
  rw [stripComment, if_neg hs]
  exact fun c r h => absurd h hq

theorem stripComment_eq_self {l : List Char} (h : ∀ ch ∈ l, ch ≠ '\'' ∧ ch ≠ ';') : stripComment l = l := by
  induction l with
  | nil => rfl
  | cons ch l ih =>
    obtain ⟨⟨hq, hs⟩, hl⟩ := List.forall_mem_cons.mp h
    rw [stripComment_cons hq hs, ih hl]

theorem dropWhile_isBlank_word {w : List Char} (h : isWord w = true) (rest : List Char) :
    (w ++ rest).dropWhile isBlank = w ++ rest := by
  cases w with
  | nil => cases h
  | cons ch w => exact List.dropWhile_cons_of_neg (by simpa using not_isBlank_of_isWord h ch List.mem_cons_self)

theorem trimBlanks_ends {v w : List Char} (hv : isWord v = true) (hw : isWord w = true) (m : List Char) :
    trimBlanks (v ++ (m ++ w)) = v ++ (m ++ w) := by
  have hlast := dropWhile_isBlank_word (isWord_reverse hw) (v ++ m).reverse
  rw [← List.reverse_append, List.append_assoc] at hlast
  rw [trimBlanks, dropWhile_isBlank_word hv, hlast, List.reverse_reverse]

theorem trimBlanks_space {w : List Char} (h : isWord w = true) : trimBlanks (' ' :: w) = w := by
  have hfirst := dropWhile_isBlank_word h []
  have hlast := dropWhile_isBlank_word (isWord_reverse h) []
  rw [List.append_nil] at hfirst hlast
  rw [trimBlanks, List.dropWhile_cons_of_pos rfl, hfirst, hlast, List.reverse_reverse]

theorem splitOperands_cons {ch : Char} (hq : ch ≠ '\'') (hc : ch ≠ ',') (cur rest : List Char) :
    splitOperands cur (ch :: rest) = splitOperands (ch :: cur) rest := by
  rw [splitOperands, if_neg hc]
  exact fun c r h => absurd h hq

theorem splitOperands_comma (cur rest : List Char) :
    splitOperands cur (',' :: rest) = trimBlanks cur.reverse :: splitOperands [] rest := by
  rw [splitOperands, if_pos rfl]
  exact fun c r h => absurd h (by decide)

theorem splitOperands_tokens {w : List Char} (h : ∀ ch ∈ w, isToken ch = true) (cur rest : List Char) :
    splitOperands cur (w ++ rest) = splitOperands (w.reverse ++ cur) rest := by
  induction w generalizing cur with
  | nil => rfl
  | cons ch w ih =>
    obtain ⟨hch, hw⟩ := List.forall_mem_cons.mp h
    obtain ⟨-, hc, hq, -⟩ := isToken_iff.mp hch
    rw [List.cons_append, splitOperands_cons hq hc, ih hw, List.reverse_cons, List.append_assoc, List.singleton_append]

/-- The operand that starts behind a blank and ends at a comma. -/
theorem splitOperands_word_comma {w : List Char} (h : isWord w = true) (rest : List Char) :
    splitOperands [] (' ' :: (w ++ ',' :: rest)) = w :: splitOperands [] rest := by
  rw [splitOperands_cons (by decide) (by decide), splitOperands_tokens (isToken_of_isWord h), splitOperands_comma,
    List.reverse_append, List.reverse_reverse, List.reverse_singleton, List.singleton_append, trimBlanks_space h]

/-- The operand that ends with the line. -/
theorem splitOperands_word {w : List Char} (h : isWord w = true) : splitOperands [] (' ' :: w) = [w] := by
  have hw := splitOperands_tokens (isToken_of_isWord h) [' '] []
  rw [List.append_nil] at hw
  rw [splitOperands_cons (by decide) (by decide), hw, splitOperands, List.reverse_append, List.reverse_reverse,
    List.reverse_singleton, List.singleton_append, trimBlanks_space h]

theorem readTrimmed_word_space {mn : List Char} (h : isWord mn = true) (rest : List Char) :
    readTrimmed (mn ++ ' ' :: rest) = readOperation mn (splitOperands [] (' ' :: rest)) := by
  rw [readTrimmed, List.takeWhile_append_of_pos (not_isBlank_of_isWord h),
    List.dropWhile_append_of_pos (not_isBlank_of_isWord h), List.takeWhile_cons_of_neg (by decide),
    List.dropWhile_cons_of_neg (by decide), List.append_nil]

/-- A line without quotes and comments that starts with its mnemonic and ends with its last operand. -/
theorem readLine_ends {mn w m : List Char} (hmn : isWord mn = true) (hw : isWord w = true)
    (hm : ∀ ch ∈ m, ch ≠ '\'' ∧ ch ≠ ';') :
    readLine (mn ++ ' ' :: (m ++ w)) = readOperation mn (splitOperands [] (' ' :: (m ++ w))) := by
  have hplain : ∀ ch ∈ mn ++ ' ' :: (m ++ w), ch ≠ '\'' ∧ ch ≠ ';' := by
    intro ch hch
    simp only [List.mem_append, List.mem_cons] at hch
    obtain h | rfl | h | h := hch
    · exact uncommented_of_isWord hmn ch h
    · decide
    · exact hm ch h
    · exact uncommented_of_isWord hw ch h
  rw [readLine, stripComment_eq_self hplain, ← List.cons_append, trimBlanks_ends hmn hw, List.cons_append,
    readTrimmed_word_space hmn]

theorem readLine_one {mn a : List Char} (hmn : isWord mn = true) (ha : isWord a = true) :
    readLine (mn ++ ' ' :: a) = readOperation mn [a] := by
  rw [← splitOperands_word ha]
  exact readLine_ends hmn ha (m := []) (by simp)

theorem readLine_two {mn a b : List Char} (hmn : isWord mn = true) (ha : isWord a = true) (hb : isWord b = true) :
    readLine (mn ++ ' ' :: (a ++ ',' :: ' ' :: b)) = readOperation mn [a, b] := by
  rw [← splitOperands_word hb, ← splitOperands_word_comma ha]
  have hm : ∀ ch ∈ a ++ [',', ' '], ch ≠ '\'' ∧ ch ≠ ';' := by
    intro ch hch
    obtain h | h := List.mem_append.mp hch
    · exact uncommented_of_isWord ha ch h
    · obtain rfl | rfl : ch = ',' ∨ ch = ' ' := by simpa using h
      all_goals decide
  simpa using readLine_ends hmn hb hm

/-! ### Operands -/

theorem hexValue_hexDigit {n : Nat} (h : n < 16) : hexValue (hexDigit n) = some n := by
  revert n
  decide

theorem isToken_hexDigit {n : Nat} (h : n < 16) : isToken (hexDigit n) = true := by
  revert n
  decide

theorem readByte_writeByte (b : Byte) : readByte (writeByte b) = some b := by
  have hb : 16 * (b.toNat / 16) + b.toNat % 16 = b.toNat := Nat.div_add_mod _ _
  simp only [readByte, writeByte, hexValue_hexDigit (show b.toNat / 16 < 16 by omega),
    hexValue_hexDigit (show b.toNat % 16 < 16 by omega), hb, BitVec.ofNat_toNat, BitVec.setWidth_eq]

theorem isWord_writeByte (b : Byte) : isWord (writeByte b) = true := by
  have hprefix : ['0', 'x'].all isToken = true := by decide
  have hhi := isToken_hexDigit (show b.toNat / 16 < 16 by omega)
  have hlo := isToken_hexDigit (show b.toNat % 16 < 16 by omega)
  simpa [isWord, writeByte, hhi, hlo] using hprefix

theorem isWord_writeRing (x : RingSel) : isWord (writeRing x) = true := by cases x <;> rfl

/-! ### Lines with a byte operand -/

theorem readLine_tryPush (x : RingSel) (b : Byte) : readLine (writeLine (.tryPush x b)) = some (.tryPush x b) := by
  calc readLine (writeLine (.tryPush x b))
      = readLine ("TRYPUSH".toList ++ ' ' :: (writeRing x ++ ',' :: ' ' :: writeByte b)) := by cases x <;> rfl
    _ = readOperation "TRYPUSH".toList [writeRing x, writeByte b] := readLine_two rfl (isWord_writeRing x) (isWord_writeByte b)
    _ = (readByte (writeByte b)).map (.tryPush x) := by cases x <;> rfl
    _ = some (.tryPush x b) := by rw [readByte_writeByte, Option.map_some]

theorem readLine_lineWr (b : Byte) : readLine (writeLine (.lineWr b)) = some (.lineWr b) := by
  calc readLine (writeLine (.lineWr b))
      = readOperation "LINEWR".toList [writeByte b] := readLine_one (mn := "LINEWR".toList) rfl (isWord_writeByte b)
    _ = (readByte (writeByte b)).map .lineWr := rfl
    _ = some (.lineWr b) := by rw [readByte_writeByte, Option.map_some]

theorem readLine_envRxByte (b : Byte) : readLine (writeLine (.envRxByte b)) = some (.envRxByte b) := by
  calc readLine (writeLine (.envRxByte b))
      = readOperation "ENV_RXBYTE".toList [writeByte b] := readLine_one (mn := "ENV_RXBYTE".toList) rfl (isWord_writeByte b)
    _ = (readByte (writeByte b)).map .envRxByte := rfl
    _ = some (.envRxByte b) := by rw [readByte_writeByte, Option.map_some]

theorem readLine_writeLine {i : Instr} (h : i.wf = true) : readLine (writeLine i) = some i := by
  cases i
  case tryPush x b => exact readLine_tryPush x b
  case tryPop x => cases x <;> decide
  case occ x role => cases x <;> cases role <;> decide
  case consumeAll x => cases x <;> decide
  case lineWr b => exact readLine_lineWr b
  case envRxByte b => exact readLine_envRxByte b
  case sync x m => cases x <;> revert m <;> decide
  all_goals decide

/-- Settles O59: the reader takes a written line apart into its mnemonic and its operands, and reads each. -/
theorem scheduleTextReadsBack : Obligations.ScheduleTextReadsBack := by
  unfold Obligations.ScheduleTextReadsBack
  exact fun i => readLine_writeLine

end Sys2Proof.Machine

/-! O13 to O18 and O20: the ring operations (R111 to R120). The counts of OCC carry the argument: in each role's view a ring is
full at `C-1` and empty at 0, the true occupancy lies between the consumer's count and the producer's, and a pop lowers the
consumer's count by one. -/

namespace Sys2Proof.Machine

open Sys2Proof.Config

/-! ### Differences of indices (R117) -/

theorem idxSub_eq_zero_iff {c a b : Nat} (ha : a < c) (hb : b < c) : idxSub c a b = 0 ↔ a = b := by
  rw [idxSub_eq ha hb]
  split <;> omega

theorem idxSub_eq_pred_iff {c a b : Nat} (ha : a < c) (hb : b < c) : idxSub c a b = c - 1 ↔ idxInc c a = b := by
  rw [idxSub_eq ha hb, idxInc_eq ha]
  split <;> split <;> omega

theorem idxSub_idxInc_add_one {c a b : Nat} (ha : a < c) (hb : b < c) (hne : a ≠ b) :
    idxSub c a (idxInc c b) + 1 = idxSub c a b := by
  rw [idxSub_eq ha (idxInc_lt (by omega)), idxSub_eq ha hb, idxInc_eq hb]
  split_ifs <;> omega

/-! ### The full and the empty test (R111) -/

theorem Ring.fullP_iff {p : Params} {r : Ring} : r.fullP p = true ↔ (r.head + 1) % p.c = r.viewTail p.sync := beq_iff_eq

theorem Ring.fullP_eq_false_iff {p : Params} {r : Ring} :
    r.fullP p = false ↔ (r.head + 1) % p.c ≠ r.viewTail p.sync := beq_eq_false_iff_ne

theorem Ring.emptyC_iff {p : Params} {r : Ring} : r.emptyC p = true ↔ r.viewHead p.sync = r.tail := beq_iff_eq

theorem Ring.emptyC_eq_false_iff {p : Params} {r : Ring} : r.emptyC p = false ↔ r.viewHead p.sync ≠ r.tail :=
  beq_eq_false_iff_ne

theorem Ring.viewTail_lt {p : Params} {r : Ring} (h : r.ok p) : r.viewTail p.sync < p.c := by
  obtain ⟨-, htail, htailP, -⟩ := h
  cases p.sync with
  | atomic => exact htail
  | gray => exact htailP

/-- The producer's test says that its count is the usable capacity (R112). -/
theorem Ring.fullP_iff_countFor {p : Params} {r : Ring} (h : r.ok p) :
    r.fullP p = true ↔ r.countFor p .producer = p.c - 1 := by
  obtain ⟨hhead, -⟩ := id h
  exact Ring.fullP_iff.trans (idxSub_eq_pred_iff hhead (Ring.viewTail_lt h)).symm

/-- The consumer's test says that its count is 0. -/
theorem Ring.emptyC_iff_countFor {p : Params} {r : Ring} (h : r.ok p) :
    r.emptyC p = true ↔ r.countFor p .consumer = 0 := by
  obtain ⟨-, htail, -⟩ := id h
  exact Ring.emptyC_iff.trans (idxSub_eq_zero_iff (Ring.viewHead_lt h) htail).symm

/-! ### The counts around the true occupancy (R115) -/

theorem Ring.countFor_of_atomic {p : Params} (hs : p.sync = .atomic) (r : Ring) (role : Role) :
    r.countFor p role = r.occupied p := by
  cases role <;> simp [Ring.countFor, Ring.occupied, hs]

/-- What a consumer counts is what CONSUMEALL takes away. -/
theorem Ring.countFor_consumer_le {p : Params} {r : Ring} (h : r.ok p) : r.countFor p .consumer ≤ r.occupied p :=
  Nat.le.intro ((Nat.add_comm ..).trans (Ring.consumed_occupied_le h))

/-- A stale `tail_p` is at or behind the tail (R27), so the producer counts every byte the ring holds. -/
theorem Ring.occupied_le_countFor_producer {p : Params} {r : Ring} (h : r.ok p) :
    r.occupied p ≤ r.countFor p .producer := by
  cases hs : p.sync with
  | atomic => exact (Ring.countFor_of_atomic hs r .producer).ge
  | gray =>
    obtain ⟨hhead, htail, htailP, -, -, -, horder, -⟩ := h
    obtain ⟨hle, -⟩ := horder hs
    simp only [Ring.occupied, Ring.countFor, hs, Ring.viewTail_gray]
    rw [idxSub_eq htail htailP, idxSub_eq hhead htailP] at hle
    rw [idxSub_eq hhead htail, idxSub_eq hhead htailP]
    split_ifs at * <;> omega

theorem Ring.countFor_le_pred {p : Params} (hp : p.ok) (role : Role) (r : Ring) : r.countFor p role ≤ p.c - 1 :=
  Nat.le_sub_one_of_lt (Ring.countFor_lt hp role r)

/-- Settles O15. -/
theorem occCountsInTheRolesView : Obligations.OccCountsInTheRolesView := by
  unfold Obligations.OccCountsInTheRolesView
  exact fun s x => ⟨rfl, rfl, fun hs => Ring.countFor_of_atomic hs (s.ring x), fun hp hr =>
    ⟨Ring.countFor_consumer_le hr, Ring.occupied_le_countFor_producer hr, Ring.countFor_le_pred hp .producer (s.ring x)⟩⟩

/-! ### Full and empty against the true occupancy (R111) -/

theorem Ring.fullP_of_occupied {p : Params} {r : Ring} (hp : p.ok) (h : r.ok p) (hocc : r.occupied p = p.c - 1) :
    r.fullP p = true :=
  (Ring.fullP_iff_countFor h).2 <|
    Nat.le_antisymm (Ring.countFor_le_pred hp .producer r) (hocc ▸ Ring.occupied_le_countFor_producer h)

theorem Ring.emptyC_of_occupied {p : Params} {r : Ring} (h : r.ok p) (hocc : r.occupied p = 0) : r.emptyC p = true :=
  (Ring.emptyC_iff_countFor h).2 (Nat.eq_zero_of_le_zero (hocc ▸ Ring.countFor_consumer_le h))

theorem Ring.fullP_iff_occupied {p : Params} {r : Ring} (hs : p.sync = .atomic) (h : r.ok p) :
    r.fullP p = true ↔ r.occupied p = p.c - 1 := by
  rw [Ring.fullP_iff_countFor h, Ring.countFor_of_atomic hs]

theorem Ring.emptyC_iff_occupied {p : Params} {r : Ring} (hs : p.sync = .atomic) (h : r.ok p) :
    r.emptyC p = true ↔ r.occupied p = 0 := by
  rw [Ring.emptyC_iff_countFor h, Ring.countFor_of_atomic hs]

/-- Parameters with view registers and rings of four slots. -/
def fourGraySlots : Params := { Params.reference with c := 4, sync := .gray }

/-- Three pushes and a pop: the consumer has seen the first push alone, the producer has not seen the pop, and two bytes are
queued (R66). -/
def bothViewsStale : Ring where
  buf := [(0, 0x61), (1, 0x62), (2, 0x63)]
  head := 3
  tail := 1
  tailP := 0
  headC := 1

theorem bothViewsStale_ok : bothViewsStale.ok fourGraySlots := by decide

/-- Settles O18: one ring with both views stale tests full with room and empty with bytes. -/
theorem fullAndEmptyAgainstOccupancy : Obligations.FullAndEmptyAgainstOccupancy := by
  unfold Obligations.FullAndEmptyAgainstOccupancy
  refine ⟨fun p r hp hr => ⟨fun hs => ⟨Ring.fullP_iff_occupied hs hr, Ring.emptyC_iff_occupied hs hr⟩,
    fun _ => ⟨Ring.fullP_of_occupied hp hr, Ring.emptyC_of_occupied hr⟩⟩, ?_, ?_⟩
  · exact ⟨fourGraySlots, bothViewsStale, by decide, bothViewsStale_ok, rfl, by decide, by decide⟩
  · exact ⟨fourGraySlots, bothViewsStale, by decide, bothViewsStale_ok, rfl, by decide, by decide⟩

/-! ### TRYPUSH and TRYPOP as whole next states (R113, R114) -/

/-- The state after a push that stores `b` (R113). -/
def State.afterPush (s : State) (x : RingSel) (b : Byte) : State :=
  { (s.setRing x ((s.ring x).pushed s.cfg b)).arm x with result := .ok true }

@[simp] theorem State.afterPush_ring (s : State) (x : RingSel) (b : Byte) :
    (s.afterPush x b).ring x = (s.ring x).pushed s.cfg b := by
  cases x <;> rfl

@[simp] theorem State.afterPush_cfg (s : State) (x : RingSel) (b : Byte) : (s.afterPush x b).cfg = s.cfg := by
  cases x <;> rfl

/-- The state after a pop that takes `b` (R114). -/
def State.afterPop (s : State) (x : RingSel) (b : Byte) : State :=
  { s.setRing x ((s.ring x).popped s.cfg) with result := .popped (some b) }

@[simp] theorem State.afterPop_ring (s : State) (x : RingSel) (b : Byte) :
    (s.afterPop x b).ring x = (s.ring x).popped s.cfg := by
  cases x <;> rfl

@[simp] theorem State.afterPop_cfg (s : State) (x : RingSel) (b : Byte) : (s.afterPop x b).cfg = s.cfg := by
  cases x <;> rfl

theorem execTryPush_of_full {s : State} {x : RingSel} (hf : (s.ring x).fullP s.cfg = true) (b : Byte) :
    exec (.tryPush x b) s = .next { s with result := .ok false } := by
  simp only [exec, execTryPush, pushOp, hf, if_true, finish]

theorem execTryPush_of_not_full {s : State} {x : RingSel} (hf : (s.ring x).fullP s.cfg = false) (b : Byte) :
    exec (.tryPush x b) s = .next (s.afterPush x b) := by
  simp only [exec, execTryPush, pushOp, hf, Bool.false_eq_true, if_false, finish, State.afterPush]

theorem execTryPop_of_empty {s : State} {x : RingSel} (he : (s.ring x).emptyC s.cfg = true) :
    exec (.tryPop x) s = .next { s with result := .popped none } := by
  simp only [exec, execTryPop, popOp, he, if_true, andThen_next, finish]

theorem execTryPop_of_read {s : State} {x : RingSel} {b : Byte} (he : (s.ring x).emptyC s.cfg = false)
    (hb : (s.ring x).buf.read (s.ring x).tail = some b) : exec (.tryPop x) s = .next (s.afterPop x b) := by
  simp only [exec, execTryPop, popOp_of_read he hb, andThen_next, finish, State.afterPop]

theorem execTryPop_of_none {s : State} {x : RingSel} (hne : (s.ring x).viewHead s.cfg.sync ≠ (s.ring x).tail)
    (hb : (s.ring x).buf.read (s.ring x).tail = none) :
    exec (.tryPop x) s = .fault (.unwrittenSlot x (s.ring x).tail) := by
  simp only [exec, execTryPop, popOp_of_none hne hb, andThen_fault]

/-- Settles O13. -/
theorem tryPushStoresAtTheHeadOrFails : Obligations.TryPushStoresAtTheHeadOrFails := by
  unfold Obligations.TryPushStoresAtTheHeadOrFails
  exact fun s b => ⟨fun x hx => execTryPush_of_full (Ring.fullP_iff.2 hx) b,
    fun hne => execTryPush_of_not_full (x := .tx) (Ring.fullP_eq_false_iff.2 hne) b,
    fun hne => execTryPush_of_not_full (x := .rx) (Ring.fullP_eq_false_iff.2 hne) b⟩

/-- Settles O14. -/
theorem tryPopTakesTheByteAtTheTail : Obligations.TryPopTakesTheByteAtTheTail := by
  unfold Obligations.TryPopTakesTheByteAtTheTail
  exact fun s x => ⟨fun he => execTryPop_of_empty (Ring.emptyC_iff.2 he),
    fun hne => ⟨fun b => execTryPop_of_read (Ring.emptyC_eq_false_iff.2 hne), execTryPop_of_none hne⟩⟩

/-! ### CONSUMEALL (R116) -/

@[simp] theorem Ring.consumed_viewHead (p : Params) (r : Ring) (m : SyncMode) : (r.consumed p).viewHead m = r.viewHead m := by
  cases m <;> rfl

@[simp] theorem Ring.popped_viewHead (p : Params) (r : Ring) (m : SyncMode) : (r.popped p).viewHead m = r.viewHead m := by
  cases m <;> rfl

/-- The consumer's view of the head does not move with the tail. -/
theorem Ring.consumed_emptyC (p : Params) (r : Ring) : (r.consumed p).emptyC p = true :=
  Ring.emptyC_iff.2 (Ring.consumed_viewHead p r p.sync)

theorem Ring.consumed_occupied {p : Params} (hs : p.sync = .atomic) (r : Ring) : (r.consumed p).occupied p = 0 := by
  simp [Ring.occupied, hs]

theorem execConsumeAll_eq (x : RingSel) (s : State) :
    exec (.consumeAll x) s = .next { s.setRing x ((s.ring x).consumed s.cfg) with result := .none } := rfl

/-- Settles O16. -/
theorem consumeAllEmptiesTheRing : Obligations.ConsumeAllEmptiesTheRing := by
  unfold Obligations.ConsumeAllEmptiesTheRing
  intro s x
  obtain ⟨htx, hrx, -⟩ := setRing_storage (s := s) (x := x) (r := (s.ring x).consumed s.cfg) rfl
  refine ⟨_, execConsumeAll_eq x s, rfl, ?_, ?_, memRead_congr htx hrx⟩
  · cases x <;> exact Ring.consumed_emptyC s.cfg _
  · cases x <;> exact fun hs => Ring.consumed_occupied hs _

/-- A pop that succeeds lowers the consumer's count by one. -/
theorem Ring.countFor_popped {p : Params} {r : Ring} (h : r.ok p) (he : r.emptyC p = false) :
    (r.popped p).countFor p .consumer + 1 = r.countFor p .consumer := by
  obtain ⟨-, htail, -⟩ := id h
  simp only [Ring.countFor, Ring.popped_viewHead]
  exact idxSub_idxInc_add_one (Ring.viewHead_lt h) htail (Ring.emptyC_eq_false_iff.1 he)

theorem Ring.consumed_popped (p : Params) (r : Ring) : (r.popped p).consumed p = r.consumed p := by
  simp

theorem State.setRing_self (s : State) (x : RingSel) : s.setRing x (s.ring x) = s := by
  cases x <;> rfl

/-- What CONSUMEALL writes behind a pop, it writes without it. -/
theorem State.consumed_afterPop (s : State) (x : RingSel) (b : Byte) (v : Result) :
    { (s.afterPop x b).setRing x (((s.afterPop x b).ring x).consumed (s.afterPop x b).cfg) with result := v } =
      { s.setRing x ((s.ring x).consumed s.cfg) with result := v } := by
  rw [State.afterPop_ring, State.afterPop_cfg, Ring.consumed_popped]
  cases x <;> rfl

/-- As many pops as the consumer counts take the tail to the consumer's view of the head. -/
theorem performAll_tryPop_countFor {s : State} {x : RingSel} (hr : (s.ring x).ok s.cfg) :
    ∃ v, performAll (List.replicate ((s.ring x).countFor s.cfg .consumer) (.tryPop x)) s =
      .next { s.setRing x ((s.ring x).consumed s.cfg) with result := v } := by
  induction hn : (s.ring x).countFor s.cfg .consumer generalizing s with
  | zero =>
    have he : (s.ring x).viewHead s.cfg.sync = (s.ring x).tail := Ring.emptyC_iff.1 ((Ring.emptyC_iff_countFor hr).2 hn)
    rw [Ring.consumed, he, State.setRing_self]
    exact ⟨s.result, rfl⟩
  | succ n ih =>
    have he : (s.ring x).emptyC s.cfg = false := by
      rw [Bool.eq_false_iff, ne_eq, Ring.emptyC_iff_countFor hr]
      omega
    obtain ⟨b, hb⟩ := Ring.oldest_written hr he
    have hcount := Ring.countFor_popped hr he
    obtain ⟨v, hv⟩ := ih (s := s.afterPop x b) (by simpa using Ring.popped_ok hr he) (by simp; omega)
    refine ⟨v, ?_⟩
    calc performAll (List.replicate (n + 1) (.tryPop x)) s
        = andThen (exec (.tryPop x) s) (performAll (List.replicate n (.tryPop x))) := rfl
      _ = performAll (List.replicate n (.tryPop x)) (s.afterPop x b) := by rw [execTryPop_of_read he hb, andThen_next]
      _ = _ := by rw [hv, State.consumed_afterPop]

/-- Settles O17. -/
theorem consumeAllEqualsRepeatedPops : Obligations.ConsumeAllEqualsRepeatedPops := by
  unfold Obligations.ConsumeAllEqualsRepeatedPops
  intro s x _ hr
  obtain ⟨v, hv⟩ := performAll_tryPop_countFor hr
  exact ⟨_, v, execConsumeAll_eq x s, hv⟩

/-! ### The round trip of a full ring (R120) -/

/-- Settles O20: the pop makes room for exactly the one byte that the second push stores. -/
theorem fullRingRoundTrip : Obligations.FullRingRoundTrip := by
  unfold Obligations.FullRingRoundTrip
  intro s x b d hp hr hs hocc
  obtain ⟨hc, -⟩ := id hp
  have he : (s.ring x).emptyC s.cfg = false := by
    rw [Bool.eq_false_iff, ne_eq, Ring.emptyC_iff_occupied hs hr]
    omega
  obtain ⟨c, hread⟩ := Ring.oldest_written hr he
  have hpop := Ring.occupied_popped hr he
  have hr' := Ring.popped_ok hr he
  have hf : ((s.ring x).popped s.cfg).fullP s.cfg = false := by
    rw [Bool.eq_false_iff, ne_eq, Ring.fullP_iff_occupied hs hr']
    omega
  have hpush := Ring.occupied_pushed hr' hf d
  refine ⟨execTryPush_of_full (Ring.fullP_of_occupied hp hr hocc) b, s.afterPop x c, (s.afterPop x c).afterPush x d, c,
    execTryPop_of_read he hread, rfl, ?_, execTryPush_of_not_full (by simpa using hf) d, rfl, ?_, ?_⟩ <;>
    simp only [State.afterPush_ring, State.afterPush_cfg, State.afterPop_ring, State.afterPop_cfg]
  · omega
  · omega
  · rw [Ring.bytes_pushed hr' hf, ← List.cons_append, ← Ring.bytes_popped hr he hread]

end Sys2Proof.Machine

/-! O28, O53 and O57: the transmit pump (R131 to R135). What an operation of a schedule does to TX, the wire and `TXIE` is said once,
as one of eight effects; that queued bytes mean a draining pump, and that the wire carries what was pushed, hold of each effect. -/

namespace Sys2Proof.Machine

/-! ### EV_TXRDY as whole next states (R132) -/

theorem State.evTxRdyEnabled_iff {s : State} :
    s.evTxRdyEnabled = true ↔ s.lineEn = true ∧ s.txie = true ∧ s.txRdy = true := by
  simp [State.evTxRdyEnabled, and_assoc]

theorem popOp_of_empty {x : RingSel} {s : State} (he : (s.ring x).emptyC s.cfg = true) : popOp x s = .next (none, s) := by
  simp only [popOp, he, if_true]

theorem lineWrOp_of_ready {s : State} (hl : s.lineEn = true) (hr : s.txRdy = true) (b : Byte) :
    lineWrOp b s = .next { s with wireTx := s.wireTx ++ [b], txRdy := false } := by
  simp only [lineWrOp, hl, hr, Bool.and_self, if_true]

theorem execEvTxRdy_of_empty {s : State} (hg : s.evTxRdyEnabled = true) (he : s.tx.emptyC s.cfg = true) :
    exec .evTxRdy s = .next { s with txie := false, result := .none } := by
  have hpop : popOp .tx s = .next (none, s) := popOp_of_empty he
  simp only [exec, execEvTxRdy, hg, guarded_true, hpop, andThen_next, finish]

theorem execEvTxRdy_of_read {s : State} {b : Byte} (hg : s.evTxRdyEnabled = true) (he : s.tx.emptyC s.cfg = false)
    (hb : s.tx.buf.read s.tx.tail = some b) :
    exec .evTxRdy s = .next { s with
      tx := s.tx.popped s.cfg, wireTx := s.wireTx ++ [b], txRdy := false, result := .none } := by
  obtain ⟨hl, -, hr⟩ := State.evTxRdyEnabled_iff.1 hg
  have hpop : popOp .tx s = .next (some b, s.setRing .tx (s.tx.popped s.cfg)) := popOp_of_read he hb
  have hwr := lineWrOp_of_ready (s := s.setRing .tx (s.tx.popped s.cfg)) hl hr b
  simp only [exec, execEvTxRdy, hg, guarded_true, hpop, andThen_next, hwr]
  rfl

/-- Settles O28. -/
theorem evTxRdySendsOneByteOrIdles : Obligations.EvTxRdySendsOneByteOrIdles := by
  unfold Obligations.EvTxRdySendsOneByteOrIdles
  refine fun s => ⟨fun hn => ?_, fun hl hi hr => ?_⟩
  · exact exec_of_not_enabled (Bool.eq_false_iff.2 (mt State.evTxRdyEnabled_iff.1 hn))
  · have hg : s.evTxRdyEnabled = true := State.evTxRdyEnabled_iff.2 ⟨hl, hi, hr⟩
    exact ⟨fun he => execEvTxRdy_of_empty hg (Ring.emptyC_iff.2 he),
      fun b hne => execEvTxRdy_of_read hg (Ring.emptyC_eq_false_iff.2 hne)⟩

/-! ### What an operation does to TX, the wire and TXIE -/

/-- The effects of operation `i` from `s` on TX, `WIRE_TX` and `TXIE`: which values the three may have after it. -/
inductive TxEffect (i : Instr) (s : State) : Ring → List Byte → Bool → Prop where
  /-- Nothing is queued or sent; `TXIE` may be set, as DSP_TXEN does (R185). -/
  | kept {e : Bool} (hie : s.txie = true → e = true) : TxEffect i s s.tx s.wireTx e
  /-- EV_TXRDY finds nothing to send (R132). -/
  | idled (he : s.tx.emptyC s.cfg = true) : TxEffect i s s.tx s.wireTx false
  /-- A push that succeeds arms the pump (R113, R131). -/
  | pushed {b : Byte} (hb : byteForTx s i = some b) (hf : s.tx.fullP s.cfg = false) :
      TxEffect i s (s.tx.pushed s.cfg b) s.wireTx true
  /-- EV_TXRDY sends the oldest byte (R132). -/
  | sent {b : Byte} (he : s.tx.emptyC s.cfg = false) (hb : s.tx.buf.read s.tx.tail = some b) :
      TxEffect i s (s.tx.popped s.cfg) (s.wireTx ++ [b]) s.txie
  /-- A client takes the oldest byte (R114). -/
  | popped (hi : i = .tryPop .tx) (he : s.tx.emptyC s.cfg = false) : TxEffect i s (s.tx.popped s.cfg) s.wireTx s.txie
  /-- A client takes every byte in view (R116). -/
  | consumed (hi : i = .consumeAll .tx) : TxEffect i s (s.tx.consumed s.cfg) s.wireTx s.txie
  /-- SYNC refreshes TX's views (R227). -/
  | refreshed (hs : s.cfg.sync = .gray) (m : BitVec 2) : TxEffect i s (s.tx.refresh m) s.wireTx s.txie
  /-- RESET (R47). -/
  | reset (hi : i = .reset) : TxEffect i s Ring.empty [] false

@[simp] theorem pushOp_wireTx (x : RingSel) (b : Byte) (s : State) : (pushOp x b s).2.wireTx = s.wireTx := by
  obtain ⟨r, e, h, -⟩ := pushOp_frame x b s
  simp [h]

@[simp] theorem pushOp_rx_tx (b : Byte) (s : State) : (pushOp .rx b s).2.tx = s.tx :=
  pushOp_ring_ne (x := .rx) (y := .tx) (by decide) b s

@[simp] theorem pushOp_rx_txie (b : Byte) (s : State) : (pushOp .rx b s).2.txie = s.txie := by
  rcases pushOp_cases .rx b s with ⟨-, e⟩ | ⟨-, e⟩ <;> rw [e]
  rfl

/-- A push to TX by the operation whose byte it is, from a state that agrees with `s` on the pump, is dropped or arms the pump. -/
theorem txEffect_pushOp {i : Instr} {s u : State} {b : Byte} (hb : byteForTx s i = some b) (htx : u.tx = s.tx)
    (hwire : u.wireTx = s.wireTx) (hie : u.txie = s.txie) (hcfg : u.cfg = s.cfg) :
    TxEffect i s (pushOp .tx b u).2.tx (pushOp .tx b u).2.wireTx (pushOp .tx b u).2.txie := by
  rcases pushOp_cases .tx b u with ⟨-, e⟩ | ⟨hf, e⟩ <;> rw [e]
  · rw [htx, hwire, hie]
    exact .kept id
  · rw [State.ring_tx, htx, hcfg] at hf
    show TxEffect i s (u.tx.pushed u.cfg b) u.wireTx true
    rw [htx, hwire, hcfg]
    exact .pushed hb hf

/-- Every operation of a schedule has one of the effects; LINEWR alone, which writes an operand to the wire, would have none (R99). -/
theorem perform_txEffect {i : Instr} {s t : State} (h : perform i s = .next t) : TxEffect i s t.tx t.wireTx t.txie := by
  obtain ⟨hsub, -, hx⟩ := perform_eq_next h
  cases i with
  | tryPush x b =>
    obtain rfl := execTryPush_next hx
    cases x with
    | tx => exact txEffect_pushOp rfl rfl rfl rfl rfl
    | rx => simpa using .kept id
  | tryPop x =>
    obtain ⟨p, hp, rfl⟩ := execTryPop_next hx
    obtain ⟨-, rfl⟩ | ⟨he, b, -, rfl⟩ := popOp_cases hp
    · exact .kept id
    · cases x with
      | tx => exact .popped rfl he
      | rx => exact .kept id
  | consumeAll x =>
    obtain rfl := execConsumeAll_next hx
    cases x with
    | tx => exact .consumed rfl
    | rx => exact .kept id
  | evRx =>
    obtain ⟨b, -, -, -, hd, -, rfl⟩ := execEvRx_next hx
    exact txEffect_pushOp hd (by simp) (by simp) (by simp) (by simp)
  | evTxRdy =>
    obtain ⟨-, -, -, ⟨he, rfl⟩ | ⟨he, b, hb, rfl⟩⟩ := execEvTxRdy_next hx
    · exact .idled he
    · exact .sent he hb
  | dspEnq =>
    obtain ⟨-, -, b, hb, rfl⟩ := execDspEnq_next hx
    simpa using txEffect_pushOp (i := .dspEnq) hb rfl rfl rfl rfl
  | dspTxEn => obtain ⟨-, -, rfl⟩ := execDspTxEn_next hx; exact .kept fun _ => rfl
  | sync x m =>
    obtain ⟨hs, rfl⟩ := execSync_next hx
    cases x with
    | tx => exact .refreshed hs m
    | rx => exact .kept id
  | reset => obtain rfl := execReset_next hx; exact .reset rfl
  | occ x role => obtain rfl := execOcc_next hx; exact .kept id
  | evIdle => obtain ⟨-, rfl⟩ := execEvIdle_next hx; exact .kept id
  | evHb => obtain ⟨-, rfl⟩ := execEvHb_next hx; exact .kept id
  | dspPollIdle => obtain ⟨-, -, ⟨-, -, -, rfl⟩ | ⟨-, rfl⟩⟩ := execDspPollIdle_next hx <;> exact .kept id
  | dspRxClr => obtain ⟨-, -, rfl⟩ := execDspRxClr_next hx; exact .kept id
  | dspIdlfClr => obtain ⟨-, -, rfl⟩ := execDspIdlfClr_next hx; exact .kept id
  | dspPollHb => obtain ⟨-, -, ⟨-, rfl⟩ | ⟨-, rfl⟩⟩ := execDspPollHb_next hx <;> exact .kept id
  | lineInit => obtain ⟨-, -, rfl⟩ := execLineInit_next hx; exact .kept id
  | hbtInit => obtain ⟨-, rfl⟩ := execHbtInit_next hx; exact .kept id
  | idltInit => obtain ⟨-, rfl⟩ := execIdltInit_next hx; exact .kept id
  | envRxByte b => obtain ⟨-, -, rfl⟩ := execEnvRxByte_next hx; exact .kept id
  | envTxDone => obtain ⟨-, -, rfl⟩ := execEnvTxDone_next hx; exact .kept id
  | tick => obtain ⟨-, a, b, c, d, rfl⟩ := execTick_next hx; exact .kept id
  | lineWrdy | lineWr _ | lineRd | idlRearm | idlDisarm => cases hsub

/-! ### Queued bytes mean a draining pump (R135) -/

/-- In ATOMIC the pump goes idle only on a ring that holds nothing, for there the consumer's view is the true head. -/
theorem TxEffect.pump {i : Instr} {s : State} {r : Ring} {w : List Byte} {e : Bool} (h : TxEffect i s r w e)
    (hok : s.tx.ok s.cfg) (hpump : s.pumpOk) (hs : s.cfg.sync = .atomic) (hocc : 0 < r.occupied s.cfg) : e = true := by
  cases h with
  | kept hie => exact hie (hpump hs hocc)
  | idled he => rw [(Ring.emptyC_iff_occupied hs hok).1 he] at hocc; cases hocc
  | pushed hb hf => rfl
  | sent he hb => exact hpump hs (Ring.occupied_of_not_empty hok he)
  | popped hi he => exact hpump hs (Ring.occupied_of_not_empty hok he)
  | consumed hi => rw [Ring.consumed_occupied hs] at hocc; cases hocc
  | refreshed hgray m => rw [hs] at hgray; cases hgray
  | reset hi => simp [Ring.empty, Ring.occupied] at hocc

theorem perform_pumpOk {i : Instr} {s t : State} (hinv : s.Inv) (hpump : s.pumpOk) (h : perform i s = .next t) : t.pumpOk := by
  obtain ⟨-, -, hx⟩ := perform_eq_next h
  rw [State.pumpOk, exec_cfg hx]
  exact (perform_txEffect h).pump (hinv.ring_ok .tx) hpump

/-- Settles O53: a step is an operation performed on the state with one word taken, which keeps the pump invariant. -/
theorem stepKeepsThePumpInvariant : Obligations.StepKeepsThePumpInvariant := by
  unfold Obligations.StepKeepsThePumpInvariant
  intro s t hinv hpump hst
  obtain ⟨w, rest, i, -, -, hp⟩ := step_eq_next hst
  exact perform_pumpOk (s := { s with sched := rest }) hinv hpump hp

/-! ### The wire carries what was pushed (R134) -/

/-- A byte sent leaves the queue's front for the wire's end, so the two together change by a push alone. -/
theorem TxEffect.wire {i : Instr} {s : State} {r : Ring} {w : List Byte} {e : Bool} (h : TxEffect i s r w e)
    (hok : s.tx.ok s.cfg) (hreset : i ≠ .reset) (hpop : i ≠ .tryPop .tx) (hall : i ≠ .consumeAll .tx) :
    (w ++ r.bytes s.cfg = s.wireTx ++ s.tx.bytes s.cfg ∧ r.head = s.tx.head) ∨
    (∃ b, byteForTx s i = some b ∧ s.tx.fullP s.cfg = false ∧
      w ++ r.bytes s.cfg = s.wireTx ++ s.tx.bytes s.cfg ++ [b]) := by
  cases h with
  | kept hie => exact .inl ⟨rfl, rfl⟩
  | idled he => exact .inl ⟨rfl, rfl⟩
  | pushed hb hf => exact .inr ⟨_, hb, hf, by rw [Ring.bytes_pushed hok hf, List.append_assoc]⟩
  | sent he hb => exact .inl ⟨by rw [Ring.bytes_popped hok he hb, List.append_assoc, List.singleton_append], rfl⟩
  | refreshed hs m => exact .inl ⟨rfl, rfl⟩
  | popped hi he => exact absurd hi hpop
  | consumed hi => exact absurd hi hall
  | reset hi => exact absurd hi hreset

/-- Settles O57. -/
theorem wireCarriesWhatWasPushed : Obligations.WireCarriesWhatWasPushed := by
  unfold Obligations.WireCarriesWhatWasPushed
  intro i s t hinv h hreset hpop hall
  obtain ⟨-, -, hx⟩ := perform_eq_next h
  rw [exec_cfg hx]
  exact (perform_txEffect h).wire (hinv.ring_ok .tx) hreset hpop hall

end Sys2Proof.Machine

/-! O27: the receive collector (R141, R142). A push, stored or dropped, is one update of its ring, so the two pushes of EV_RX compose
without a case for each pair of answers. -/

namespace Sys2Proof.Machine

theorem State.evRxEnabled_iff {s : State} :
    s.evRxEnabled = true ↔ s.lineEn = true ∧ s.rxie = true ∧ s.rxPend = true := by
  simp [State.evRxEnabled, and_assoc]

theorem idlRearmOp_eq_of_configured {s : State} (h : s.idleCfg = true) :
    idlRearmOp s = .next { s with idleArmed := true, idleCnt := s.cfg.idleWindowTicks, idlePend := false } := if_pos h

/-- A push to RX, whatever it answers, writes no register but the ring's (R113). -/
theorem pushOp_rx_snd (b : Byte) (s : State) :
    (pushOp .rx b s).2 = { s with
      rx := if (s.rx.head + 1) % s.cfg.c = s.rx.viewTail s.cfg.sync then s.rx else s.rx.pushed s.cfg b } := by
  rcases pushOp_cases .rx b s with ⟨hfull, e⟩ | ⟨hroom, e⟩ <;> rw [e]
  · rw [State.ring_rx, Ring.fullP_iff] at hfull
    rw [if_pos hfull]
  · rw [State.ring_rx, Ring.fullP_eq_false_iff] at hroom
    rw [if_neg hroom]
    rfl

/-- A push to TX that stores its byte arms the pump (R113, R131). -/
theorem pushOp_tx_snd (b : Byte) (s : State) :
    (pushOp .tx b s).2 = { s with
      tx := if (s.tx.head + 1) % s.cfg.c = s.tx.viewTail s.cfg.sync then s.tx else s.tx.pushed s.cfg b
      txie := if (s.tx.head + 1) % s.cfg.c = s.tx.viewTail s.cfg.sync then s.txie else true } := by
  rcases pushOp_cases .tx b s with ⟨hfull, e⟩ | ⟨hroom, e⟩ <;> rw [e]
  · rw [State.ring_tx, Ring.fullP_iff] at hfull
    rw [if_pos hfull, if_pos hfull]
  · rw [State.ring_tx, Ring.fullP_eq_false_iff] at hroom
    rw [if_neg hroom, if_neg hroom]
    rfl

/-- The pushes before the rearm leave the idle timer configured. -/
theorem execEvRx_of_configured {s : State} {b : Byte} (hg : s.evRxEnabled = true) (hd : s.rxData = some b)
    (hc : s.idleCfg = true) :
    exec .evRx s = .next { (pushOp .tx b (pushOp .rx b { s with rxPend := false }).2).2 with
      idleArmed := true, idleCnt := s.cfg.idleWindowTicks, idlePend := false, result := .none } := by
  have hc' : (pushOp .tx b (pushOp .rx b { s with rxPend := false }).2).2.idleCfg = true := by simpa using hc
  simp only [exec, execEvRx, hg, guarded_true, lineRdOp_of_rxData (State.rxPend_of_evRxEnabled hg) hd, andThen_next,
    idlRearmOp_eq_of_configured hc', finish, pushOp_cfg]

/-- Settles O27: the echo's push reads TX and the parameters, which the push to RX leaves as they are. -/
theorem evRxStoresEchoesAndRearms : Obligations.EvRxStoresEchoesAndRearms := by
  unfold Obligations.EvRxStoresEchoesAndRearms
  refine fun s => ⟨fun hn => ?_, fun b hl hi hp hd hc => ?_⟩
  · exact exec_of_not_enabled (Bool.eq_false_iff.2 (mt State.evRxEnabled_iff.1 hn))
  · rw [execEvRx_of_configured (State.evRxEnabled_iff.2 ⟨hl, hi, hp⟩) hd hc, pushOp_rx_snd, pushOp_tx_snd]
    rfl

end Sys2Proof.Machine

/-! O8, O29, O45 and O48: the idle timer (R150 to R158). The tick is said once for a timer that counts and a heartbeat period that
does not end, and the state after several such ticks is written out, so that both clauses of O48 read it. -/

namespace Sys2Proof.Machine

/-! ### The timers' handlers (R153, R167) -/

theorem execEvIdle_of_idlePend {s : State} (h : s.idlePend = true) :
    exec .evIdle s = .next { s with idlePend := false, idlf := true, idleArmed := false, result := .none } := by
  simp only [exec, execEvIdle, State.evIdleEnabled, h, guarded_true, idlDisarmOp, finish]

theorem execEvHb_of_hbPend {s : State} (h : s.hbPend = true) :
    exec .evHb s = .next { s with hbPend := false, hbf := true, result := .none } := by
  simp only [exec, execEvHb, State.evHbEnabled, h, guarded_true, finish]

/-- Settles O29: one equation per handler and value of its pending bit. -/
theorem timerHandlersSetTheirFlags : Obligations.TimerHandlersSetTheirFlags := by
  unfold Obligations.TimerHandlersSetTheirFlags
  exact fun s => ⟨exec_of_not_enabled (i := .evIdle), execEvIdle_of_idlePend, exec_of_not_enabled (i := .evHb),
    execEvHb_of_hbPend⟩

/-! ### Rearming and disarming (R154, R155) -/

theorem execIdlRearm_of_configured {s : State} (h : s.idleCfg = true) : exec .idlRearm s = .next { s with
    idleArmed := true, idleCnt := s.cfg.idleWindowTicks, idlePend := false, result := .none } := by
  simp only [exec, execIdlRearm, idlRearmOp_eq_of_configured h, andThen_next, finish]

theorem execIdlRearm_of_not_configured {s : State} (h : s.idleCfg = false) :
    exec .idlRearm s = .refused .idleTimerNotConfigured := by
  simp only [exec, execIdlRearm, idlRearmOp_of_not_configured h, andThen_refused]

theorem execIdlDisarm_eq (s : State) : exec .idlDisarm s = .next { s with idleArmed := false, result := .none } := rfl

/-- Settles O45. -/
theorem rearmStartsAFullWindowAndDisarmStopsIt : Obligations.RearmStartsAFullWindowAndDisarmStopsIt := by
  unfold Obligations.RearmStartsAFullWindowAndDisarmStopsIt
  exact fun s => ⟨execIdlRearm_of_configured, execIdlRearm_of_not_configured, execIdlDisarm_eq s⟩

/-! ### The tie-break (R158, R247) -/

theorem violatesPriority_evRx_iff {s : State} :
    violatesPriority .evRx s = true ↔ s.evRxEnabled = true ∧ s.idlePend = true := by
  simp [violatesPriority, State.evIdleEnabled]

theorem run_succ_of_step {s t : State} (h : step s = .next t) (k : Nat) : core.run (k + 1) s = core.run k t := by
  have hcore : core.step s = .next t := h
  simp only [Host.Core.run, hcore]

/-- A step of EV_RX while EV_IDLE is enabled has no next state. -/
theorem step_evRx_of_idlePend {s : State} {rest : List Opw} (hs : s.sched = 0x1000 :: rest) (hg : s.evRxEnabled = true)
    (hp : s.idlePend = true) : step s = .fault .priorityViolated := by
  have hprio : violatesPriority .evRx { s with sched := rest } = true := violatesPriority_evRx_iff.2 ⟨hg, hp⟩
  rw [step_of_decode hs (i := .evRx) rfl, perform, if_neg (by decide), if_pos hprio]

theorem step_evIdle {s : State} {rest : List Opw} (hs : s.sched = 0x1200 :: rest) (hp : s.idlePend = true) :
    step s = .next { s with
      sched := rest, idlePend := false, idlf := true, idleArmed := false, result := .none } :=
  (stepPerformsTheNextOperation s _ rest .evIdle hs rfl rfl rfl).trans
    (execEvIdle_of_idlePend (s := { s with sched := rest }) hp)

/-- A step of EV_RX where EV_IDLE is not enabled and the receive ring has room: the byte is stored and a full window starts. -/
theorem step_evRx_of_room {s : State} {b : Byte} {rest : List Opw} (hs : s.sched = 0x1000 :: rest)
    (hg : s.evRxEnabled = true) (hd : s.rxData = some b) (hc : s.idleCfg = true) (hp : s.idlePend = false)
    (hroom : (s.rx.head + 1) % s.cfg.c ≠ s.rx.viewTail s.cfg.sync) :
    ∃ t, step s = .next t ∧ t.idlf = s.idlf ∧ t.idleArmed = true ∧ t.idleCnt = s.cfg.idleWindowTicks ∧
      t.idlePend = false ∧ t.rxPend = false ∧ t.rx = s.rx.pushed s.cfg b ∧ t.sched = rest := by
  have hprio : violatesPriority .evRx s = false := by
    simp [Bool.eq_false_iff, violatesPriority_evRx_iff, hp]
  obtain ⟨hl, hi, hpend⟩ := State.evRxEnabled_iff.1 hg
  obtain ⟨-, hrx⟩ := evRxStoresEchoesAndRearms { s with sched := rest }
  have hstep := (stepPerformsTheNextOperation s _ rest .evRx hs rfl rfl hprio).trans (hrx b hl hi hpend hd hc)
  exact ⟨_, hstep, rfl, rfl, rfl, rfl, rfl, if_neg hroom, rfl⟩

/-- Settles O8: EV_IDLE leaves EV_RX enabled and alone, and EV_RX then keeps the flag. -/
theorem idleTimeoutIsTakenBeforeReceive : Obligations.IdleTimeoutIsTakenBeforeReceive := by
  unfold Obligations.IdleTimeoutIsTakenBeforeReceive
  intro s b rest hl hi hpend hd hc hidle hroom
  have hg : s.evRxEnabled = true := State.evRxEnabled_iff.2 ⟨hl, hi, hpend⟩
  refine ⟨fun hs => step_evRx_of_idlePend hs hg hidle, fun hs => ?_⟩
  obtain ⟨t, ht, hidlf, harmed, hcnt, hip, hrp, hrx, hsched⟩ := step_evRx_of_room (b := b) (s := { s with
    sched := 0x1000 :: rest, idlePend := false, idlf := true, idleArmed := false, result := .none }) rfl hg hd hc rfl hroom
  have hrun : core.run 2 s = .next t := by
    rw [run_succ_of_step (step_evIdle hs hidle), run_succ_of_step ht]
    rfl
  refine ⟨t, hrun, hidlf, harmed, hcnt, hip, hrp, ?_, ?_, hsched⟩ <;> rw [hrx]
  · exact Mem.read_write_same s.rx.buf s.rx.head b
  · rfl

/-! ### Ticks of a counting timer (R152, R223) -/

theorem performAll_append (is js : List Instr) (s : State) :
    performAll (is ++ js) s = andThen (performAll is s) (performAll js) := by
  induction is generalizing s with
  | nil => rfl
  | cons i is ih =>
    rw [List.cons_append, performAll, performAll]
    cases perform i s with
    | next u => exact ih u
    | fault f => rfl
    | refused r => rfl

theorem tickIdle_of_counting {s : State} (ha : s.idleArmed = true) (hc : 1 ≤ s.idleCnt) (hp : s.idlePend = false) :
    tickIdle s = { s with idleCnt := s.idleCnt - 1, idlePend := decide (s.idleCnt - 1 = 0) } := by
  have hpos : 0 < s.idleCnt := hc
  simp [tickIdle, ha, hpos, hp]

/-- A heartbeat timer that is not at its last tick counts down, if it runs. -/
theorem tickHeartbeat_of_counting {s : State} (h : s.hbRun = true → 1 < s.hbCnt) :
    tickHeartbeat s = .next { s with hbCnt := if s.hbRun = true then s.hbCnt - 1 else s.hbCnt } := by
  by_cases hr : s.hbRun = true
  · have hcnt := h hr
    have hz : s.hbCnt ≠ 0 := by omega
    have hlast : s.hbCnt - 1 ≠ 0 := by omega
    simp only [tickHeartbeat, if_pos hr, if_neg hz, if_neg hlast]
  · simp only [tickHeartbeat, if_neg hr]

/-- A tick on which the idle timer counts and no heartbeat period ends. -/
theorem execTick_of_counting {s : State} (hh : s.handlerEnabled = false) (ha : s.idleArmed = true) (hc : 1 ≤ s.idleCnt)
    (hp : s.idlePend = false) (hhb : s.hbRun = true → 1 < s.hbCnt) :
    exec .tick s = .next { s with
      idleCnt := s.idleCnt - 1
      idlePend := decide (s.idleCnt - 1 = 0)
      hbCnt := if s.hbRun = true then s.hbCnt - 1 else s.hbCnt
      result := .none } := by
  simp only [exec, execTick, hh, Bool.not_false, guarded_true, tickIdle_of_counting ha hc hp]
  rw [tickHeartbeat_of_counting]
  · rfl
  · exact hhb

/-- The state after `n` ticks, none of them beyond the idle timer's expiry or the end of the heartbeat period (R152, R166). -/
def State.afterTicks (s : State) (n : Nat) : State := { s with
  idleCnt := s.idleCnt - n
  idlePend := decide (n = s.idleCnt)
  hbCnt := if s.hbRun = true then s.hbCnt - n else s.hbCnt
  result := if n = 0 then s.result else .none }

theorem State.handlerEnabled_eq_false_iff {s : State} : s.handlerEnabled = false ↔
    s.evRxEnabled = false ∧ s.evTxRdyEnabled = false ∧ s.idlePend = false ∧ s.hbPend = false := by
  simp [State.handlerEnabled, State.evIdleEnabled, State.evHbEnabled, and_assoc]

/-- The ticks enable no handler but EV_IDLE, and that one at the expiry. -/
theorem State.afterTicks_handlerEnabled {s : State} (h : s.handlerEnabled = false) (n : Nat) :
    (s.afterTicks n).handlerEnabled = decide (n = s.idleCnt) := by
  obtain ⟨hrx, htx, -, hhb⟩ := State.handlerEnabled_eq_false_iff.1 h
  have hrx' : (s.afterTicks n).evRxEnabled = false := hrx
  have htx' : (s.afterTicks n).evTxRdyEnabled = false := htx
  have hhb' : (s.afterTicks n).hbPend = false := hhb
  simp only [State.handlerEnabled, State.evHbEnabled, hrx', htx', hhb', Bool.false_or, Bool.or_false]
  rfl

theorem State.afterTicks_zero {s : State} (h : s.idlePend = false) (hc : 1 ≤ s.idleCnt) : s.afterTicks 0 = s := by
  have hpend : decide (0 = s.idleCnt) = s.idlePend := by
    rw [h, decide_eq_false_iff_not]
    omega
  simp only [State.afterTicks, Nat.sub_zero, ite_self, hpend, if_true]

/-- One more tick before the expiry. -/
theorem perform_tick_afterTicks {s : State} {n : Nat} (hh : s.handlerEnabled = false) (ha : s.idleArmed = true)
    (hhb : s.hbRun = true → s.idleCnt < s.hbCnt) (hn : n < s.idleCnt) :
    perform .tick (s.afterTicks n) = .next (s.afterTicks (n + 1)) := by
  have hne : decide (n = s.idleCnt) = false := decide_eq_false (Nat.ne_of_lt hn)
  have hhb' : (s.afterTicks n).hbRun = true → 1 < (s.afterTicks n).hbCnt := by
    intro hr
    have hlt := hhb hr
    have hcnt : (s.afterTicks n).hbCnt = s.hbCnt - n := if_pos hr
    omega
  have htick := execTick_of_counting (s := s.afterTicks n) ((State.afterTicks_handlerEnabled hh n).trans hne) ha
    (Nat.sub_pos_of_lt hn) hne hhb'
  have hexp : s.idleCnt - (n + 1) = 0 ↔ n + 1 = s.idleCnt := by omega
  refine htick.trans ?_
  cases hr : s.hbRun <;> simp [State.afterTicks, hr, hexp, Nat.sub_sub]

theorem performAll_ticks_until_expiry {s : State} {n : Nat} (hh : s.handlerEnabled = false) (ha : s.idleArmed = true)
    (hc : 1 ≤ s.idleCnt) (hhb : s.hbRun = true → s.idleCnt < s.hbCnt) (hn : n ≤ s.idleCnt) :
    performAll (List.replicate n .tick) s = .next (s.afterTicks n) := by
  induction n with
  | zero =>
    obtain ⟨-, -, hpend, -⟩ := State.handlerEnabled_eq_false_iff.1 hh
    rw [State.afterTicks_zero hpend hc]
    rfl
  | succ n ih =>
    rw [List.replicate_succ', performAll_append, ih (by omega), andThen_next, performAll,
      perform_tick_afterTicks hh ha hhb hn]
    rfl

/-- At the expiry EV_IDLE is enabled, so time stands (R223, R248). -/
theorem performAll_ticks_beyond_expiry {s : State} {n : Nat} (hh : s.handlerEnabled = false) (ha : s.idleArmed = true)
    (hc : 1 ≤ s.idleCnt) (hhb : s.hbRun = true → s.idleCnt < s.hbCnt) (hn : s.idleCnt < n) :
    performAll (List.replicate n .tick) s = .fault .notEnabled := by
  obtain ⟨k, rfl⟩ : ∃ k, n = s.idleCnt + (k + 1) := ⟨n - s.idleCnt - 1, by omega⟩
  have hen : (s.afterTicks s.idleCnt).handlerEnabled = true :=
    (State.afterTicks_handlerEnabled hh s.idleCnt).trans (decide_eq_true rfl)
  have hstop : perform .tick (s.afterTicks s.idleCnt) = .fault .notEnabled :=
    exec_of_not_enabled (i := .tick) (congrArg not hen)
  rw [List.replicate_add, performAll_append, performAll_ticks_until_expiry hh ha hc hhb le_rfl, andThen_next,
    List.replicate_succ, performAll, hstop, andThen_fault]

/-- Settles O48. -/
theorem idleWindowElapsesInTicks : Obligations.IdleWindowElapsesInTicks := by
  unfold Obligations.IdleWindowElapsesInTicks
  intro s n hh ha hc hhb
  obtain ⟨-, -, -, hpend⟩ := State.handlerEnabled_eq_false_iff.1 hh
  exact ⟨fun hn => ⟨s.afterTicks n, performAll_ticks_until_expiry hh ha hc hhb hn, rfl, rfl, ha, hpend, rfl⟩,
    performAll_ticks_beyond_expiry hh ha hc hhb⟩

end Sys2Proof.Machine

/-! O39 and O40: the texts the dispatch loop builds (R179, R180). DEC writes the library's decimal digits of the count. -/

namespace Sys2Proof.Machine

/-! ### Digits and digit bytes (R180) -/

theorem digitsRev_eq_digits {fuel n : Nat} (h : n ≤ fuel) : digitsRev fuel n = Nat.digits 10 n := by
  induction fuel generalizing n with
  | zero =>
    obtain rfl := Nat.le_zero.1 h
    simp [digitsRev]
  | succ fuel ih =>
    unfold digitsRev
    split
    · next h0 => simp [h0]
    · next h0 => rw [ih (by omega), Nat.digits_eq_cons_digits_div (by decide) h0]

theorem dec_eq_digits {n : Nat} (h : n ≠ 0) : dec n = ((Nat.digits 10 n).reverse).map digitByte := by
  rw [dec, if_neg h, digitsRev_eq_digits le_rfl]

theorem digitByte_toNat {d : Nat} (h : d < 10) : (digitByte d).toNat = 0x30 + d := by
  simp only [digitByte, BitVec.toNat_ofNat]
  omega

theorem decimalOf_append_digitByte (bs : List Byte) {d : Nat} (h : d < 10) :
    decimalOf (bs ++ [digitByte d]) = 10 * decimalOf bs + d := by
  simp [decimalOf, digitByte_toNat h]

theorem decimalOf_digits {ds : List Nat} (h : ∀ d ∈ ds, d < 10) :
    decimalOf (ds.reverse.map digitByte) = Nat.ofDigits 10 ds := by
  induction ds with
  | nil => rfl
  | cons d ds ih =>
    rw [List.forall_mem_cons] at h
    obtain ⟨hd, hds⟩ := h
    rw [List.reverse_cons, List.map_append, List.map_singleton, decimalOf_append_digitByte _ hd, ih hds, Nat.ofDigits_cons]
    exact Nat.add_comm ..

/-! ### The decimal text of a count -/

theorem decimalOf_dec (n : Nat) : decimalOf (dec n) = n := by
  by_cases h : n = 0
  · subst h
    rfl
  · rw [dec_eq_digits h, decimalOf_digits fun d hd => Nat.digits_lt_base (by decide) hd, Nat.ofDigits_digits]

theorem dec_digits_only {n : Nat} {b : Byte} (hb : b ∈ dec n) : 0x30 ≤ b.toNat ∧ b.toNat ≤ 0x39 := by
  by_cases h : n = 0
  · subst h
    obtain rfl := List.mem_singleton.1 hb
    decide
  · rw [dec_eq_digits h] at hb
    obtain ⟨d, hd, rfl⟩ := List.mem_map.1 hb
    have hlt : d < 10 := Nat.digits_lt_base (by decide) (List.mem_reverse.1 hd)
    rw [digitByte_toNat hlt]
    omega

/-- The first byte written is that of the most significant digit, which is not 0. -/
theorem dec_no_leading_zero {n : Nat} (h : n ≠ 0) : ∃ d ds, dec n = d :: ds ∧ d ≠ 0x30 := by
  obtain ⟨low, top, e⟩ := List.eq_nil_or_concat (Nat.digits 10 n) |>.resolve_left (Nat.digits_ne_nil_iff_ne_zero.2 h)
  rw [List.concat_eq_append] at e
  have hlt : top < 10 := Nat.digits_lt_base (b := 10) (m := n) (by decide) (by simp [e])
  have hne : top ≠ 0 := by simpa [e] using Nat.getLast_digit_ne_zero 10 h
  refine ⟨digitByte top, low.reverse.map digitByte, by simp [dec_eq_digits h, e], fun h30 => hne ?_⟩
  have hval : 0x30 + top = 0x30 := (digitByte_toNat hlt).symm.trans (congrArg BitVec.toNat h30)
  omega

/-- Settles O39. -/
theorem decimalTextIsTheCount : Obligations.DecimalTextIsTheCount := by
  unfold Obligations.DecimalTextIsTheCount
  exact ⟨decimalOf_dec, fun n b => dec_digits_only, fun n => dec_no_leading_zero, rfl, rfl, rfl, rfl⟩

/-! ### The report (R179) -/

theorem report_length (n : Nat) : (report n).length = 11 + (dec n).length + 8 := by
  simp only [report, List.length_append]
  rfl

theorem dec_length_pos (n : Nat) : 1 ≤ (dec n).length := by
  by_cases h : n = 0
  · subst h
    decide
  · obtain ⟨d, ds, e, -⟩ := dec_no_leading_zero h
    simp [e]

/-- Settles O40: a count below 256 has one to three digits. -/
theorem reportHasItsForm : Obligations.ReportHasItsForm := by
  unfold Obligations.ReportHasItsForm
  refine ⟨fun n => rfl, fun n hn => ?_, fun n => report_fits⟩
  have hpos := dec_length_pos n
  have hle : (dec n).length ≤ 3 := dec_length (by decide) (by omega)
  rw [report_length]
  omega

end Sys2Proof.Machine

/-! O26, O32 to O37, O41 and O42: the dispatch operations (R175 to R192), each as its guard and its whole next state. -/

namespace Sys2Proof.Machine

open Sys2Proof.Config

/-! ### The guard (R177) -/

theorem dispatchGuard_iff {here : Prop} [Decidable here] {s : State} :
    dispatchGuard (decide here) s = true ↔ s.bootComplete = true ∧ here := by
  simp [dispatchGuard]

theorem dispatchGuard_eq_false {here : Prop} [Decidable here] {s : State} (h : ¬ (s.bootComplete = true ∧ here)) :
    dispatchGuard (decide here) s = false :=
  Bool.eq_false_iff.2 (mt dispatchGuard_iff.1 h)

theorem guarded_dispatch {here : Prop} [Decidable here] {s : State} (hboot : s.bootComplete = true) (hhere : here) (o : Out) :
    guarded (dispatchGuard (decide here) s) o = o := by
  rw [dispatchGuard_iff.2 ⟨hboot, hhere⟩, guarded_true]

/-! ### What a dispatch operation may write (R192) -/

/-- `s` with the fields of R192's list taken from `t`: the producer side of TX, `RX.tail`, `TXIE`, the flags, the sequencer, and
the result (R14). -/
def State.withDispatchWrites (s t : State) : State := { s with
  tx := { s.tx with buf := t.tx.buf, head := t.tx.head }
  rx := { s.rx with tail := t.rx.tail }
  txie := t.txie
  hbf := t.hbf
  idlf := t.idlf
  mpc := t.mpc
  mi := t.mi
  mlen := t.mlen
  att := t.att
  nlatch := t.nlatch
  msg := t.msg
  result := t.result }

/-- An attempt's counting writes `MI` and `ATT` alone (R181). -/
theorem countAttempt_writes (ok : Bool) (s : State) : ∃ mi att, countAttempt ok s = { s with mi := mi, att := att } := by
  unfold countAttempt
  split
  · exact ⟨_, _, rfl⟩
  · split <;> exact ⟨_, _, rfl⟩

theorem exec_dispatch_writes {i : Instr} {s t : State} (hi : isDispatch i = true) (h : exec i s = .next t) :
    t = s.withDispatchWrites t := by
  cases i with
  | dspPollIdle => obtain ⟨-, -, ⟨-, -, -, rfl⟩ | ⟨-, rfl⟩⟩ := execDspPollIdle_next h <;> rfl
  | dspEnq =>
    obtain ⟨-, -, b, -, rfl⟩ := execDspEnq_next h
    obtain ⟨mi, att, e⟩ := countAttempt_writes (pushOp .tx b s).1 (pushOp .tx b s).2
    rw [e, leaveMessage_eq]
    obtain ⟨-, e⟩ | ⟨-, e⟩ := pushOp_cases .tx b s <;> rw [e] <;> rfl
  | dspRxClr => obtain ⟨-, -, rfl⟩ := execDspRxClr_next h; rfl
  | dspIdlfClr => obtain ⟨-, -, rfl⟩ := execDspIdlfClr_next h; rfl
  | dspTxEn => obtain ⟨-, -, rfl⟩ := execDspTxEn_next h; rfl
  | dspPollHb =>
    obtain ⟨-, -, ⟨-, rfl⟩ | ⟨-, rfl⟩⟩ := execDspPollHb_next h
    · generalize hbText = text
      rfl
    · rfl
  | _ => cases hi

/-- The pump is armed by a push or by DSP_TXEN and left alone otherwise (R185, R192). -/
theorem exec_dispatch_txie {i : Instr} {s t : State} (hi : isDispatch i = true) (h : exec i s = .next t)
    (hx : s.txie = true) : t.txie = true := by
  cases i with
  | dspPollIdle => obtain ⟨-, -, ⟨-, -, -, rfl⟩ | ⟨-, rfl⟩⟩ := execDspPollIdle_next h <;> exact hx
  | dspEnq =>
    obtain ⟨-, -, b, -, rfl⟩ := execDspEnq_next h
    simp [pushOp_tx_snd, hx]
  | dspRxClr => obtain ⟨-, -, rfl⟩ := execDspRxClr_next h; exact hx
  | dspIdlfClr => obtain ⟨-, -, rfl⟩ := execDspIdlfClr_next h; exact hx
  | dspTxEn => obtain ⟨-, -, rfl⟩ := execDspTxEn_next h; rfl
  | dspPollHb => obtain ⟨-, -, ⟨-, rfl⟩ | ⟨-, rfl⟩⟩ := execDspPollHb_next h <;> exact hx
  | _ => cases hi

/-- Only the two timer handlers set a flag (R28, R29), and they are no dispatch operations. -/
theorem exec_dispatch_sets_no_flag {i : Instr} {s t : State} (hi : isDispatch i = true) (h : exec i s = .next t) :
    (s.idlf = false → t.idlf = false) ∧ (s.hbf = false → t.hbf = false) := by
  obtain ⟨hbfSet, -, idlfSet, -⟩ := onlyNamedOperationsChangeAFlag i s t h
  refine ⟨fun hf => Bool.eq_false_iff.2 fun ht => ?_, fun hf => Bool.eq_false_iff.2 fun ht => ?_⟩
  · obtain rfl := idlfSet hf ht
    cases hi
  · obtain rfl := hbfSet hf ht
    cases hi

/-- Settles O26. -/
theorem dispatchOperationsFrame : Obligations.DispatchOperationsFrame := by
  unfold Obligations.DispatchOperationsFrame
  intro i s t hi h
  obtain ⟨hidlf, hhbf⟩ := exec_dispatch_sets_no_flag hi h
  have htxie := exec_dispatch_txie hi h
  rw [exec_dispatch_writes hi h] at htxie hidlf hhbf ⊢
  exact ⟨rfl, rfl, rfl, rfl, rfl, rfl, rfl, rfl, rfl, rfl, rfl, rfl, rfl, rfl, rfl, rfl, rfl, rfl, rfl, rfl, rfl, htxie,
    hidlf, hhbf⟩

/-! ### The polls load a message (R178, R186) -/

theorem loadMessage_eq_of_fits {bs : List Byte} (hlen : bs.length ≤ msgSlots) (pos : Mpc) (s : State) :
    loadMessage bs pos s = .next { s with
      msg := s.msg.writeFrom 0 bs, mlen := bs.length, mi := 0, att := 0, mpc := pos } := if_pos hlen

theorem Mem.read_writeFrom_zero_inside (m : Mem) {bs : List Byte} {k : Nat} (hk : k < bs.length) :
    (m.writeFrom 0 bs).read k = bs[k]? := by
  simpa using Mem.read_writeFrom_inside m 0 k bs hk

theorem Mem.read_writeFrom_zero_behind (m : Mem) {bs : List Byte} {k : Nat} (hk : bs.length ≤ k) :
    (m.writeFrom 0 bs).read k = m.read k :=
  Mem.read_writeFrom_outside m 0 k bs (.inr (by omega))

theorem execDspPollIdle_of_frame {s : State} (hboot : s.bootComplete = true) (hpos : s.mpc = .pollIdle)
    (hf : s.idlf = true) (hne : s.rx.viewHead s.cfg.sync ≠ s.rx.tail)
    (hlen : (report (s.rx.countFor s.cfg .consumer)).length ≤ msgSlots) :
    exec .dspPollIdle s = .next { s with
      nlatch := s.rx.countFor s.cfg .consumer
      msg := s.msg.writeFrom 0 (report (s.rx.countFor s.cfg .consumer))
      mlen := (report (s.rx.countFor s.cfg .consumer)).length
      mi := 0
      att := 0
      mpc := .repEnq
      result := .none } := by
  have hc : (s.idlf && !(s.rx.emptyC s.cfg)) = true := by rw [hf, Ring.emptyC_eq_false_iff.2 hne]; rfl
  simp only [exec, execDspPollIdle, guarded_dispatch hboot hpos, if_pos hc, loadMessage_eq_of_fits hlen, andThen_next, finish]

theorem execDspPollIdle_of_no_frame {s : State} (hboot : s.bootComplete = true) (hpos : s.mpc = .pollIdle)
    (hn : ¬ (s.idlf = true ∧ s.rx.viewHead s.cfg.sync ≠ s.rx.tail)) :
    exec .dspPollIdle s = .next { s with mpc := .pollHb, result := .none } := by
  have hc : ¬ (s.idlf && !(s.rx.emptyC s.cfg)) = true := by
    simpa only [Bool.and_eq_true, Bool.not_eq_true', Ring.emptyC_eq_false_iff] using hn
  simp only [exec, execDspPollIdle, guarded_dispatch hboot hpos, if_neg hc, finish]

/-- Settles O32. -/
theorem dspPollIdleBuildsTheReport : Obligations.DspPollIdleBuildsTheReport := by
  unfold Obligations.DspPollIdleBuildsTheReport
  refine fun s => ⟨fun hn => exec_of_not_enabled (dispatchGuard_eq_false hn), fun hboot hpos =>
    ⟨?_, execDspPollIdle_of_no_frame hboot hpos⟩⟩
  rintro n rfl hf hne hlen
  exact ⟨_, execDspPollIdle_of_frame hboot hpos hf hne hlen, fun k => Mem.read_writeFrom_zero_inside s.msg,
    fun k => Mem.read_writeFrom_zero_behind s.msg⟩

theorem execDspPollHb_of_hbf {s : State} (hboot : s.bootComplete = true) (hpos : s.mpc = .pollHb) (hf : s.hbf = true) :
    exec .dspPollHb s = .next { s with
      hbf := false
      msg := s.msg.writeFrom 0 hbText
      mlen := hbText.length
      mi := 0
      att := 0
      mpc := .hbEnq
      result := .none } := by
  simp only [exec, execDspPollHb, guarded_dispatch hboot hpos, if_pos hf, loadMessage_eq_of_fits (bs := hbText) (by decide),
    andThen_next, finish]

theorem execDspPollHb_of_no_hbf {s : State} (hboot : s.bootComplete = true) (hpos : s.mpc = .pollHb) (hf : s.hbf = false) :
    exec .dspPollHb s = .next { s with mpc := .pollIdle, result := .none } := by
  simp only [exec, execDspPollHb, guarded_dispatch hboot hpos, hf, Bool.false_eq_true, if_false, finish]

/-- Settles O37. -/
theorem dspPollHbLoadsTheText : Obligations.DspPollHbLoadsTheText := by
  unfold Obligations.DspPollHbLoadsTheText
  exact fun s => ⟨fun hn => exec_of_not_enabled (dispatchGuard_eq_false hn), fun hboot hpos =>
    ⟨fun hf => ⟨_, execDspPollHb_of_hbf hboot hpos hf, fun k => Mem.read_writeFrom_zero_inside s.msg (bs := hbText),
      fun k => Mem.read_writeFrom_zero_behind s.msg (bs := hbText)⟩, execDspPollHb_of_no_hbf hboot hpos⟩⟩

/-! ### The end of a report, and arming the pump (R183 to R185) -/

/-- Settles O34. -/
theorem dspRxClrConsumesTheFrame : Obligations.DspRxClrConsumesTheFrame := by
  unfold Obligations.DspRxClrConsumesTheFrame
  exact fun s => ⟨fun hn => exec_of_not_enabled (dispatchGuard_eq_false hn), fun hboot hpos => guarded_dispatch hboot hpos _⟩

/-- Settles O35. -/
theorem dspIdlfClrClearsTheFlag : Obligations.DspIdlfClrClearsTheFlag := by
  unfold Obligations.DspIdlfClrClearsTheFlag
  exact fun s => ⟨fun hn => exec_of_not_enabled (dispatchGuard_eq_false hn), fun hboot hpos => guarded_dispatch hboot hpos _⟩

theorem execDspTxEn_eq {s : State} (hboot : s.bootComplete = true) (hpos : s.mpc = .repTxEn ∨ s.mpc = .hbTxEn) :
    exec .dspTxEn s = .next { s with
      txie := true, mpc := if s.mpc = .repTxEn then .pollHb else .pollIdle, result := .none } :=
  guarded_dispatch hboot hpos _

/-- Settles O36. -/
theorem dspTxEnArmsThePump : Obligations.DspTxEnArmsThePump := by
  unfold Obligations.DspTxEnArmsThePump
  refine fun s => ⟨fun hn => exec_of_not_enabled (dispatchGuard_eq_false hn), fun hboot hpos => ?_, fun hboot hpos => ?_⟩
  · rw [execDspTxEn_eq hboot (.inl hpos), if_pos hpos]
  · rw [execDspTxEn_eq hboot (.inr hpos), if_neg (by simp [hpos])]

/-! ### One attempt (R181) -/

theorem pushOp_of_full {x : RingSel} {s : State} (hf : (s.ring x).fullP s.cfg = true) (b : Byte) :
    pushOp x b s = (false, s) := if_pos hf

theorem pushOp_of_not_full {x : RingSel} {s : State} (hf : (s.ring x).fullP s.cfg = false) (b : Byte) :
    pushOp x b s = (true, (s.setRing x ((s.ring x).pushed s.cfg b)).arm x) := if_neg (by simp [hf])

theorem countAttempt_of_ok (s : State) : countAttempt true s = { s with mi := s.mi + 1, att := 0 } := rfl

theorem countAttempt_of_ceiling {s : State} (h : s.att + 1 = s.cfg.retryCeiling) :
    countAttempt false s = { s with mi := s.mi + 1, att := 0 } := if_pos h

theorem countAttempt_of_below {s : State} (h : s.att + 1 ≠ s.cfg.retryCeiling) :
    countAttempt false s = { s with att := s.att + 1 } := if_neg h

theorem Mpc.afterMessage_eq {pos : Mpc} (h : pos = .repEnq ∨ pos = .hbEnq) :
    pos.afterMessage = if pos = .repEnq then .repRxClr else .hbTxEn := by
  rcases h with rfl | rfl <;> rfl

/-- DSP_ENQ where the message has its byte, by what the push answers. -/
theorem execDspEnq_of_read {s u : State} {b : Byte} {ok : Bool} (hboot : s.bootComplete = true)
    (hpos : s.mpc = .repEnq ∨ s.mpc = .hbEnq) (hb : s.msg.read s.mi = some b) (hpush : pushOp .tx b s = (ok, u)) :
    exec .dspEnq s = .next { countAttempt ok u with
      mpc := if (countAttempt ok u).mi = u.mlen then (if s.mpc = .repEnq then .repRxClr else .hbTxEn) else s.mpc
      result := .none } := by
  have hmpc : u.mpc = s.mpc := by simpa [hpush] using pushOp_mpc .tx b s
  simp only [exec, execDspEnq, guarded_dispatch hboot hpos, hb, hpush, leaveMessage_eq, countAttempt_mpc, countAttempt_mlen, hmpc,
    Mpc.afterMessage_eq hpos, finish]

/-- Settles O33: the push stores the byte or leaves the state, and a failed attempt is the last one or not. -/
theorem dspEnqTriesOnce : Obligations.DspEnqTriesOnce := by
  unfold Obligations.DspEnqTriesOnce
  refine fun s => ⟨fun hn => exec_of_not_enabled (dispatchGuard_eq_false hn), fun b hboot hpos hb =>
    ⟨fun hroom => ?_, fun hfull hatt => ?_, fun hfull hatt => ?_⟩⟩
  · exact execDspEnq_of_read hboot hpos hb (pushOp_of_not_full (x := .tx) (Ring.fullP_eq_false_iff.2 hroom) b)
  · rw [execDspEnq_of_read hboot hpos hb (pushOp_of_full (x := .tx) (Ring.fullP_iff.2 hfull) b), countAttempt_of_ceiling hatt]
  · rw [execDspEnq_of_read hboot hpos hb (pushOp_of_full (x := .tx) (Ring.fullP_iff.2 hfull) b), countAttempt_of_below hatt]

/-! ### The attempts of a message (R182) -/

/-- The attempts left to a message (R182). -/
def State.attemptsLeft (s : State) : Nat := (s.mlen - s.mi) * s.cfg.retryCeiling - s.att

/-- A byte disposed of uses up all attempts left to it, a failed attempt below the ceiling uses up one. -/
theorem countAttempt_progress (ok : Bool) {s : State} (hmi : s.mi < s.mlen) (hatt : s.att < s.cfg.retryCeiling) :
    (countAttempt ok s).mi ≤ s.mlen ∧ (countAttempt ok s).att < s.cfg.retryCeiling ∧
      (countAttempt ok s).attemptsLeft < s.attemptsLeft := by
  have hbytes : (s.mlen - s.mi) * s.cfg.retryCeiling = (s.mlen - (s.mi + 1)) * s.cfg.retryCeiling + s.cfg.retryCeiling := by
    rw [← Nat.succ_mul]
    congr 1
    omega
  have disposed : s.mi + 1 ≤ s.mlen ∧ 0 < s.cfg.retryCeiling ∧
      State.attemptsLeft { s with mi := s.mi + 1, att := 0 } < s.attemptsLeft := by
    simp only [State.attemptsLeft]
    omega
  cases ok with
  | true => exact disposed
  | false =>
    by_cases hlast : s.att + 1 = s.cfg.retryCeiling
    · rw [countAttempt_of_ceiling hlast]
      exact disposed
    · rw [countAttempt_of_below hlast]
      simp only [State.attemptsLeft]
      omega

@[simp] theorem pushOp_mi (x : RingSel) (b : Byte) (s : State) : (pushOp x b s).2.mi = s.mi := by
  obtain ⟨r, e, h, -⟩ := pushOp_frame x b s
  simp [h]

@[simp] theorem pushOp_mlen (x : RingSel) (b : Byte) (s : State) : (pushOp x b s).2.mlen = s.mlen := by
  obtain ⟨r, e, h, -⟩ := pushOp_frame x b s
  simp [h]

@[simp] theorem pushOp_att (x : RingSel) (b : Byte) (s : State) : (pushOp x b s).2.att = s.att := by
  obtain ⟨r, e, h, -⟩ := pushOp_frame x b s
  simp [h]

/-- The loop moves on exactly behind the message's last byte. -/
theorem leaveMessage_mpc_ne_iff {s : State} (hpos : s.mpc = .repEnq ∨ s.mpc = .hbEnq) :
    (leaveMessage s).mpc ≠ s.mpc ↔ s.mi = s.mlen := by
  have hne : s.mpc.afterMessage ≠ s.mpc := fun e => Mpc.afterMessage_of_enq hpos (e.symm ▸ hpos)
  rw [leaveMessage_eq]
  split
  · next h => simp [h, hne]
  · next h => simp [h]

/-- Settles O41. -/
theorem eachAttemptUsesUpTheBound : Obligations.EachAttemptUsesUpTheBound := by
  unfold Obligations.EachAttemptUsesUpTheBound
  intro s t hmi hatt h
  obtain ⟨-, hpos, b, -, rfl⟩ := execDspEnq_next h
  obtain ⟨hle, hlt, hless⟩ :=
    countAttempt_progress (s := (pushOp .tx b s).2) (pushOp .tx b s).1 (by simpa using hmi) (by simpa using hatt)
  have hmoved := leaveMessage_mpc_ne_iff (s := countAttempt (pushOp .tx b s).1 (pushOp .tx b s).2) (by simpa using hpos)
  simp only [State.attemptsLeft, countAttempt_mlen, countAttempt_cfg, pushOp_mi, pushOp_mlen, pushOp_att,
    pushOp_cfg] at hle hlt hless
  simp only [countAttempt_mpc, countAttempt_mlen, pushOp_mpc, pushOp_mlen] at hmoved
  simpa [hle, hlt, hless] using hmoved.symm

/-! ### Attempts on a full ring (R189) -/

/-- The state after `k` failed attempts below the ceiling, from one whose byte is new. -/
def State.afterFailedAttempts (s : State) (k : Nat) : State := { s with
  att := k
  result := if k = 0 then s.result else .none }

theorem State.afterFailedAttempts_zero {s : State} (h : s.att = 0) : s.afterFailedAttempts 0 = s := by
  simp only [State.afterFailedAttempts, if_true, ← h]

theorem State.afterFailedAttempts_of_pos {s : State} {k : Nat} (h : 1 ≤ k) :
    s.afterFailedAttempts k = { s with att := k, result := .none } := by
  simp only [State.afterFailedAttempts, if_neg (Nat.ne_of_gt h)]

section
variable {s : State} {b : Byte} (hboot : s.bootComplete = true) (hpos : s.mpc = .repEnq ∨ s.mpc = .hbEnq)
  (hmi : s.mi < s.mlen) (hb : s.msg.read s.mi = some b) (hfull : (s.tx.head + 1) % s.cfg.c = s.tx.viewTail s.cfg.sync)
include hboot hpos hb hfull

/-- The attempt that reaches the ceiling skips the byte. -/
theorem perform_dspEnq_at_ceiling {k : Nat} (hk : k + 1 = s.cfg.retryCeiling) :
    perform .dspEnq (s.afterFailedAttempts k) = .next { s with
      mi := s.mi + 1
      att := 0
      mpc := if s.mi + 1 = s.mlen then (if s.mpc = .repEnq then .repRxClr else .hbTxEn) else s.mpc
      result := .none } := by
  obtain ⟨-, hattempt⟩ := dspEnqTriesOnce (s.afterFailedAttempts k)
  obtain ⟨-, hceil, -⟩ := hattempt b hboot hpos hb
  exact hceil hfull hk

include hmi

/-- One more attempt below the ceiling. -/
theorem perform_dspEnq_below_ceiling {k : Nat} (hk : k + 1 ≠ s.cfg.retryCeiling) :
    perform .dspEnq (s.afterFailedAttempts k) = .next (s.afterFailedAttempts (k + 1)) := by
  obtain ⟨-, hattempt⟩ := dspEnqTriesOnce (s.afterFailedAttempts k)
  obtain ⟨-, -, hbelow⟩ := hattempt b hboot hpos hb
  have hmore : (s.afterFailedAttempts k).mi ≠ (s.afterFailedAttempts k).mlen := Nat.ne_of_lt hmi
  refine (hbelow hfull hk).trans ?_
  rw [if_neg hmore]
  rfl

theorem performAll_dspEnq_below_ceiling {k : Nat} (hatt : s.att = 0) (hk : k < s.cfg.retryCeiling) :
    performAll (List.replicate k .dspEnq) s = .next (s.afterFailedAttempts k) := by
  induction k with
  | zero =>
    rw [State.afterFailedAttempts_zero hatt]
    rfl
  | succ k ih =>
    rw [List.replicate_succ', performAll_append, ih (by omega), andThen_next, performAll,
      perform_dspEnq_below_ceiling hboot hpos hmi hb hfull (by omega)]
    rfl
end

/-- Settles O42: all attempts but the last count up, and the last skips the byte. -/
theorem fullRingSkipsAByteAtTheCeiling : Obligations.FullRingSkipsAByteAtTheCeiling := by
  unfold Obligations.FullRingSkipsAByteAtTheCeiling
  intro s b hboot hpos hmi hatt hceil hb hfull
  refine ⟨fun k hk hlt => ?_, ?_⟩
  · rw [performAll_dspEnq_below_ceiling hboot hpos hmi hb hfull hatt hlt, State.afterFailedAttempts_of_pos hk]
  · obtain ⟨k, hk⟩ : ∃ k, k + 1 = s.cfg.retryCeiling := ⟨s.cfg.retryCeiling - 1, by omega⟩
    rw [← hk, List.replicate_succ', performAll_append,
      performAll_dspEnq_below_ceiling hboot hpos hmi hb hfull hatt (by omega), andThen_next, performAll,
      perform_dspEnq_at_ceiling hboot hpos hb hfull hk, ← hatt]
    rfl

end Sys2Proof.Machine

/-! O43 and O44: the capability interface (R200 to R209). Each operation is said once per side of its guard or contract. -/

namespace Sys2Proof.Machine

/-! ### The init operations (R202, R206, R207) -/

theorem enabled_lineInit_iff {s : State} : enabled .lineInit s = true ↔ s.lineEn = false ∧ s.idleCfg = true := by
  simp only [enabled, Bool.and_eq_true, Bool.not_eq_true']

theorem execLineInit_of_enabled {s : State} (h : enabled .lineInit s = true) :
    exec .lineInit s = .next { s with lineEn := true, rxie := true, txRdy := true, result := .none } := if_pos h

theorem execHbtInit_of_stopped {s : State} (h : s.hbRun = false) :
    exec .hbtInit s = .next { s with hbRun := true, hbCnt := s.cfg.hbPeriodTicks, hbPend := false, result := .none } := by
  simp only [exec, execHbtInit, h, Bool.not_false, guarded_true, finish]

theorem execIdltInit_of_not_configured {s : State} (h : s.idleCfg = false) :
    exec .idltInit s = .next { s with
      idleCfg := true, idleArmed := false, idleCnt := 0, idlePend := false, result := .none } := by
  simp only [exec, execIdltInit, h, Bool.not_false, guarded_true, finish]

/-- Settles O43: a false guard leaves no step, a true one the operation's effect. -/
theorem initOperationsEnableTheirSource : Obligations.InitOperationsEnableTheirSource := by
  unfold Obligations.InitOperationsEnableTheirSource
  refine fun s => ⟨fun hn => ?_, fun hoff hconf => ?_, fun hrun => ?_, execHbtInit_of_stopped, fun hconf => ?_,
    execIdltInit_of_not_configured⟩
  · exact exec_of_not_enabled (Bool.eq_false_iff.2 (mt enabled_lineInit_iff.1 hn))
  · exact execLineInit_of_enabled (enabled_lineInit_iff.2 ⟨hoff, hconf⟩)
  · exact exec_of_not_enabled (i := .hbtInit) (congrArg not hrun)
  · exact exec_of_not_enabled (i := .idltInit) (congrArg not hconf)

/-! ### The line's three calls (R203 to R205) -/

theorem execLineWrdy_eq (s : State) : exec .lineWrdy s = .next { s with result := .ready s.txRdy } := rfl

theorem lineWrOp_of_not_ready {s : State} (h : ¬ (s.lineEn = true ∧ s.txRdy = true)) (b : Byte) :
    lineWrOp b s = .refused .lineNotReady :=
  if_neg (mt Bool.and_eq_true_iff.1 h)

theorem execLineWr_of_ready {s : State} (hl : s.lineEn = true) (hr : s.txRdy = true) (b : Byte) :
    exec (.lineWr b) s = .next { s with wireTx := s.wireTx ++ [b], txRdy := false, result := .none } := by
  simp only [exec, execLineWr, lineWrOp_of_ready hl hr, andThen_next, finish]

theorem execLineWr_of_not_ready {s : State} (h : ¬ (s.lineEn = true ∧ s.txRdy = true)) (b : Byte) :
    exec (.lineWr b) s = .refused .lineNotReady := by
  simp only [exec, execLineWr, lineWrOp_of_not_ready h, andThen_refused]

theorem lineRdOp_of_not_pending {s : State} (h : s.rxPend = false) : lineRdOp s = .refused .noReceivedByte :=
  if_neg (Bool.eq_false_iff.1 h)

theorem execLineRd_of_not_pending {s : State} (h : s.rxPend = false) : exec .lineRd s = .refused .noReceivedByte := by
  simp only [exec, execLineRd, lineRdOp_of_not_pending h, andThen_refused]

/-- Settles O44: what EV_TXRDY's guard says of `TX_RDY`, beside each call where it answers and where it is refused. -/
theorem lineCallsReadAndWriteOneUnit : Obligations.LineCallsReadAndWriteOneUnit := by
  unfold Obligations.LineCallsReadAndWriteOneUnit
  refine fun s => ⟨execLineWrdy_eq s, fun hen => ?_, fun b => ⟨fun hl hr => execLineWr_of_ready hl hr b,
    fun hn => execLineWr_of_not_ready hn b⟩, fun b => execLineRd_of_rxData, execLineRd_of_not_pending⟩
  obtain ⟨-, -, hready⟩ := State.evTxRdyEnabled_iff.1 hen
  exact hready

end Sys2Proof.Machine

/-! O9, O46, O47 and O49: the environment (R220 to R229). The line's two transitions, SYNC and RESET have an equation each; TICK is
put together from the two timers' parts, each said once for a timer with nothing pending. -/

namespace Sys2Proof.Machine

open Sys2Proof.Config

/-! ### RESET (R228) -/

theorem memRead_resetWith (x : RingSel) (i : Nat) (p : Params) (w : List Opw) : memRead x i (State.resetWith p w) = none := by
  cases x <;> rfl

/-- Settles O9: the rows of R47 are the fields of the state after reset. -/
theorem resetGivesTheResetValues : Obligations.ResetGivesTheResetValues := by
  unfold Obligations.ResetGivesTheResetValues
  intro s
  refine ⟨State.resetWith s.cfg s.sched, rfl, rfl, rfl, rfl, rfl, fun x i => memRead_resetWith x i s.cfg s.sched, ?_⟩
  simp [State.resetWith, Ring.empty, Mem.read]

/-! ### The line's transitions (R221, R222) -/

theorem enabled_envRxByte_iff {s : State} {b : Byte} :
    enabled (.envRxByte b) s = true ↔ s.lineEn = true ∧ s.rxPend = false := by
  simp only [enabled, Bool.and_eq_true, Bool.not_eq_true']

theorem enabled_envTxDone_iff {s : State} : enabled .envTxDone s = true ↔ s.lineEn = true ∧ s.txRdy = false := by
  simp only [enabled, Bool.and_eq_true, Bool.not_eq_true']

theorem execEnvRxByte_of_enabled {s : State} {b : Byte} (h : enabled (.envRxByte b) s = true) :
    exec (.envRxByte b) s = .next { s with
      rxData := some b, rxPend := true, wireRx := s.wireRx ++ [b], result := .none } := if_pos h

theorem execEnvTxDone_of_enabled {s : State} (h : enabled .envTxDone s = true) :
    exec .envTxDone s = .next { s with txRdy := true, result := .none } := if_pos h

/-- Settles O46: a false guard leaves no step, a true one the transition's effect. -/
theorem lineDeliversAndFinishes : Obligations.LineDeliversAndFinishes := by
  unfold Obligations.LineDeliversAndFinishes
  refine fun s b => ⟨fun hn => ?_, fun hl hp => ?_, fun hn => ?_, fun hl hr => ?_⟩
  · exact exec_of_not_enabled (Bool.eq_false_iff.2 (mt enabled_envRxByte_iff.1 hn))
  · exact execEnvRxByte_of_enabled (enabled_envRxByte_iff.2 ⟨hl, hp⟩)
  · exact exec_of_not_enabled (Bool.eq_false_iff.2 (mt enabled_envTxDone_iff.1 hn))
  · exact execEnvTxDone_of_enabled (enabled_envTxDone_iff.2 ⟨hl, hr⟩)

/-! ### TICK (R223, R152, R166) -/

theorem State.handlerEnabled_iff {s : State} : s.handlerEnabled = true ↔
    s.evRxEnabled = true ∨ s.evTxRdyEnabled = true ∨ s.evIdleEnabled = true ∨ s.evHbEnabled = true := by
  simp only [State.handlerEnabled, Bool.or_eq_true, or_assoc]

/-- The idle timer's part of a tick, whether or not the timer counts. -/
theorem tickIdle_of_not_pending {s : State} (hp : s.idlePend = false) :
    tickIdle s = { s with
      idleCnt := if s.idleArmed = true ∧ 0 < s.idleCnt then s.idleCnt - 1 else s.idleCnt
      idlePend := decide (s.idleArmed = true ∧ s.idleCnt = 1) } := by
  by_cases hcount : s.idleArmed = true ∧ 0 < s.idleCnt
  · obtain ⟨ha, hc⟩ := hcount
    have hexp : s.idleCnt - 1 = 0 ↔ s.idleCnt = 1 := by omega
    rw [tickIdle_of_counting ha hc hp]
    simp [ha, hc, hexp]
  · have hexp : ¬ (s.idleArmed = true ∧ s.idleCnt = 1) := fun ⟨ha, hc⟩ => hcount ⟨ha, by omega⟩
    simp only [tickIdle, Bool.and_eq_true, decide_eq_true_eq, if_neg hcount, decide_eq_false hexp, ← hp]

/-- The heartbeat timer's part of a tick, whether or not the timer runs or its period ends. -/
theorem tickHeartbeat_of_not_pending {s : State} (hp : s.hbPend = false) (hc : s.hbRun = true → 1 ≤ s.hbCnt) :
    tickHeartbeat s = .next { s with
      hbPend := decide (s.hbRun = true ∧ s.hbCnt = 1)
      hbCnt := if s.hbRun = true then (if s.hbCnt = 1 then s.cfg.hbPeriodTicks else s.hbCnt - 1) else s.hbCnt } := by
  by_cases hlast : s.hbRun = true ∧ s.hbCnt = 1
  · obtain ⟨hr, h1⟩ := hlast
    simp [tickHeartbeat, hr, h1]
  · have hne : s.hbRun = true → s.hbCnt ≠ 1 := fun hr h1 => hlast ⟨hr, h1⟩
    have hmore : s.hbRun = true → 1 < s.hbCnt := fun hr => lt_of_le_of_ne (hc hr) (hne hr).symm
    rw [tickHeartbeat_of_counting hmore, decide_eq_false hlast, ← hp]
    by_cases hr : s.hbRun = true
    · simp only [if_pos hr, if_neg (hne hr)]
    · simp only [if_neg hr]

/-- Settles O47: the two parts are independent, as the heartbeat's reads nothing that the idle timer's writes. -/
theorem tickAdvancesBothTimers : Obligations.TickAdvancesBothTimers := by
  unfold Obligations.TickAdvancesBothTimers
  refine fun s => ⟨fun hen => ?_, fun hrx htx hidle hhb hcnt => ?_⟩
  · exact exec_of_not_enabled (i := .tick) (congrArg not (State.handlerEnabled_iff.2 hen))
  · have hh : s.handlerEnabled = false := State.handlerEnabled_eq_false_iff.2 ⟨hrx, htx, hidle, hhb⟩
    have hbeat := tickHeartbeat_of_not_pending (s := tickIdle s) (by simpa) (by simpa)
    simp only [exec, execTick, hh, Bool.not_false, guarded_true, hbeat, andThen_next, finish]
    simp only [tickIdle_of_not_pending hidle]

/-! ### SYNC (R227) -/

theorem execSync_of_gray {s : State} {m : BitVec 2} (hs : s.cfg.sync = .gray) (hm : m ≠ 0) (x : RingSel) :
    exec (.sync x m) s = .next { s.setRing x ((s.ring x).refresh m) with result := .none } := by
  simp only [exec, execSync, hs, if_neg hm, finish]

/-- Settles O49: the refreshed ring is the one R227 names, bit by bit of the mask. -/
theorem syncRefreshesTheViews : Obligations.SyncRefreshesTheViews := by
  unfold Obligations.SyncRefreshesTheViews
  exact fun s x m => ⟨fun hs hm => execSync_of_gray hs hm x, fun hs => execSync_of_atomic hs x m⟩

end Sys2Proof.Machine

/-! O25 and O30: what the handlers read and what they enable (R248, R249). -/

namespace Sys2Proof.Machine

/-! ### The sequencer is not seen (R249): each outcome of a handler has an equation whose conditions
read no position and no local -/

theorem enabled_withSequencer {i : Instr} (hi : isHandler i = true) (s q : State) :
    enabled i (s.withSequencer q) = enabled i s := by
  cases i with
  | evRx | evTxRdy | evIdle | evHb => rfl
  | _ => cases hi

theorem execEvRx_withSequencer {s : State} (hg : s.evRxEnabled = true) (q : State) :
    exec .evRx (s.withSequencer q) = outWithSequencer q (exec .evRx s) := by
  cases hd : s.rxData with
  | none => rw [execEvRx_of_none hg hd, execEvRx_of_none (s := s.withSequencer q) hg hd]; rfl
  | some b =>
    cases hc : s.idleCfg with
    | false =>
      rw [execEvRx_of_not_configured hg hd hc, execEvRx_of_not_configured (s := s.withSequencer q) hg hd hc]
      rfl
    | true =>
      rw [execEvRx_of_configured hg hd hc, execEvRx_of_configured (s := s.withSequencer q) hg hd hc]
      simp only [pushOp_rx_snd, pushOp_tx_snd]
      rfl

theorem execEvTxRdy_withSequencer {s : State} (hg : s.evTxRdyEnabled = true) (q : State) :
    exec .evTxRdy (s.withSequencer q) = outWithSequencer q (exec .evTxRdy s) := by
  cases he : s.tx.emptyC s.cfg with
  | true => rw [execEvTxRdy_of_empty hg he, execEvTxRdy_of_empty (s := s.withSequencer q) hg he]; rfl
  | false =>
    cases hb : s.tx.buf.read s.tx.tail with
    | none =>
      have hne := Ring.emptyC_eq_false_iff.1 he
      rw [execEvTxRdy_of_none hg hne hb, execEvTxRdy_of_none (s := s.withSequencer q) hg hne hb]
      rfl
    | some b => rw [execEvTxRdy_of_read hg he hb, execEvTxRdy_of_read (s := s.withSequencer q) hg he hb]; rfl

/-- Settles O25: neither a handler's guard nor its effect reads the sequencer. -/
theorem handlersDoNotSeeTheSequencer : Obligations.HandlersDoNotSeeTheSequencer := by
  unfold Obligations.HandlersDoNotSeeTheSequencer
  intro i s q hi
  cases hg : enabled i s with
  | false =>
    rw [exec_of_not_enabled hg, exec_of_not_enabled ((enabled_withSequencer hi s q).trans hg)]
    rfl
  | true =>
    cases i with
    | evRx => exact execEvRx_withSequencer hg q
    | evTxRdy => exact execEvTxRdy_withSequencer hg q
    | evIdle => rw [execEvIdle_of_idlePend hg, execEvIdle_of_idlePend (s := s.withSequencer q) hg]; rfl
    | evHb => rw [execEvHb_of_hbPend hg, execEvHb_of_hbPend (s := s.withSequencer q) hg]; rfl
    | _ => cases hi

/-! ### What is enabled after a handler (R248) -/

/-- EV_RX takes the byte and rearms the timer; only the pump may be enabled by it. -/
theorem execEvRx_enables {s t : State} (h : exec .evRx s = .next t) :
    t.evRxEnabled = false ∧ t.evIdleEnabled = false ∧ t.evHbEnabled = s.evHbEnabled := by
  obtain ⟨b, -, -, -, -, -, rfl⟩ := execEvRx_next h
  rw [pushOp_rx_snd, pushOp_tx_snd]
  exact ⟨Bool.and_false _, rfl, rfl⟩

/-- EV_TXRDY goes idle or leaves the line busy. -/
theorem execEvTxRdy_enables {s t : State} (h : exec .evTxRdy s = .next t) :
    t.evTxRdyEnabled = false ∧ t.evRxEnabled = s.evRxEnabled ∧ t.evIdleEnabled = s.evIdleEnabled ∧
      t.evHbEnabled = s.evHbEnabled := by
  obtain ⟨-, -, -, ⟨-, rfl⟩ | ⟨-, b, -, rfl⟩⟩ := execEvTxRdy_next h
  · exact ⟨by simp [State.evTxRdyEnabled], rfl, rfl, rfl⟩
  · exact ⟨Bool.and_false _, rfl, rfl, rfl⟩

theorem execEvIdle_enables {s t : State} (h : exec .evIdle s = .next t) :
    t.evIdleEnabled = false ∧ t.evRxEnabled = s.evRxEnabled ∧ t.evTxRdyEnabled = s.evTxRdyEnabled ∧
      t.evHbEnabled = s.evHbEnabled := by
  obtain ⟨-, rfl⟩ := execEvIdle_next h
  exact ⟨rfl, rfl, rfl, rfl⟩

theorem execEvHb_enables {s t : State} (h : exec .evHb s = .next t) :
    t.evHbEnabled = false ∧ t.evRxEnabled = s.evRxEnabled ∧ t.evTxRdyEnabled = s.evTxRdyEnabled ∧
      t.evIdleEnabled = s.evIdleEnabled := by
  obtain ⟨-, rfl⟩ := execEvHb_next h
  exact ⟨rfl, rfl, rfl, rfl⟩

/-- Settles O30: after its handler an event is not enabled, and the other three are as they were, EV_IDLE and EV_TXRDY after EV_RX
apart: the rearm withdraws the one, and the other is the exception. -/
theorem handlersFalsifyTheirGuards : Obligations.HandlersFalsifyTheirGuards := by
  unfold Obligations.HandlersFalsifyTheirGuards
  intro i s t hi h
  cases i with
  | evRx => obtain ⟨hrx, hidle, hhb⟩ := execEvRx_enables h; simp [hrx, hidle, hhb]
  | evTxRdy => obtain ⟨htx, hrx, hidle, hhb⟩ := execEvTxRdy_enables h; simp [htx, hrx, hidle, hhb]
  | evIdle => obtain ⟨hidle, hrx, htx, hhb⟩ := execEvIdle_enables h; simp [hidle, hrx, htx, hhb]
  | evHb => obtain ⟨hhb, hrx, htx, hidle⟩ := execEvHb_enables h; simp [hhb, hrx, htx, hidle]
  | _ => cases hi

end Sys2Proof.Machine

/-! O11 and O12: the boot (R271, R272). -/

namespace Sys2Proof.Machine

open Sys2Proof.Config

/-- The state after the canonical boot of a machine with parameters `p` and words `w` still to be performed (R272). -/
def State.started (p : Params) (w : List Opw) : State := { State.resetWith p w with
  idleCfg := true, hbRun := true, hbCnt := p.hbPeriodTicks, lineEn := true, rxie := true, txRdy := true }

/-! ### The boot orders (R271): after RESET each guard reads a constant, and the timer inits write fields of their own -/

theorem performAll_boot (s : State) :
    performAll [.reset, .idltInit, .hbtInit, .lineInit] s = .next (State.started s.cfg s.sched) := rfl

theorem performAll_boot_heartbeat_first (s : State) :
    performAll [.reset, .hbtInit, .idltInit, .lineInit] s = .next (State.started s.cfg s.sched) := rfl

theorem performAll_boot_heartbeat_last (s : State) :
    performAll [.reset, .idltInit, .lineInit, .hbtInit] s = .next (State.started s.cfg s.sched) := rfl

/-- An init operation is enabled once per power cycle: it writes the bit its guard asks to be 0. -/
theorem init_falsifies_its_guard {i : Instr} {s t : State} (hi : i = .idltInit ∨ i = .hbtInit ∨ i = .lineInit)
    (h : exec i s = .next t) : enabled i t = false := by
  rcases hi with rfl | rfl | rfl
  · obtain ⟨-, rfl⟩ := execIdltInit_next h; rfl
  · obtain ⟨-, rfl⟩ := execHbtInit_next h; rfl
  · obtain ⟨-, -, rfl⟩ := execLineInit_next h; rfl

/-- Settles O12: the three orders lead to the start state, and LINEINIT finds the idle timer not configured without IDLTINIT. -/
theorem bootOrdersAgree : Obligations.BootOrdersAgree := by
  unfold Obligations.BootOrdersAgree
  refine fun s => ⟨?_, ?_, rfl, rfl, fun i t u hi h hagain => ?_⟩
  · rw [performAll_boot_heartbeat_first, performAll_boot]
  · rw [performAll_boot_heartbeat_last, performAll_boot]
  · rw [exec_of_not_enabled (init_falsifies_its_guard hi h)] at hagain
    cases hagain

/-! ### The start state (R272) -/

/-- Operations that run through keep the invariant. -/
theorem performAll_inv {is : List Instr} {s t : State} (h : s.Inv) (hrun : performAll is s = .next t) : t.Inv := by
  induction is generalizing s with
  | nil => cases hrun; exact h
  | cons i is ih =>
    obtain ⟨u, hu, hrest⟩ := performAll_cons_eq_next hrun
    exact ih (perform_inv h hu) hrest

theorem started_inv {p : Params} (hp : p.ok) (w : List Opw) : (State.started p w).Inv :=
  performAll_inv (resetWith_inv hp w) (performAll_boot (State.resetWith p w))

/-- In the start state nothing is pending, the pump is idle and the line is free. -/
theorem enabled_started {i : Instr} (hi : isHandler i = true ∨ i = .envTxDone) (p : Params) (w : List Opw) :
    enabled i (State.started p w) = false := by
  cases i with
  | evRx | evTxRdy | evIdle | evHb | envTxDone => rfl
  | _ => simp [isHandler] at hi

/-- Settles O11: the start state has the invariant, so that an operation enabled in it has a step. -/
theorem bootReachesTheStartState : Obligations.BootReachesTheStartState := by
  unfold Obligations.BootReachesTheStartState
  refine fun s hp => ⟨State.started s.cfg s.sched, performAll_boot s, rfl, fun i hi => ?_,
    fun i hi => exec_of_not_enabled (enabled_started hi s.cfg s.sched)⟩
  have hinv := started_inv hp s.sched
  rcases hi with rfl | rfl | rfl | ⟨b, rfl⟩ <;> exact exec_progress hinv rfl rfl (by simp)

end Sys2Proof.Machine

/-! O58: quiescent states and what closes a schedule (R283). -/

namespace Sys2Proof.Machine

/-! ### A quiescent state -/

theorem State.bootComplete_iff {s : State} :
    s.bootComplete = true ↔ s.lineEn = true ∧ s.hbRun = true ∧ s.idleCfg = true := by
  simp [State.bootComplete, and_assoc]

/-- Nothing is pending, the pump is idle, and every init operation has run. -/
theorem State.quiescent.not_enabled {s : State} (h : s.quiescent) {i : Instr}
    (hi : isHandler i = true ∨ i = .lineInit ∨ i = .hbtInit ∨ i = .idltInit) : enabled i s = false := by
  obtain ⟨hboot, hrx, hidle, hhb, -, hpump, -⟩ := h
  obtain ⟨hline, hrun, hconf⟩ := State.bootComplete_iff.1 hboot
  cases i with
  | evRx => simp [enabled, State.evRxEnabled, hrx]
  | evTxRdy => simp [enabled, State.evTxRdyEnabled, hpump]
  | evIdle => exact hidle
  | evHb => exact hhb
  | lineInit => simp [enabled, hline]
  | hbtInit => exact congrArg not hrun
  | idltInit => exact congrArg not hconf
  | _ => simp [isHandler] at hi

/-- Quiescence asks of the position only that it be one of the polls'. -/
theorem State.quiescent.withMpc {s : State} (h : s.quiescent) {pos : Mpc} (hpos : pos = .pollIdle ∨ pos = .pollHb) (r : Result) :
    State.quiescent { s with mpc := pos, result := r } := by
  obtain ⟨hboot, hrx, hidle, hhb, hocc, hpump, hrdy, hhbf, hframe, -, hviews⟩ := h
  exact ⟨hboot, hrx, hidle, hhb, hocc, hpump, hrdy, hhbf, hframe, hpos, hviews⟩

/-- The poll at the position finds nothing, and moves on to the other one. -/
theorem State.quiescent.poll {s : State} (h : s.quiescent) (hinv : s.Inv) :
    (s.mpc = .pollIdle ∧ exec .dspPollIdle s = .next { s with mpc := .pollHb, result := .none }) ∨
    (s.mpc = .pollHb ∧ exec .dspPollHb s = .next { s with mpc := .pollIdle, result := .none }) := by
  obtain ⟨hboot, -, -, -, -, -, -, hhbf, hframe, hpos | hpos, -⟩ := h
  · refine .inl ⟨hpos, execDspPollIdle_of_no_frame hboot hpos fun ⟨hset, hne⟩ => ?_⟩
    rcases hframe with hclear | hocc
    · exact Bool.false_ne_true (hclear.symm.trans hset)
    · exact hne (Ring.emptyC_iff.1 (Ring.emptyC_of_occupied (hinv.ring_ok .rx) hocc))
  · exact .inr ⟨hpos, execDspPollHb_of_no_hbf hboot hpos hhbf⟩

/-- The only dispatch operation that has a step is the poll at the position. -/
theorem State.quiescent.dispatch_step {s t : State} {i : Instr} (h : s.quiescent) (hinv : s.Inv) (hi : isDispatch i = true)
    (hx : exec i s = .next t) :
    (i = .dspPollIdle ∧ t = { s with mpc := .pollHb, result := .none }) ∨
    (i = .dspPollHb ∧ t = { s with mpc := .pollIdle, result := .none }) := by
  obtain ⟨hboot, -⟩ := id h
  have hstep : i = dspStep s.mpc := (enabled_dispatch_iff hboot hi).1 (enabled_of_exec_next hx)
  rcases h.poll hinv with ⟨hpos, e⟩ | ⟨hpos, e⟩ <;> rw [hpos] at hstep <;> subst hstep <;> cases e.symm.trans hx
  · exact .inl ⟨rfl, rfl⟩
  · exact .inr ⟨rfl, rfl⟩

theorem State.quiescent.exists_poll {s : State} (h : s.quiescent) (hinv : s.Inv) :
    ∃ i t, isDispatch i = true ∧ exec i s = .next t ∧ t.quiescent := by
  rcases h.poll hinv with ⟨-, e⟩ | ⟨-, e⟩
  · exact ⟨_, _, rfl, e, h.withMpc (.inr rfl) .none⟩
  · exact ⟨_, _, rfl, e, h.withMpc (.inl rfl) .none⟩

/-! ### Closing a schedule -/

/-- From `s` to `t` no byte came, the heartbeat counter stood, and the wire was only appended to. -/
def ClosingFrame (s t : State) : Prop := t.wireRx = s.wireRx ∧ t.hbCnt = s.hbCnt ∧ ∃ bs, t.wireTx = s.wireTx ++ bs

theorem ClosingFrame.refl (s : State) : ClosingFrame s s := ⟨rfl, rfl, [], (List.append_nil _).symm⟩

theorem ClosingFrame.trans {s t u : State} (hst : ClosingFrame s t) (htu : ClosingFrame t u) : ClosingFrame s u := by
  obtain ⟨hrx, hcnt, bs, hbs⟩ := hst
  obtain ⟨hrx', hcnt', cs, hcs⟩ := htu
  exact ⟨hrx'.trans hrx, hcnt'.trans hcnt, bs ++ cs, by rw [hcs, hbs, List.append_assoc]⟩

theorem perform_closingFrame {i : Instr} {s t : State} (hi : isClosing i = true) (h : perform i s = .next t) :
    ClosingFrame s t := by
  obtain ⟨-, -, hx⟩ := perform_eq_next h
  exact exec_closing_frame hi hx

theorem runToQuiescent_closingFrame {is : List Instr} {s t : State} (his : ∀ i ∈ is, isClosing i = true)
    (h : runToQuiescent is s = .next t) : ClosingFrame s t := by
  induction is generalizing s with
  | nil => cases h; exact .refl _
  | cons i is ih =>
    obtain ⟨hi, hrest⟩ := List.forall_mem_cons.1 his
    by_cases hq : s.quiescent
    · rw [runToQuiescent_of_quiescent hq] at h
      cases h
      exact .refl _
    · obtain ⟨u, hu, h⟩ := runToQuiescent_cons hq h
      exact (perform_closingFrame hi hu).trans (ih hrest h)

/-- Closing steps that reach a quiescent state reach it within the frame. -/
theorem closeBy_eq_some {us : List ClosingStep} {s t : State} (h : closeBy us s = some t) : t.quiescent ∧ ClosingFrame s t := by
  induction us generalizing s with
  | nil =>
    obtain ⟨hq, heq⟩ := Option.ite_none_right_eq_some.1 h
    cases heq
    exact ⟨hq, .refl _⟩
  | cons u us ih =>
    by_cases hq : s.quiescent
    · rw [closeBy_of_quiescent hq] at h
      cases h
      exact ⟨hq, .refl _⟩
    · obtain ⟨v, hv, h⟩ := closeBy_cons hq h
      obtain ⟨hquiet, hframe⟩ := ih h
      exact ⟨hquiet, (runToQuiescent_closingFrame (fun i => operations_isClosing) hv).trans hframe⟩

/-- A schedule that ends quiescent needs nothing behind it, and anything added is not performed. -/
theorem isOutput_iff_of_quiescent {s t : State} {ws : List Opw} (hrun : runSchedule ws s = .next t) (hq : t.quiescent)
    (out : List Byte) : IsOutput s ws out ↔ out = t.wireTx := by
  constructor
  · rintro ⟨v, us, u, hrun', hclose, rfl⟩
    cases hrun.symm.trans hrun'
    rw [closeBy_of_quiescent hq] at hclose
    cases hclose
    rfl
  · rintro rfl
    exact ⟨t, [], t, hrun, closeBy_of_quiescent hq [], rfl⟩

/-- Settles O58: the state's own clauses, then the frame of the closing steps, then the one output. -/
theorem quiescentStateOnlyPolls : Obligations.QuiescentStateOnlyPolls := by
  unfold Obligations.QuiescentStateOnlyPolls
  exact ⟨fun s hinv hq => ⟨fun i hi => exec_of_not_enabled (hq.not_enabled hi), fun i t hi hx => hq.dispatch_step hinv hi hx,
    hq.exists_poll hinv⟩, fun us s t => closeBy_eq_some, fun s t ws => isOutput_iff_of_quiescent⟩

end Sys2Proof.Machine
